-- ==== Sys2Proof/Word.lean ====
section
/-! DEFINITION. The word types of WSS-ENC: the widths of spec/00_scope.md R5 and R7, and the coded words of the nine
formats of spec/30_encoding.md (R70) and of the opcode table, each with the width its format has. -/

namespace Sys2Proof

/-- A NibbleFrame as one 36-bit word `NFW = {NF[0], …, NF[8]}`, `NF[0]` most significant (R71). -/
abbrev NfWord := BitVec 36

/-- The accumulator and a pulse value: `ACC_W = 32` bits, two's complement (R7). -/
abbrev AccWord := BitVec 32

/-- A coded word together with the format it is written in. WSS-ENC has no instruction words: what selects an
operation is a bundle of wires or register bits, and one and the same bit pattern means different things in
different formats (R70, R76, R77), so a word is decoded only in its format. -/
inductive Code where
  /-- Format SYM: the chips of a symbol, first chip first in time (R72). -/
  | sym (chips : List Bool)
  /-- Format NFW: a NibbleFrame word (R71). -/
  | nfw (w : BitVec 36)
  /-- Format CTOK: `{end, chip}` (R74). -/
  | ctok (w : BitVec 2)
  /-- Format PTOK: `{po_last, po_data[31:0]}` (R75). -/
  | ptok (w : BitVec 33)
  /-- Format SSEL: `SE.st[1:0]` (R76). -/
  | ssel (w : BitVec 2)
  /-- Format PSEL: `{PE.st[1:0], end, chip, PE.pv, PE.pol}`, with the arithmetic condition `overflow_pending` of R150
  beside it: two of its patterns stand for two operations each and the condition decides (R77, R149). -/
  | psel (w : BitVec 6) (overflow : Bool)
  /-- Format FORKSEL: `{co_valid, ci_ready, tap_ready}` (R181). -/
  | forksel (w : BitVec 3)
  /-- Format NFPORT: `{nf_valid, nf_data[35:0]}` (R182). -/
  | nfport (w : BitVec 37)
  /-- Format RST: the wire `rst` (R183). -/
  | rst (w : BitVec 1)
deriving DecidableEq, Repr

end Sys2Proof
end

