-- ==== Sys2Proof/Config.lean ====
section
/-! DEFINITION. The constants of WSS-ENC (spec/00_scope.md R5 to R7), which no step of the machine writes (R6), and the
values the spec leaves open, as constants without a body. -/

namespace Sys2Proof.Config

/-- `NIBBLES`: elements of a NibbleFrame (R5). -/
def nibbles : Nat := 9
/-- `NIBBLE_W`: bits of a nibble (R5). -/
def nibbleW : Nat := 4
/-- `NBITS = NIBBLES * NIBBLE_W`: bits of a frame (R5). -/
def nbits : Nat := 36
/-- `REPEAT`: frames of a ChipSequence (R5). -/
def repeatCount : Nat := 12
/-- `SYNC_PAT`, nine chips (R5, R72). -/
def syncPat : List Bool := [true, false, false, false, false, false, false, false, false]
/-- `BIT0_PAT`, three chips (R5, R72). -/
def bit0Pat : List Bool := [true, false, false]
/-- `BIT1_PAT`, five chips (R5, R72). -/
def bit1Pat : List Bool := [true, false, false, false, false]
/-- `ONE_LEN`: duration added for a chip of value 1 (R5). -/
def oneLen : Int := 500
/-- `ZERO_LEN`: duration subtracted for a chip of value 0 (R5). -/
def zeroLen : Int := 500
/-- `ACC_W`: the width of `PE.acc` and of `po_data` (R7). -/
def accW : Nat := 32
/-- `ACC_MAX = 2^(ACC_W-1) - 1` (R7). -/
def accMax : Int := 2147483647
/-- `ACC_MIN = -2^(ACC_W-1)` (R7). -/
def accMin : Int := -2147483648
/-- `REP_W`: the width of `SE.rep` (R7). -/
def repW : Nat := 4
/-- `SYM_W`: the width of `SE.sym` (R7). -/
def symW : Nat := 6
/-- `POS_W`: the width of `SE.pos` (R7). -/
def posW : Nat := 4

/-- The constraints every choice of the parameters must satisfy (R7), with the two definitions of derived
parameters that R5 and R7 give (`NBITS`, `ACC_MAX`, `ACC_MIN`). -/
def wf : Bool :=
  decide (0 < oneLen ∧ oneLen ≤ accMax ∧ 0 < zeroLen ∧ zeroLen ≤ -accMin ∧ 1 ≤ repeatCount ∧
    repeatCount ≤ 2 ^ repW ∧ nbits + 1 ≤ 2 ^ symW ∧
    1 ≤ syncPat.length ∧ syncPat.length ≤ 2 ^ posW ∧ 1 ≤ bit0Pat.length ∧ bit0Pat.length ≤ 2 ^ posW ∧
    1 ≤ bit1Pat.length ∧ bit1Pat.length ≤ 2 ^ posW ∧
    nbits = nibbles * nibbleW ∧ accMax = 2 ^ (accW - 1) - 1 ∧ accMin = -2 ^ (accW - 1))

/-- FREE VALUE (log entry 2): what a read of `SE.NF` gives while the registers hold no LOADed word. R30: "holds no
value", "a model must not assume 0". The argument is the number of resets taken, so that no two resets need agree. -/
opaque nfUnwritten : Nat → BitVec 36

/-- FREE VALUE (log entry 3): what the wires `co_tok` show where no rule gives them a value. R110: "unspecified
(don't-care) in `S_IDLE`". No transfer reads it. The arguments are the number of resets taken and the number of turns still
to come, so that no two moments need agree. -/
opaque coTokFree : Nat → Nat → BitVec 2

end Sys2Proof.Config
end

