-- ==== Sys2Proof/Syntax.lean ====
section
/-! DEFINITION. The syntax of WSS-ENC: the three symbols, the chip and pulse tokens, and `Instr`, one constructor per row
of spec/opcode_table.json. -/

namespace Sys2Proof

/-- The three symbols of the symbol→chip table (R72). -/
inductive Sym where
  | sync
  | bit0
  | bit1
deriving DecidableEq, Repr

/-- A chip-stream token (R74): a chip of value `c`, or END with its ignored chip bit `x` (canonical: `x` false). -/
inductive ChipTok where
  | chip (c : Bool)
  | fin (x : Bool)
deriving DecidableEq, Repr

/-- A pulse-stream token (R75): `po_data` and `po_last`. -/
structure Pulse where
  data : BitVec 32
  last : Bool
deriving DecidableEq, Repr

/-- One constructor per row of the opcode table. WSS-ENC has no instruction set (R1): the rows are the three symbols,
the stream words and tokens, and the operations of the two units, of the fork and of the host. Letters in a row's
encoding are operands here, the don't-care ones too, so that decoding drops no bit. -/
inductive Instr where
  /-- SYNC: the sync pattern (R102). -/
  | sync
  /-- BIT0: the symbol of a frame bit 0 (R103). -/
  | bit0
  /-- BIT1: the symbol of a frame bit 1 (R104). -/
  | bit1
  /-- NFW: a NibbleFrame word handed over on the `nf` port (R71). -/
  | nfw (w : BitVec 36)
  /-- CHIP0: a chip token of value 0 on the chip link (R74). -/
  | chip0
  /-- CHIP1: a chip token of value 1 on the chip link (R74). -/
  | chip1
  /-- END: the end-of-sequence token on the chip link; `x` is the ignored chip bit (R74, R78). -/
  | endTok (x : Bool)
  /-- PULSE: a pulse token on the `po` port (R75). -/
  | pulse (last : Bool) (data : BitVec 32)
  /-- SE.LOAD (R101). -/
  | seLoad
  /-- SE.EMIT (R105). -/
  | seEmit
  /-- SE.ENDTOK (R106). -/
  | seEndtok
  /-- SE.RESERVED: `SE.st = 0b11` (R78). -/
  | seReserved
  /-- PE.FIRST: `c` the chip, `x` the don't-care bit `PE.pol` (R142). -/
  | peFirst (c x : Bool)
  /-- PE.SAME0: a low run continues (R143). -/
  | peSame0
  /-- PE.SAME1: a high run continues (R143). -/
  | peSame1
  /-- PE.FLIP_UP: low → high (R144). -/
  | peFlipUp
  /-- PE.FLIP_DOWN: high → low (R144). -/
  | peFlipDown
  /-- PE.FINISH_EMPTY: `x` the ignored chip bit of END, `y` the don't-care bit `PE.pol` (R145). -/
  | peFinishEmpty (x y : Bool)
  /-- PE.FINISH_LOW: `x` the ignored chip bit of END (R146). -/
  | peFinishLow (x : Bool)
  /-- PE.FINISH_HIGH: `x` the ignored chip bit of END (R147). -/
  | peFinishHigh (x : Bool)
  /-- PE.TRAIL: four don't-care bits (R148). -/
  | peTrail (w x y z : Bool)
  /-- PE.OVF0: a low run leaves the accumulator's range (R149). -/
  | peOvf0
  /-- PE.OVF1: a high run leaves the accumulator's range (R149). -/
  | peOvf1
  /-- PE.HOLD_FAULT: `PE.st = P_FAULT`, four don't-care bits (R150). -/
  | peHoldFault (w x y z : Bool)
  /-- PE.RESERVED: `PE.st = 0b11`, four don't-care bits (R78). -/
  | peReserved (w x y z : Bool)
  /-- FORK: a transfer on the chip link in TOP (R181). -/
  | fork
  /-- OFFER: HOST drives a NibbleFrame word on the `nf` port (R182). -/
  | offer (w : BitVec 36)
  /-- RESET: `rst` asserted (R183). -/
  | reset
deriving DecidableEq, Repr

end Sys2Proof
end

