-- ==== Sys2Proof/WellFormed.lean ====
section
/-! DEFINITION. Which terms are well formed: instructions, coded words, and NibbleFrames given as lists of numbers. -/

namespace Sys2Proof

/-- A pulse token of value 0 that is not the last of its list is never emitted (R78, last row; R153). -/
def Pulse.wf (p : Pulse) : Bool := !(p.data == 0 && !p.last)

/-- Well-formed instructions. Every operand is typed to the width its field has, so that the one check left is the
pulse token that R78 says is never emitted; the non-canonical END (`endTok true`) is accepted, as R78 says. -/
def Instr.wf : Instr → Bool
  | .pulse last data => Pulse.wf ⟨data, last⟩
  | _ => true

/-- Well-formed coded words: a symbol is one of the three chip lists of R72, and the arithmetic condition stands only
beside the two selector patterns that it decides (R77, R149). -/
def Code.wf : Code → Bool
  | .sym chips => chips == Config.syncPat || chips == Config.bit0Pat || chips == Config.bit1Pat
  | .psel w overflow => !overflow || w == 0b000010#6 || w == 0b000111#6
  | _ => true

/-- A NibbleFrame given as numbers: "exactly 9 four-bit fields", "every element ∈ [0,15]". A model whose nibble type
is wider must refuse every other list (R78, R239, D18). -/
def nibblesWf (ns : List Nat) : Bool := ns.length == Config.nibbles && ns.all (· < 16)

/-- The NibbleFrame word of a list of nibbles, `NF[0]` first and most significant (R71); none where the list is no
NibbleFrame. -/
def packNibbles (ns : List Nat) : Option NfWord :=
  if nibblesWf ns then some (BitVec.ofNat 36 (ns.foldl (fun acc n => acc * 16 + n) 0)) else none

end Sys2Proof
end

