-- ==== Sys2Proof/Decode.lean ====
section
/-! DEFINITION. The decoder, from a coded word in its format to an instruction or a named rejection, total; then the
encoder, written from the same tables (spec/30_encoding.md R71 to R78, spec/opcode_table.json); then the entry the host
uses on the words of the opcode table. -/

namespace Sys2Proof

/-- Why a coded word stands for no row of the opcode table. The machine takes no step on such a word: its state does
not change (R110, R150), so that each of these is safe. -/
inductive Reject where
  /-- A chip list that is none of the three symbols (R72: "There are exactly three symbols"). -/
  | notASymbol
  /-- `FORKSEL` other than `0b111`: no chip-link transfer (R181). -/
  | noTransfer
  /-- `nf_valid = 0`: HOST offers nothing (R182). -/
  | noOffer
  /-- `rst = 0`: no reset (R183). -/
  | noReset
deriving DecidableEq, Repr

/-! ### Assembling and reading small words -/

/-- `{a, b}`. -/
def bits2 (a b : Bool) : BitVec 2 := BitVec.ofBool a ++ BitVec.ofBool b

/-- `{a, b, c}`. -/
def bits3 (a b c : Bool) : BitVec 3 := BitVec.ofBool a ++ bits2 b c

/-- `{a, b, c, d, e, f}`. -/
def bits6 (a b c d e f : Bool) : BitVec 6 := bits3 a b c ++ bits3 d e f

/-- The chip token of two wires `{end, chip}`; `0b11` is END, its chip bit ignored (R74, R78). -/
def ChipTok.ofBits (w : BitVec 2) : ChipTok :=
  match w.getLsbD 1 with
  | true => .fin (w.getLsbD 0)
  | false => .chip (w.getLsbD 0)

/-- The two wires `{end, chip}` of a chip token (R74). -/
def ChipTok.toBits : ChipTok → BitVec 2
  | .chip c => bits2 false c
  | .fin x => bits2 true x

/-- The pulse token of 33 wires `{po_last, po_data}` (R75). -/
def Pulse.ofBits (w : BitVec 33) : Pulse := ⟨w.extractLsb' 0 32, w.getLsbD 32⟩

/-- The 33 wires `{po_last, po_data}` of a pulse token (R75). -/
def Pulse.toBits (p : Pulse) : BitVec 33 := BitVec.ofBool p.last ++ p.data

/-! ### The decoder -/

/-- Format SYM (R72). -/
def decodeSym (chips : List Bool) : Except Reject Instr :=
  if chips = Config.syncPat then .ok .sync
  else if chips = Config.bit0Pat then .ok .bit0
  else if chips = Config.bit1Pat then .ok .bit1
  else .error .notASymbol

/-- Format CTOK (R74, R78). -/
def decodeCtok (w : BitVec 2) : Instr :=
  match ChipTok.ofBits w with
  | .chip false => .chip0
  | .chip true => .chip1
  | .fin x => .endTok x

/-- Format SSEL (R76). -/
def decodeSsel (w : BitVec 2) : Instr :=
  match w.getLsbD 1, w.getLsbD 0 with
  | false, false => .seLoad
  | false, true => .seEmit
  | true, false => .seEndtok
  | true, true => .seReserved

/-- Format PSEL (R77): the table's rows in the table's order; every value matches exactly one row, and on the two
patterns of SAME the arithmetic condition decides between SAME and OVF (R149). -/
def decodePsel (w : BitVec 6) (overflow : Bool) : Instr :=
  match w.getLsbD 5, w.getLsbD 4, w.getLsbD 3, w.getLsbD 2, w.getLsbD 1, w.getLsbD 0 with
  | false, false, false, c, false, x => .peFirst c x
  | false, false, false, false, true, false => if overflow then .peOvf0 else .peSame0
  | false, false, false, true, true, true => if overflow then .peOvf1 else .peSame1
  | false, false, false, true, true, false => .peFlipUp
  | false, false, false, false, true, true => .peFlipDown
  | false, false, true, x, false, y => .peFinishEmpty x y
  | false, false, true, x, true, false => .peFinishLow x
  | false, false, true, x, true, true => .peFinishHigh x
  | false, true, w, x, y, z => .peTrail w x y z
  | true, false, w, x, y, z => .peHoldFault w x y z
  | true, true, w, x, y, z => .peReserved w x y z

/-- The decoder: total on every coded word, rejecting by name. -/
def decode : Code → Except Reject Instr
  | .sym chips => decodeSym chips
  | .nfw w => .ok (.nfw w)
  | .ctok w => .ok (decodeCtok w)
  | .ptok w => .ok (.pulse (Pulse.ofBits w).last (Pulse.ofBits w).data)
  | .ssel w => .ok (decodeSsel w)
  | .psel w overflow => .ok (decodePsel w overflow)
  | .forksel w => if w = 0b111#3 then .ok .fork else .error .noTransfer
  | .nfport w => if w.getLsbD 36 then .ok (.offer (w.extractLsb' 0 36)) else .error .noOffer
  | .rst w => if w = 1#1 then .ok .reset else .error .noReset

/-! ### The encoder -/

/-- The coded word of an instruction, in its row's format (R71 to R78, spec/opcode_table.json). -/
def encode : Instr → Code
  | .sync => .sym Config.syncPat
  | .bit0 => .sym Config.bit0Pat
  | .bit1 => .sym Config.bit1Pat
  | .nfw w => .nfw w
  | .chip0 => .ctok (ChipTok.toBits (.chip false))
  | .chip1 => .ctok (ChipTok.toBits (.chip true))
  | .endTok x => .ctok (ChipTok.toBits (.fin x))
  | .pulse last data => .ptok (Pulse.toBits ⟨data, last⟩)
  | .seLoad => .ssel (bits2 false false)
  | .seEmit => .ssel (bits2 false true)
  | .seEndtok => .ssel (bits2 true false)
  | .seReserved => .ssel (bits2 true true)
  | .peFirst c x => .psel (bits6 false false false c false x) false
  | .peSame0 => .psel (bits6 false false false false true false) false
  | .peSame1 => .psel (bits6 false false false true true true) false
  | .peFlipUp => .psel (bits6 false false false true true false) false
  | .peFlipDown => .psel (bits6 false false false false true true) false
  | .peFinishEmpty x y => .psel (bits6 false false true x false y) false
  | .peFinishLow x => .psel (bits6 false false true x true false) false
  | .peFinishHigh x => .psel (bits6 false false true x true true) false
  | .peTrail w x y z => .psel (bits6 false true w x y z) false
  | .peOvf0 => .psel (bits6 false false false false true false) true
  | .peOvf1 => .psel (bits6 false false false true true true) true
  | .peHoldFault w x y z => .psel (bits6 true false w x y z) false
  | .peReserved w x y z => .psel (bits6 true true w x y z) false
  | .fork => .forksel (bits3 true true true)
  | .offer w => .nfport (BitVec.ofBool true ++ w)
  | .reset => .rst 1#1

/-! ### The words of the opcode table -/

/-- The chips of a symbol word of `width` bits: its most significant bit is the first chip in time (the table's
"leftmost chip is emitted first in time"). -/
def chipsOfWord (width w : Nat) : List Bool :=
  (List.range width).map fun i => w.testBit (width - 1 - i)

/-- The readings of a bare number, narrowest format first, CTOK (whose words are all words of SSEL too) last; the
table's own words are not unique across formats (DESIGN CHOICE, log entry 4, safe). -/
def tableReadings (w : Nat) : List (Nat × Code) :=
  [(1, .rst (BitVec.ofNat 1 w)), (2, .ssel (BitVec.ofNat 2 w)), (3, .forksel (BitVec.ofNat 3 w)),
    (3, .sym (chipsOfWord 3 w)), (5, .sym (chipsOfWord 5 w)), (6, .psel (BitVec.ofNat 6 w) false),
    (9, .sym (chipsOfWord 9 w)), (33, .ptok (BitVec.ofNat 33 w)), (36, .nfw (BitVec.ofNat 36 w)),
    (37, .nfport (BitVec.ofNat 37 w)), (2, .ctok (BitVec.ofNat 2 w))]

/-- Does a format of `width` bits take up `nbits`, either exactly or in whole bytes? -/
def widthFits (nbits width : Nat) : Bool := nbits == width || nbits == 8 * ((width + 7) / 8)

/-- Does the decoder accept the coded word? -/
def decodes (c : Code) : Bool :=
  match decode c with
  | .ok _ => true
  | .error _ => false

/-- The coded word that a number of `nbits` bits is read as: the first reading of the right width that holds the number
and that the decoder accepts. -/
def tableCode (nbits w : Nat) : Option Code :=
  ((tableReadings w).find? fun r => widthFits nbits r.1 && (decide (w < 2 ^ r.1) && decodes r.2)).map (·.2)

/-- The instruction the decoder reads from a word of the opcode table, numbered as the table numbers its bits. -/
def decodeTableWord (nbits w : Nat) : Option Instr :=
  match tableCode nbits w with
  | some c =>
    match decode c with
    | .ok i => some i
    | .error _ => none
  | none => none

end Sys2Proof
end

