-- ==== Sys2Proof/Machine/State.lean ====
section
/-! DEFINITION. The state of WSS-ENC as plain data (spec/10_state.md R20 to R32): the two units, the input wires of its
ports, the ghost logs, the composition, and the environment's schedule; the value after reset (R30); the reasons a step
can stop; the named single-field updates that every operation is made of. -/

namespace Sys2Proof.Machine

/-- `SE.st`, two bits (R23); the fourth value is the reserved `0b11`, in which no step is enabled (R78). -/
inductive SeSt where
  | idle
  | run
  | fin
  | reserved
deriving DecidableEq, Repr

/-- `PE.st`, two bits (R26); the fourth value is the reserved `0b11`, in which no step is enabled (R78). -/
inductive PeSt where
  | scan
  | trail
  | fault
  | reserved
deriving DecidableEq, Repr

/-- The Symbol Encoder (R21 to R23). `nf` is the register file `NF[0..8]` as the one word `NFW` that R21 gives as its
view; `nfHeld` says whether it holds a LOADed word, since after reset it "holds no value" (R30). -/
structure SE where
  st : SeSt
  nf : BitVec 36
  nfHeld : Bool
  rep : BitVec 4
  sym : BitVec 6
  pos : BitVec 4
deriving DecidableEq, Repr

/-- The Pulse Encoder (R24 to R27). -/
structure PE where
  st : PeSt
  acc : BitVec 32
  pol : Bool
  pv : Bool
  fault : Bool
deriving DecidableEq, Repr

/-- What is wired to what (R2, R51, R188). In TOP SE's `co` port feeds PE's `ci` port and the tap through the fork; in
`seAlone` `co` goes to an outside consumer; in `peAlone` CHIPSRC drives `ci`. The ports `nf` and `po` stay attached in
every composition. No step changes it (DESIGN CHOICE, log entry 9, unsafe for a claim about the unit that is not modelled
there). -/
inductive Wiring where
  | top
  | seAlone
  | peAlone
deriving DecidableEq, Repr

/-- The input wires of the ports (R51, R180) as the environment drives them: `rst`, the `nf` offer, the readiness of
TAP and SINK, the readiness of the consumer of `co` (SE alone), CHIPSRC's offer on `ci` (PE alone). An offer stays until
it is transferred (R254) or reset withdraws it (R252). -/
structure Ports where
  rst : Bool
  nfValid : Bool
  nfData : BitVec 36
  tapReady : Bool
  poReady : Bool
  coReady : Bool
  ciValid : Bool
  ciTok : ChipTok
deriving DecidableEq, Repr

/-- An entry of `ChipLog` (R29): a token transferred on the chip link, or a RESET marker (R252). -/
inductive ChipEvent where
  | tok (t : ChipTok)
  | cut
deriving DecidableEq, Repr

/-- An entry of `PulseLog` (R29): a token transferred on `po`, or a RESET marker (R252). -/
inductive PulseEvent where
  | pulse (p : Pulse)
  | cut
deriving DecidableEq, Repr

/-- An entry of `NfLog` (R29): a word latched by LOAD, or a RESET marker (DESIGN CHOICE, log entry 15, safe). -/
inductive NfEvent where
  | word (w : BitVec 36)
  | cut
deriving DecidableEq, Repr

/-- Whose turn it is (R20, D20; DESIGN CHOICE, log entry 8, safe). A hardware agent's operation is read from its
selector in the state; an environment agent brings the word it drives. -/
inductive Mover where
  /-- SE, one operation: SSEL (R76). -/
  | se
  /-- PE, one operation: PSEL (R77). -/
  | pe
  /-- The fork: FORKSEL (R181). -/
  | fork
  /-- SE, the EMIT steps of the symbol in progress: SYM (R102 to R104). -/
  | symbol
  /-- The consumer of SE's chip tokens (TAP in TOP, the outside consumer with SE alone) takes the token standing there:
  CTOK (R184). With PE alone there is none, and its turn selects nothing (log entry 9). -/
  | tap
  /-- SINK takes the token standing on `po`: PTOK (R184). -/
  | sink
  /-- HOST drives `{nf_valid, nf_data}`: NFPORT (R182). -/
  | hostPort (w : BitVec 37)
  /-- HOST hands a word over on `nf`: NFW (R71). -/
  | hostWord (w : BitVec 36)
  /-- CHIPSRC drives `ci_tok`: CTOK (R188). It exists with PE alone only (log entry 9). -/
  | chipsrc (w : BitVec 2)
deriving DecidableEq, Repr

/-- One turn of the schedule: who moves, and the wires the environment drives meanwhile. -/
structure Turn where
  mover : Mover
  rst : Bool
  tapReady : Bool
  poReady : Bool
  coReady : Bool
deriving DecidableEq, Repr

/-- The whole machine. `turns` (the schedule, which is the environment's to choose, R31, D20) and `resets` (the counter
the free values are applied to) are the model's own fields. -/
structure State where
  wiring : Wiring
  se : SE
  pe : PE
  ports : Ports
  chipLog : List ChipEvent
  pulseLog : List PulseEvent
  nfLog : List NfEvent
  turns : List Turn
  resets : Nat
deriving DecidableEq, Repr

/-- The faults of R231: the complete list. No step of this model ENDS with one: R234 describes the entry of
`AccOverflow` (`PE.fault <- 1`, `PE.st <- P_FAULT`), so PE.OVF answers a next state that records it, which
`State.recordedFault` reads back. Safe: nothing is cut short. -/
inductive Fault where
  /-- `AccOverflow`, code 1, raised by PE.OVF and recorded in `PE.fault` (R231); a next state, log entry 12. Safe. -/
  | accOverflow
deriving DecidableEq, Repr

/-- Refusals. No step of this model answers one: every row of the opcode table has its meaning. -/
inductive Refusal where
  /-- Raised by an arm of `exec` without a meaning; there is none. Safe. -/
  | notModelled (mnemonic : String)
deriving DecidableEq, Repr

/-! ### Reset values (R30) -/

/-- SE after reset (R30). The word in `nf` is the model's (DESIGN CHOICE, log entry 1, unsafe for a claim that names it),
and no instruction reads it: `nfHeld` is false. Only `State.placeSym`, which places a program, takes it up. -/
def SE.atReset : SE := ⟨.idle, 0, false, 0, 0, 0⟩

/-- PE after reset (R30). -/
def PE.atReset : PE := ⟨.scan, 0, false, false, false⟩

/-- No agent of the environment drives anything (DESIGN CHOICE, log entry 5, unsafe for a claim that names the wires). -/
def Ports.quiet : Ports := ⟨false, false, 0, false, false, false, false, .chip false⟩

/-- The machine right after reset (R30), composed as TOP, logs and schedule empty (DESIGN CHOICE, log entries 8, 9 and
19). -/
def State.reset : State := ⟨.top, SE.atReset, PE.atReset, Ports.quiet, [], [], [], [], 0⟩

/-! ### Named updates -/

/-- `s` with SE's registers replaced. -/
def State.setSe (s : State) (se : SE) : State := { s with se := se }
/-- `s` with PE's registers replaced. -/
def State.setPe (s : State) (pe : PE) : State := { s with pe := pe }
/-- `s` with the input wires replaced. -/
def State.setPorts (s : State) (p : Ports) : State := { s with ports := p }
/-- `ChipLog ++= [e]` (R29). -/
def State.logChip (s : State) (e : ChipEvent) : State := { s with chipLog := s.chipLog ++ [e] }
/-- `PulseLog ++= es` (R29). -/
def State.logPulses (s : State) (es : List PulseEvent) : State := { s with pulseLog := s.pulseLog ++ es }
/-- `NfLog ++= [e]` (R29). -/
def State.logNf (s : State) (e : NfEvent) : State := { s with nfLog := s.nfLog ++ [e] }
/-- `s` with the schedule replaced. -/
def State.setTurns (s : State) (ts : List Turn) : State := { s with turns := ts }
/-- `s` with one more reset counted. -/
def State.countReset (s : State) : State := { s with resets := s.resets + 1 }

end Sys2Proof.Machine
end

