-- ==== Sys2Proof/Machine/Flags.lean ====
section
/-! DEFINITION. The flags and the status outputs: how `PE.pol` and `PE.pv` are set (spec/10_state.md R25), the bits of
the two control states (R23, R26, D24), the three status wires (R28), and the recorded fault (R231). -/

namespace Sys2Proof.Machine

/-- The bits of `SE.st` (R23, D24). -/
def SeSt.toBits : SeSt → BitVec 2
  | .idle => 0b00#2
  | .run => 0b01#2
  | .fin => 0b10#2
  | .reserved => 0b11#2

/-- The control state of two bits of `SE.st` (R23, D24). -/
def SeSt.ofBits (w : BitVec 2) : SeSt :=
  match w.getLsbD 1, w.getLsbD 0 with
  | false, false => .idle
  | false, true => .run
  | true, false => .fin
  | true, true => .reserved

/-- Bit 1 of `PE.st` (R26, D24). -/
def PeSt.bit1 : PeSt → Bool
  | .scan => false
  | .trail => false
  | .fault => true
  | .reserved => true

/-- Bit 0 of `PE.st` (R26, D24). -/
def PeSt.bit0 : PeSt → Bool
  | .scan => false
  | .trail => true
  | .fault => false
  | .reserved => true

/-- The control state of the two bits of `PE.st` (R26, D24). -/
def PeSt.ofBits (b1 b0 : Bool) : PeSt :=
  match b1, b0 with
  | false, false => .scan
  | false, true => .trail
  | true, false => .fault
  | true, true => .reserved

/-- A run of polarity `c` is in progress: `pol <- c ; pv <- 1` (R25, R142, R144). -/
def PE.setPolarity (p : PE) (c : Bool) : PE := { p with pol := c, pv := true }

/-- No run in progress: `pol <- 0 ; pv <- 0` (R25, R146, R147). -/
def PE.clearPolarity (p : PE) : PE := { p with pol := false, pv := false }

/-- `se_busy` (R28). -/
def State.seBusy (s : State) : Bool := s.se.st != .idle

/-- `pe_busy` (R28, C10). -/
def State.peBusy (s : State) : Bool := s.pe.pv || s.pe.st == .trail

/-- `pe_fault` (R28). -/
def State.peFault (s : State) : Bool := s.pe.fault

/-- The fault the state records (R231: "there is only one cause"). -/
def State.recordedFault (s : State) : Option Fault := if s.pe.fault then some .accOverflow else none

/-- The code of a fault in the fault enumeration (R231). -/
def faultCode : Fault → Nat
  | .accOverflow => 1

end Sys2Proof.Machine
end

