-- ==== Sys2Proof/Machine/Operands.lean ====
section
/-! DEFINITION. The operand forms: the views of a NibbleFrame word (spec/20_memory.md R50, R52, R53; spec/30_encoding.md
R71), the symbol→chip table (R72) and which symbol stands where (R73). -/

namespace Sys2Proof.Machine

/-- `NF[n] = NFW[35-4n : 32-4n]` (R71). -/
def nibble (w : NfWord) (n : Nat) : BitVec 4 := w.extractLsb' (32 - 4 * n) 4

/-- Frame bit `b`, the `b`-th bit transmitted: `NFW[35 - b]` (R52, R71). -/
def frameBit (w : NfWord) (b : Nat) : Bool := w.getLsbD (35 - b)

/-- `pattern(k)`: the chips of a symbol, first in time first (R72). -/
def pattern : Sym → List Bool
  | .sync => Config.syncPat
  | .bit0 => Config.bit0Pat
  | .bit1 => Config.bit1Pat

/-- `plen(k)` (R72). -/
def plen (k : Sym) : Nat := (pattern k).length

/-- `pchip(k, p)`, for `p < plen(k)` (R72). -/
def pchip (k : Sym) (p : Nat) : Bool := (pattern k).getD p false

/-- `bitsym(b)` (R100). -/
def bitSym (b : Bool) : Sym := if b then .bit1 else .bit0

/-- `symkind(sym, NFW)` (R73). -/
def symKind (sym : BitVec 6) (w : NfWord) : Sym :=
  if sym = 0 then .sync else bitSym (w.getLsbD (36 - sym.toNat))

/-- What a read of `SE.NF` gives: the latched word; a free value while the registers hold none (R21, R30, log entry
2). -/
def State.nfw (s : State) : NfWord := if s.se.nfHeld then s.se.nf else Config.nfUnwritten s.resets

/-- The symbol the sequencer stands at (R73). -/
def State.kind (s : State) : Sym := symKind s.se.sym s.nfw

end Sys2Proof.Machine
end

