-- ==== Sys2Proof/Machine/Ops.lean ====
section
/-! DEFINITION. The named operations. On PE's registers: the accumulator's arithmetic (spec/41_pulse_encoder.md R141,
R149, R155) and the effect of each PE operation (R142 to R149). On SE's registers: the sequencer (spec/40_symbol_encoder.md
R105, R106). On the whole state: the handshake wires (R110, R150, R181), the atomic transfers (spec/20_memory.md R51), taking
the one fault (spec/60_exceptions.md R234) and the return from it, RESET (R235, R250). -/

namespace Sys2Proof.Machine

/-! ### The accumulator -/

/-- `delta(c)`: the signed duration of a chip (R141). -/
def delta (c : Bool) : Int := if c then Config.oneLen else -Config.zeroLen

/-- Does an integer fit the accumulator? (R7, R149) -/
def accFits (x : Int) : Bool := decide (Config.accMin ≤ x ∧ x ≤ Config.accMax)

/-- An integer as an accumulator value, two's complement (R24). -/
def accOf (x : Int) : AccWord := BitVec.ofInt 32 x

/-- `acc + delta(c)` on unbounded integers (R149). -/
def PE.sum (p : PE) (c : Bool) : Int := p.acc.toInt + delta c

/-- `overflow_pending`: the offered token is a chip that continues the run and the sum does not fit (R149, R150). -/
def PE.overflowPending (p : PE) : ChipTok → Bool
  | .chip c => p.st == .scan && (p.pv && (p.pol == c && !accFits (p.sum c)))
  | .fin _ => false

/-! ### The effect of each PE operation on PE's registers -/

/-- PE.FIRST: `pol <- c ; pv <- 1 ; acc <- delta(c)` (R142). -/
def PE.first (p : PE) (c : Bool) : PE := { p.setPolarity c with acc := accOf (delta c) }

/-- PE.SAME: `acc <- acc + delta(c)` (R143). -/
def PE.same (p : PE) (c : Bool) : PE := { p with acc := accOf (p.sum c) }

/-- PE.FLIP: `acc <- delta(c) ; pol <- c` (R144). -/
def PE.flip (p : PE) (c : Bool) : PE := { p with acc := accOf (delta c), pol := c }

/-- PE.FINISH_LOW: `acc <- 0 ; pol <- 0 ; pv <- 0` (R146). -/
def PE.finishLow (p : PE) : PE := { p.clearPolarity with acc := 0 }

/-- PE.FINISH_HIGH: as FINISH_LOW, then `PE.st <- P_TRAIL` (R147). -/
def PE.finishHigh (p : PE) : PE := { p.clearPolarity with acc := 0, st := .trail }

/-- PE.TRAIL: `PE.st <- P_SCAN` (R148). -/
def PE.leaveTrail (p : PE) : PE := { p with st := .scan }

/-- The trailer `(-ZERO_LEN)!` (R148). -/
def trailer : Pulse := ⟨accOf (-Config.zeroLen), true⟩

/-- The operation R77 selects for an offered token, where PE consumes it: PE's registers after it and the pulse it
emits. None where no operation consumes the token: in `P_TRAIL`, `P_FAULT`, `0b11`, and when OVF takes SAME's place. -/
def PE.take (p : PE) (t : ChipTok) : Option (PE × Option Pulse) :=
  match p.st with
  | .scan =>
    match t with
    | .chip c =>
      if p.pv then
        if p.pol == c then
          if accFits (p.sum c) then some (p.same c, none) else none
        else some (p.flip c, some ⟨p.acc, false⟩)
      else some (p.first c, none)
    | .fin _ =>
      if p.pv then
        if p.pol then some (p.finishHigh, some ⟨p.acc, false⟩) else some (p.finishLow, some ⟨p.acc, true⟩)
      else some (p, some ⟨p.acc, true⟩)
  | .trail => none
  | .fault => none
  | .reserved => none

/-! ### The sequencer -/

/-- Is the sequencer inside its ranges? Outside them no step is enabled (R78, R32 item 2). -/
def State.seqInRange (s : State) : Bool :=
  decide (s.se.rep.toNat < Config.repeatCount ∧ s.se.sym.toNat ≤ Config.nbits ∧ s.se.pos.toNat < plen s.kind)

/-- SE.EMIT's advance from a symbol of kind `k`, cases (a) to (d) of R105. -/
def SE.advance (se : SE) (k : Sym) : SE :=
  if se.pos.toNat + 1 < plen k then { se with pos := se.pos + 1 }
  else if se.sym.toNat < Config.nbits then { se with pos := 0, sym := se.sym + 1 }
  else if se.rep.toNat + 1 < Config.repeatCount then { se with pos := 0, sym := 0, rep := se.rep + 1 }
  else { se with pos := 0, sym := 0, rep := 0, st := .fin }

/-- SE after the token it offers is transferred: EMIT's advance in `S_RUN` (R105), `S_IDLE` after ENDTOK (R106). -/
def State.seAfter (s : State) : SE :=
  match s.se.st with
  | .run => s.se.advance s.kind
  | .fin => { s.se with st := .idle }
  | .idle => s.se
  | .reserved => s.se

/-- LOAD's latch: `NFW <- w ; rep, sym, pos <- 0 ; SE.st <- S_RUN` (R101). -/
def SE.latch (w : NfWord) : SE := ⟨.run, w, true, 0, 0, 0⟩

/-! ### The handshake wires. During reset no unit takes part in a transfer (R250). -/

/-- `nf_ready` (R101, R110, R250); 0 outside the sequencer's ranges, where no step is enabled (R78; DEDUCED, log entry 6,
safe). -/
def State.nfReady (s : State) : Bool := !s.ports.rst && (s.se.st == .idle && s.seqInRange)

/-- The token SE offers on `co`: the chip the sequencer stands at in `S_RUN`, END in `S_END` (R105, R106, R110); none
outside the sequencer's ranges (R78; DEDUCED, log entry 6, safe). -/
def State.coOffer (s : State) : Option ChipTok :=
  if s.ports.rst || !s.seqInRange then none
  else
    match s.se.st with
    | .run => some (.chip (pchip s.kind s.se.pos.toNat))
    | .fin => some (.fin false)
    | .idle => none
    | .reserved => none

/-- `co_valid` (R110). -/
def State.coValid (s : State) : Bool := s.coOffer.isSome

/-- Does the sequencer stand at a chip of a symbol, so that R72 and R73 give `pchip(symkind(sym, NFW), pos)` a value? -/
def State.atChip (s : State) : Bool := decide (s.se.sym.toNat ≤ Config.nbits ∧ s.se.pos.toNat < plen s.kind)

/-- `co_tok`, a function of SE's registers whatever `rst` and `rep` are (R110); a free value where no rule gives one: in
`S_IDLE`, in the reserved state, and in `S_RUN` with `sym` or `pos` at no chip (log entry 3, safe). -/
def State.coTok (s : State) : BitVec 2 :=
  match s.se.st with
  | .run =>
    if s.atChip then (ChipTok.chip (pchip s.kind s.se.pos.toNat)).toBits
    else Config.coTokFree s.resets s.turns.length
  | .fin => (ChipTok.fin false).toBits
  | .idle => Config.coTokFree s.resets s.turns.length
  | .reserved => Config.coTokFree s.resets s.turns.length

/-- The token PE sees on `ci`: in TOP the fork's `ci_valid = co_valid and tap_ready`, `ci_tok = co_tok` (R181); with PE
alone CHIPSRC's offer (R188); with SE alone nothing. -/
def State.ciOffer (s : State) : Option ChipTok :=
  match s.wiring with
  | .top => if s.ports.tapReady then s.coOffer else none
  | .seAlone => none
  | .peAlone => if s.ports.rst then none else if s.ports.ciValid then some s.ports.ciTok else none

/-- `ci_valid` (R51, R181). -/
def State.ciValid (s : State) : Bool := s.ciOffer.isSome

/-- `needs_po` (R150). -/
def State.needsPo (s : State) : Bool :=
  s.pe.st == .trail ||
    (s.pe.st == .scan &&
      match s.ciOffer with
      | some (.chip c) => s.pe.pv && s.pe.pol != c
      | some (.fin _) => true
      | none => false)

/-- `po_valid` (R150), 0 during reset (R250). -/
def State.poValid (s : State) : Bool := !s.ports.rst && s.needsPo

/-- `po_data` (R150; DEDUCED where `po_valid = 0`, log entry 17, unsafe there). -/
def State.poData (s : State) : BitVec 32 := if s.pe.st == .trail then accOf (-Config.zeroLen) else s.pe.acc

/-- `po_last` (R150; DEDUCED where `po_valid = 0`, log entry 17, unsafe there). -/
def State.poLast (s : State) : Bool :=
  s.pe.st == .trail ||
    (s.pe.st == .scan &&
      match s.ciOffer with
      | some (.fin _) => !(s.pe.pv && s.pe.pol)
      | some (.chip _) => false
      | none => false)

/-- `overflow_pending` on the token PE sees (R150). -/
def State.overflowPending (s : State) : Bool :=
  match s.ciOffer with
  | some t => s.pe.overflowPending t
  | none => false

/-- `ci_ready` (R150). -/
def State.ciReady (s : State) : Bool :=
  !s.ports.rst && (s.pe.st == .scan && (!s.overflowPending && (!s.needsPo || s.ports.poReady)))

/-- `tap_valid = co_valid and ci_ready` (R181). -/
def State.tapValid (s : State) : Bool := s.wiring == .top && (s.coValid && s.ciReady)

/-- `tap_tok = co_tok` (R181). -/
def State.tapTok (s : State) : BitVec 2 := s.coTok

/-- `co_ready`: in TOP `ci_ready and tap_ready` (R181); with SE alone the outside consumer's; with PE alone nothing is
attached to `co`. -/
def State.coReady (s : State) : Bool :=
  match s.wiring with
  | .top => s.ciReady && s.ports.tapReady
  | .seAlone => s.ports.coReady
  | .peAlone => false

/-! ### Transfers: atomic between the producer and every consumer (R51) -/

/-- The chip link's transfer of `t` to PE, which takes it to `p` and emits `out`: PE's registers, the logs, and on the
producer's side SE's own step in TOP (R181), the end of CHIPSRC's offer with PE alone. -/
def State.ciCommit (s : State) (t : ChipTok) (p : PE) (out : Option Pulse) : State :=
  let s' := ((s.setPe p).logChip (.tok t)).logPulses (out.toList.map .pulse)
  match s.wiring with
  | .top => s'.setSe s.seAfter
  | .seAlone => s'
  | .peAlone => s'.setPorts { s.ports with ciValid := false }

/-- The chip link's transfer of `t` from SE to an outside consumer (SE alone; R51, R105, R106). -/
def State.coCommit (s : State) (t : ChipTok) : State := (s.setSe s.seAfter).logChip (.tok t)

/-- One transfer to PE, where a token is offered on `ci` and PE accepts; otherwise nothing changes (R150). -/
def State.ciTransfer (s : State) : State :=
  match s.ciOffer with
  | some t =>
    if s.ciReady then
      match s.pe.take t with
      | some (p, out) => s.ciCommit t p out
      | none => s
    else s
  | none => s

/-- One transfer of the token SE offers, where every consumer of `co` accepts; otherwise nothing changes (R105, R110). -/
def State.coTransfer (s : State) : State :=
  match s.wiring with
  | .top => s.ciTransfer
  | .seAlone =>
    match s.coOffer with
    | some t => if s.coReady then s.coCommit t else s
    | none => s
  | .peAlone => s

/-- `n` EMIT steps, each as soon as the consumers accept; a step that is not enabled changes nothing (R105). -/
def State.emitSteps : Nat → State → State
  | 0, s => s
  | n + 1, s => State.emitSteps n (if s.se.st = .run then s.coTransfer else s)

/-- The EMIT steps of the chips of the symbol in progress that are still to come, where that symbol is `k` (R102 to
R104); nothing where it is another, or where no sequence is in progress. -/
def State.emitSymbol (s : State) (k : Sym) : State :=
  if s.se.st = .run ∧ s.kind = k then State.emitSteps (plen k - s.se.pos.toNat) s else s

/-- HOST drives `nf_data = w`, `nf_valid = 1` (R182). -/
def State.driveNf (s : State) (w : NfWord) : State := s.setPorts { s.ports with nfValid := true, nfData := w }

/-- The `nf` transfer, where HOST offers a word and `nf_ready` is 1; otherwise the offer waits (R101). -/
def State.nfTransfer (s : State) : State :=
  if s.nfReady && s.ports.nfValid then
    ((s.setSe (SE.latch s.ports.nfData)).logNf (.word s.ports.nfData)).setPorts { s.ports with nfValid := false }
  else s

/-- CHIPSRC drives `ci_tok = t`, `ci_valid = 1` (R188). -/
def State.driveCi (s : State) (t : ChipTok) : State := s.setPorts { s.ports with ciValid := true, ciTok := t }

/-- The transfer of token `t` on the chip link (R51, R74). With PE alone CHIPSRC offers it and PE takes it as soon as it
accepts, the offer waiting otherwise (no turn of TAP comes here then, log entry 9); where SE is the producer, `t` moves if
it is the token SE offers. -/
def State.moveToken (s : State) (t : ChipTok) : State :=
  match s.wiring with
  | .peAlone => (s.driveCi t).ciTransfer
  | .top => if s.coOffer = some t then s.coTransfer else s
  | .seAlone => if s.coOffer = some t then s.coTransfer else s

/-- PE.TRAIL where it is enabled: the trailer goes out and PE scans again (R148). -/
def State.sendTrailer (s : State) : State :=
  if s.pe.st = .trail ∧ s.ports.rst = false ∧ s.ports.poReady = true then
    (s.setPe s.pe.leaveTrail).logPulses [.pulse trailer]
  else s

/-! ### The fault and the return from it -/

/-- Taking `AccOverflow`: `PE.fault <- 1 ; PE.st <- P_FAULT`; "nothing else changes, nothing is saved anywhere else"
(R149, R234). -/
def State.raiseAccOverflow (s : State) : State := s.setPe { s.pe with fault := true, st := .fault }

/-- RESET, the only return from the fault (R235): all state takes its reset value (R30, R250), the ghost logs get a
RESET marker and pending offers are withdrawn (R252). -/
def State.takeReset (s : State) : State :=
  (((((s.setSe SE.atReset).setPe PE.atReset).logChip .cut).logPulses [.cut]).logNf .cut
    |>.setPorts { s.ports with nfValid := false, ciValid := false }).countReset

end Sys2Proof.Machine
end

