-- ==== Sys2Proof/Machine/PulseEncoder.lean ====
section
/-! DEFINITION. The meanings of the operations of PE (spec/41_pulse_encoder.md R142 to R150; spec/30_encoding.md R77, R78).
Each has the guard of its rule; an operation whose guard does not hold changes nothing (R150; DEDUCED, log entry 10,
safe). A don't-care bit of the selector decides nothing. -/

namespace Sys2Proof.Machine

/-- PE.FIRST (R142). -/
def execPeFirst (c _x : Bool) (s : State) : Host.Outcome State Fault Refusal :=
  if s.ciOffer = some (.chip c) ∧ s.pe.st = .scan ∧ s.pe.pv = false then
    .next (s.ciCommit (.chip c) (s.pe.first c) none)
  else .next s

/-- PE.SAME with a low run, or PE.OVF in its place (R143, R149, R233 item 4). -/
def execPeSame0 (s : State) : Host.Outcome State Fault Refusal :=
  if s.ciOffer = some (.chip false) ∧ s.pe.st = .scan ∧ s.pe.pv = true ∧ s.pe.pol = false then
    if accFits (s.pe.sum false) then .next (s.ciCommit (.chip false) (s.pe.same false) none)
    else .next s.raiseAccOverflow
  else .next s

/-- PE.SAME with a high run, or PE.OVF in its place (R143, R149, R233 item 4). -/
def execPeSame1 (s : State) : Host.Outcome State Fault Refusal :=
  if s.ciOffer = some (.chip true) ∧ s.pe.st = .scan ∧ s.pe.pv = true ∧ s.pe.pol = true then
    if accFits (s.pe.sum true) then .next (s.ciCommit (.chip true) (s.pe.same true) none)
    else .next s.raiseAccOverflow
  else .next s

/-- PE.FLIP, low → high (R144). -/
def execPeFlipUp (s : State) : Host.Outcome State Fault Refusal :=
  if s.ciOffer = some (.chip true) ∧ s.pe.st = .scan ∧ s.pe.pv = true ∧ s.pe.pol = false ∧ s.ports.poReady = true then
    .next (s.ciCommit (.chip true) (s.pe.flip true) (some ⟨s.pe.acc, false⟩))
  else .next s

/-- PE.FLIP, high → low (R144). -/
def execPeFlipDown (s : State) : Host.Outcome State Fault Refusal :=
  if s.ciOffer = some (.chip false) ∧ s.pe.st = .scan ∧ s.pe.pv = true ∧ s.pe.pol = true ∧ s.ports.poReady = true then
    .next (s.ciCommit (.chip false) (s.pe.flip false) (some ⟨s.pe.acc, false⟩))
  else .next s

/-- PE.FINISH_EMPTY (R145). -/
def execPeFinishEmpty (_x _y : Bool) (s : State) : Host.Outcome State Fault Refusal :=
  match s.ciOffer with
  | some (.fin b) =>
    if s.pe.st = .scan ∧ s.pe.pv = false ∧ s.ports.poReady = true then
      .next (s.ciCommit (.fin b) s.pe (some ⟨s.pe.acc, true⟩))
    else .next s
  | some (.chip _) => .next s
  | none => .next s

/-- PE.FINISH_LOW (R146). -/
def execPeFinishLow (_x : Bool) (s : State) : Host.Outcome State Fault Refusal :=
  match s.ciOffer with
  | some (.fin b) =>
    if s.pe.st = .scan ∧ s.pe.pv = true ∧ s.pe.pol = false ∧ s.ports.poReady = true then
      .next (s.ciCommit (.fin b) s.pe.finishLow (some ⟨s.pe.acc, true⟩))
    else .next s
  | some (.chip _) => .next s
  | none => .next s

/-- PE.FINISH_HIGH (R147). -/
def execPeFinishHigh (_x : Bool) (s : State) : Host.Outcome State Fault Refusal :=
  match s.ciOffer with
  | some (.fin b) =>
    if s.pe.st = .scan ∧ s.pe.pv = true ∧ s.pe.pol = true ∧ s.ports.poReady = true then
      .next (s.ciCommit (.fin b) s.pe.finishHigh (some ⟨s.pe.acc, false⟩))
    else .next s
  | some (.chip _) => .next s
  | none => .next s

/-- PE.TRAIL (R148). -/
def execPeTrail (_w _x _y _z : Bool) (s : State) : Host.Outcome State Fault Refusal := .next s.sendTrailer

/-- PE.OVF with a low run (R149): the token stays unconsumed. -/
def execPeOvf0 (s : State) : Host.Outcome State Fault Refusal :=
  if s.ciOffer = some (.chip false) ∧ s.pe.pol = false ∧ s.pe.overflowPending (.chip false) = true then
    .next s.raiseAccOverflow
  else .next s

/-- PE.OVF with a high run (R149): the token stays unconsumed. -/
def execPeOvf1 (s : State) : Host.Outcome State Fault Refusal :=
  if s.ciOffer = some (.chip true) ∧ s.pe.pol = true ∧ s.pe.overflowPending (.chip true) = true then
    .next s.raiseAccOverflow
  else .next s

/-- PE.HOLD_FAULT: "PE takes no step" until reset (R150, R234). -/
def execPeHoldFault (_w _x _y _z : Bool) (s : State) : Host.Outcome State Fault Refusal := .next s

/-- PE.RESERVED: "no step is enabled in such a state" (R78), so that the state does not change (R150). -/
def execPeReserved (_w _x _y _z : Bool) (s : State) : Host.Outcome State Fault Refusal := .next s

end Sys2Proof.Machine
end

