-- ==== Sys2Proof/Machine/SymbolEncoder.lean ====
section
/-! DEFINITION. The meanings of the operations of SE (spec/40_symbol_encoder.md R101, R105, R106; spec/30_encoding.md
R78). An operation whose guard does not hold changes nothing (R110; DEDUCED, log entry 10, safe). -/

namespace Sys2Proof.Machine

/-- SE.LOAD (R101). -/
def execSeLoad (s : State) : Host.Outcome State Fault Refusal := .next s.nfTransfer

/-- SE.EMIT (R105); in TOP the same atomic step as PE's and TAP's (R181). -/
def execSeEmit (s : State) : Host.Outcome State Fault Refusal :=
  if s.se.st = .run then .next s.coTransfer else .next s

/-- SE.ENDTOK (R106); in TOP the same atomic step as PE's and TAP's (R181). -/
def execSeEndtok (s : State) : Host.Outcome State Fault Refusal :=
  if s.se.st = .fin then .next s.coTransfer else .next s

/-- SE.RESERVED: "no step is enabled in such a state" (R78), so that the state does not change (R110). -/
def execSeReserved (s : State) : Host.Outcome State Fault Refusal := .next s

end Sys2Proof.Machine
end

