-- ==== Sys2Proof/Machine/Symbols.lean ====
section
/-! DEFINITION. The meanings of the three symbols: "Expansion: nine EMIT steps output …" (spec/40_symbol_encoder.md R102
to R104). A symbol stands for the EMIT steps of its chips, taken one after another while the consumers accept (DESIGN
CHOICE, log entry 7, unsafe for a claim that counts steps). -/

namespace Sys2Proof.Machine

/-- SYNC (R102). -/
def execSync (s : State) : Host.Outcome State Fault Refusal := .next (s.emitSymbol .sync)

/-- BIT0 (R103). -/
def execBit0 (s : State) : Host.Outcome State Fault Refusal := .next (s.emitSymbol .bit0)

/-- BIT1 (R104). -/
def execBit1 (s : State) : Host.Outcome State Fault Refusal := .next (s.emitSymbol .bit1)

end Sys2Proof.Machine
end

