-- ==== Sys2Proof/Machine/Tokens.lean ====
section
/-! DEFINITION. The meanings of the stream words and tokens: a token stands for its transfer on its stream, atomic
between the producer and every consumer (spec/20_memory.md R51; spec/30_encoding.md R71, R74, R75; DESIGN CHOICE, log
entry 7, safe as to the states reached). -/

namespace Sys2Proof.Machine

/-- NFW: HOST offers `w` on `nf` and SE latches it if it is idle; otherwise the offer waits (R71, R101, R182). -/
def execNfw (w : BitVec 36) (s : State) : Host.Outcome State Fault Refusal := .next (s.driveNf w).nfTransfer

/-- CHIP0 on the chip link (R74). -/
def execChip0 (s : State) : Host.Outcome State Fault Refusal := .next (s.moveToken (.chip false))

/-- CHIP1 on the chip link (R74). -/
def execChip1 (s : State) : Host.Outcome State Fault Refusal := .next (s.moveToken (.chip true))

/-- END on the chip link, canonical or not (R74, R78). -/
def execEndTok (x : Bool) (s : State) : Host.Outcome State Fault Refusal := .next (s.moveToken (.fin x))

/-- PULSE on `po`: where PE offers exactly this token and SINK accepts, the PE operation that emits it happens (R75,
R150); otherwise nothing moves. -/
def execPulse (last : Bool) (data : BitVec 32) (s : State) : Host.Outcome State Fault Refusal :=
  if s.poValid = true ∧ s.ports.poReady = true ∧ s.poData = data ∧ s.poLast = last then
    .next (if s.pe.st = .trail then s.sendTrailer else s.ciTransfer)
  else .next s

end Sys2Proof.Machine
end

