-- ==== Sys2Proof/Machine/Top.lean ====
section
/-! DEFINITION. The meanings of the operations of TOP and of the host (spec/42_top_and_host.md R181 to R183). -/

namespace Sys2Proof.Machine

/-- FORK: in TOP, where SE offers a token, PE accepts it and TAP accepts it, one atomic step moves it to both (R181). -/
def execFork (s : State) : Host.Outcome State Fault Refusal :=
  if s.wiring = .top ∧ s.coValid = true ∧ s.ciReady = true ∧ s.ports.tapReady = true then .next s.coTransfer
  else .next s

/-- OFFER: HOST drives `nf_data = w`, `nf_valid = 1` (R182). -/
def execOffer (w : BitVec 36) (s : State) : Host.Outcome State Fault Refusal := .next (s.driveNf w)

/-- RESET, enabled in every state (R183, R250). -/
def execReset (s : State) : Host.Outcome State Fault Refusal := .next s.takeReset

end Sys2Proof.Machine
end

