-- ==== Sys2Proof/Machine/Dispatch.lean ====
section
/-! DEFINITION. The dispatch: one arm per constructor of Instr, each one call of that row's meaning. -/

namespace Sys2Proof.Machine

def exec (i : Instr) (s : State) : Host.Outcome State Fault Refusal :=
  match i with
  | .sync => Sys2Proof.Machine.execSync s
  | .bit0 => Sys2Proof.Machine.execBit0 s
  | .bit1 => Sys2Proof.Machine.execBit1 s
  | .nfw w => Sys2Proof.Machine.execNfw w s
  | .chip0 => Sys2Proof.Machine.execChip0 s
  | .chip1 => Sys2Proof.Machine.execChip1 s
  | .endTok x => Sys2Proof.Machine.execEndTok x s
  | .pulse last data => Sys2Proof.Machine.execPulse last data s
  | .seLoad => Sys2Proof.Machine.execSeLoad s
  | .seEmit => Sys2Proof.Machine.execSeEmit s
  | .seEndtok => Sys2Proof.Machine.execSeEndtok s
  | .seReserved => Sys2Proof.Machine.execSeReserved s
  | .peFirst c x => Sys2Proof.Machine.execPeFirst c x s
  | .peSame0 => Sys2Proof.Machine.execPeSame0 s
  | .peSame1 => Sys2Proof.Machine.execPeSame1 s
  | .peFlipUp => Sys2Proof.Machine.execPeFlipUp s
  | .peFlipDown => Sys2Proof.Machine.execPeFlipDown s
  | .peFinishEmpty x y => Sys2Proof.Machine.execPeFinishEmpty x y s
  | .peFinishLow x => Sys2Proof.Machine.execPeFinishLow x s
  | .peFinishHigh x => Sys2Proof.Machine.execPeFinishHigh x s
  | .peTrail w x y z => Sys2Proof.Machine.execPeTrail w x y z s
  | .peOvf0 => Sys2Proof.Machine.execPeOvf0 s
  | .peOvf1 => Sys2Proof.Machine.execPeOvf1 s
  | .peHoldFault w x y z => Sys2Proof.Machine.execPeHoldFault w x y z s
  | .peReserved w x y z => Sys2Proof.Machine.execPeReserved w x y z s
  | .fork => Sys2Proof.Machine.execFork s
  | .offer w => Sys2Proof.Machine.execOffer w s
  | .reset => Sys2Proof.Machine.execReset s

end Sys2Proof.Machine
end

