-- ==== Sys2Proof/Machine/Fetch.lean ====
section
/-! DEFINITION. What a turn runs. WSS-ENC fetches nothing from a memory (spec/20_memory.md R50): the operation of a step
is selected by registers and wires (spec/30_encoding.md R76, R77; spec/42_top_and_host.md R181 to R183). This file reads
each selector from the state, and puts a given coded word where it is read. -/

namespace Sys2Proof.Machine

/-- The wires of a turn are driven, and the turn is taken off the schedule. -/
def State.beginTurn (s : State) (t : Turn) (rest : List Turn) : State :=
  (s.setPorts { s.ports with rst := t.rst, tapReady := t.tapReady, poReady := t.poReady, coReady := t.coReady }).setTurns
    rest

/-- PSEL (R77): none while PE scans and no token is offered. Where the operation consumes no token the bits `end` and
`chip` are "meaningless" and decide nothing. -/
def State.pselCode (s : State) : Option Code :=
  match s.ciOffer with
  | some t =>
    some (.psel (bits6 s.pe.st.bit1 s.pe.st.bit0 (t.toBits.getLsbD 1) (t.toBits.getLsbD 0) s.pe.pv s.pe.pol)
      (s.pe.overflowPending t))
  | none =>
    if s.pe.st = .scan then none
    else some (.psel (bits6 s.pe.st.bit1 s.pe.st.bit0 false false s.pe.pv s.pe.pol) false)

/-- The coded word that selects the operation of a turn of `m`. RESET overrides every other step (R233 item 1). An agent
of the chip link that the composition does not have takes no step: TAP and the consumer of `co` with PE alone, CHIPSRC
elsewhere, the fork outside TOP. HOST and SE keep their steps on `nf` with PE alone, PE and SINK theirs on `po` with SE
alone, although R51 uses those ports elsewhere only (DESIGN CHOICE, log entry 9, unsafe for a claim about the unit that is
not modelled there). -/
def State.fetch (s : State) (m : Mover) : Option Code :=
  if s.ports.rst then some (.rst 1#1)
  else
    match m with
    | .se => some (.ssel s.se.st.toBits)
    | .pe => s.pselCode
    | .fork => if s.wiring = .top then some (.forksel (bits3 s.coValid s.ciReady s.ports.tapReady)) else none
    | .symbol => if s.se.st = .run then some (.sym (pattern s.kind)) else none
    | .tap => if s.wiring = .peAlone then none else s.coOffer.map fun t => .ctok t.toBits
    | .sink => if s.poValid then some (.ptok (Pulse.toBits ⟨s.poData, s.poLast⟩)) else none
    | .hostPort w => some (.nfport w)
    | .hostWord w => some (.nfw w)
    | .chipsrc w => if s.wiring = .peAlone then some (.ctok w) else none

/-- One turn: the selected operation happens; where nothing is selected, or the word selects no operation, no step is
enabled and nothing changes (R110, R150). -/
def State.runTurn (s : State) (m : Mover) : Host.Outcome State Fault Refusal :=
  match s.fetch m with
  | none => .next s
  | some c =>
    match decode c with
    | .ok i => exec i s
    | .error _ => .next s

/-- One step of the schedule; "an idle unit simply has no enabled step" (R238) where the schedule is empty. -/
def State.runNext (s : State) : Host.Outcome State Fault Refusal :=
  match s.turns with
  | [] => .next s
  | t :: rest => (s.beginTurn t rest).runTurn t.mover

/-! ### Placing a coded word where the next step reads it -/

/-- A turn of `m` in which every consumer accepts. -/
def Turn.ready (m : Mover) : Turn := ⟨m, false, true, true, true⟩

/-- A turn of `m` put in front of the schedule. -/
def State.pushTurn (s : State) (t : Turn) : State := s.setTurns (t :: s.turns)

/-- SE's control state set to the bits of an SSEL word; with the further guard of LOAD's row, an offer on `nf`. -/
def State.placeSsel (s : State) (w : BitVec 2) : State :=
  ((s.setSe { s.se with st := SeSt.ofBits w }).setPorts
    { s.ports with nfValid := s.ports.nfValid || w == 0b00#2 }).pushTurn (.ready .se)

/-- PE alone, its control state and flags and the offered token set to the bits of a PSEL word; the accumulator moves
only where it stands on the wrong side of the arithmetic condition. -/
def State.placePsel (s : State) (w : BitVec 6) (overflow : Bool) : State :=
  let c := w.getLsbD 2
  let t : ChipTok := ChipTok.ofBits (bits2 (w.getLsbD 3) c)
  let p : PE := { s.pe with
    st := PeSt.ofBits (w.getLsbD 5) (w.getLsbD 4), pv := w.getLsbD 1, pol := w.getLsbD 0 }
  let a : AccWord := if overflow then accOf (if c then Config.accMax else Config.accMin) else 0
  let p' : PE := if p.overflowPending t = overflow then p else { p with acc := a }
  (({ s with wiring := .peAlone }.setPe p').setPorts { s.ports with ciValid := true, ciTok := t }).pushTurn (.ready .pe)

/-- TOP with a token offered by SE and PE ready for it: `FORKSEL = 0b111`. -/
def State.placeFork (s : State) : State :=
  (({ s with wiring := .top }.setSe { s.se with st := .run, rep := 0, sym := 0, pos := 0 }).setPe PE.atReset).pushTurn
    (.ready .fork)

/-- SE at the first chip of the sync pattern, or at the first chip of a frame's first bit symbol. For a bit symbol NF is
made to hold a word: the stored 36 bits, frame bit 0 set or cleared as the symbol needs, with `nfHeld` true, as if a LOAD
had latched it. After reset the other 35 bits are the model's zeros, and the EMITs that follow read them (DESIGN CHOICE, log
entries 1 and 8, unsafe for a claim that names the symbols after the placed one). -/
def State.placeSym (s : State) (chips : List Bool) : State :=
  if chips = Config.syncPat then
    (s.setSe { s.se with st := .run, rep := 0, sym := 0, pos := 0 }).pushTurn (.ready .symbol)
  else
    let nf : NfWord := if chips = Config.bit1Pat then s.se.nf ||| (1#36 <<< 35) else s.se.nf &&& ~~~(1#36 <<< 35)
    (s.setSe { s.se with st := .run, rep := 0, sym := 1, pos := 0, nf := nf, nfHeld := true }).pushTurn (.ready .symbol)

/-- PE alone with END offered and a run in progress whose flush is the given pulse token. -/
def State.placePtok (s : State) (p : Pulse) : State :=
  (({ s with wiring := .peAlone }.setPe ⟨.scan, p.data, !p.last, true, false⟩).setPorts
    { s.ports with ciValid := true, ciTok := .fin false }).pushTurn (.ready .sink)

/-- `s` with a coded word where the next step reads it. -/
def State.place (s : State) : Code → State
  | .sym chips => s.placeSym chips
  | .nfw w => s.pushTurn (.ready (.hostWord w))
  | .ctok w => { s with wiring := .peAlone }.pushTurn (.ready (.chipsrc w))
  | .ptok w => s.placePtok (Pulse.ofBits w)
  | .ssel w => s.placeSsel w
  | .psel w overflow => s.placePsel w overflow
  | .forksel _ => s.placeFork
  | .nfport w => s.pushTurn (.ready (.hostPort w))
  | .rst w => s.pushTurn { Turn.ready .fork with rst := w == 1#1 }

/-- `s` with a word of the opcode table where the next step reads it. -/
def State.placeTableWord (s : State) (nbits w : Nat) : State :=
  match tableCode nbits w with
  | some c => s.place c
  | none => s

end Sys2Proof.Machine
end

