-- ==== Sys2Proof/Machine/Reference.lean ====
section
/-! DEFINITION. What the two units compute, as pure functions (spec/40_symbol_encoder.md R100, spec/41_pulse_encoder.md
R140, the pseudo-operations of spec/30_encoding.md R80), and the source's artifacts read off the ghost logs
(spec/20_memory.md R60). No step of the machine uses them; statements compare the machine with them. -/

namespace Sys2Proof.Machine

/-! ### The ChipSequence -/

/-- `bits(nf)`: the 36 bits in the order of transmission (R100). -/
def frameBits (w : NfWord) : List Bool := (List.range Config.nbits).map (frameBit w)

/-- `symbols(NFW)`: the sync pattern, then one bit symbol per bit (R80). -/
def symbols (w : NfWord) : List Sym := .sync :: (frameBits w).map bitSym

/-- The chips of a list of symbols. -/
def chipsOf (ks : List Sym) : List Bool := ks.flatMap pattern

/-- `frame(NFW)` (R80, R100). -/
def frame (w : NfWord) : List Bool := chipsOf (symbols w)

/-- `chipseq(NFW) = frame(NFW) * REPEAT` (R80, R100). -/
def chipseq (w : NfWord) : List Bool := (List.replicate Config.repeatCount (frame w)).flatten

/-- The chips of `chipseq(NFW)` before the sequencer position `(rep, sym, pos)` (R82). -/
def chipsBefore (w : NfWord) (rep sym pos : Nat) : List Bool :=
  (List.replicate rep (frame w)).flatten ++
    (chipsOf ((symbols w).take sym) ++ (pattern (symKind (BitVec.ofNat 6 sym) w)).take pos)

/-! ### The PulseList -/

/-- The variables of the scan of R140. -/
structure Scan where
  acc : Int
  pv : Bool
  pol : Bool
  out : List Int
deriving DecidableEq, Repr

/-- The scan before the first chip (R140). -/
def Scan.start : Scan := ⟨0, false, false, []⟩

/-- One chip of the scan: flush on a polarity change, then add (R140). -/
def Scan.chip (k : Scan) (c : Bool) : Scan :=
  if k.pv && c != k.pol then ⟨delta c, true, c, k.out ++ [k.acc]⟩ else ⟨k.acc + delta c, true, c, k.out⟩

/-- The end of the scan: the final flush, then the trailer after a high chip (R140). -/
def Scan.finish (k : Scan) : List Int :=
  (k.out ++ [k.acc]) ++ (if k.pv && k.pol then [-Config.zeroLen] else [])

/-- The scan of a chip list (R140). -/
def scanChips (chips : List Bool) : Scan := chips.foldl Scan.chip Scan.start

/-- `rle(chips)` (R140). -/
def rle (chips : List Bool) : List Int := (scanChips chips).finish

/-- A chip list cut into its maximal runs of equal chips, each as its chip and its length (R140). -/
def chipRuns : List Bool → List (Bool × Nat)
  | [] => []
  | c :: cs =>
    match chipRuns cs with
    | (d, k) :: rest => if c = d then (d, k + 1) :: rest else (c, 1) :: (d, k) :: rest
    | [] => [(c, 1)]

/-- The entry of a run: `+k * ONE_LEN` or `-k * ZERO_LEN` (R140). -/
def runEntry (r : Bool × Nat) : Int := if r.1 then r.2 * Config.oneLen else -(r.2 * Config.zeroLen)

/-- The second form R140 gives: the runs' entries, the trailer after a high run, and `[0]` for the empty list. -/
def rleByRuns (chips : List Bool) : List Int :=
  match chips with
  | [] => [0]
  | _ => (chipRuns chips).map runEntry ++ (if chips.getLast? = some true then [-Config.zeroLen] else [])

/-! ### The artifacts of the logs -/

/-- The lists read off a log (R60): those completed in each period that a RESET marker has ended, those completed since
the last marker, and the list in progress. How lists of different logs pair up across a marker is the model's choice
(DESIGN CHOICE, log entry 24, safe): period by period, in order. -/
structure Artifacts (α : Type) where
  past : List (List (List α))
  done : List (List α)
  part : List α
deriving DecidableEq, Repr

/-- Every completed list, numbered as R60 numbers them: by the delimiters of the whole log. -/
def Artifacts.all {α : Type} (a : Artifacts α) : List (List α) := a.past.flatten ++ a.done

/-- An END or a `last = 1` completes the list in progress (R60). -/
def Artifacts.complete {α : Type} (a : Artifacts α) (l : List α) : Artifacts α := ⟨a.past, a.done ++ [l], []⟩

/-- A RESET marker ends the period: what is completed stays, the list in progress is dropped (R60, R252). -/
def Artifacts.cut {α : Type} (a : Artifacts α) : Artifacts α := ⟨a.past ++ [a.done], [], []⟩

/-- One entry of `ChipLog`: END completes a ChipSequence, a reset cuts (R60). -/
def Artifacts.chip (a : Artifacts Bool) : ChipEvent → Artifacts Bool
  | .tok (.chip c) => { a with part := a.part ++ [c] }
  | .tok (.fin _) => a.complete a.part
  | .cut => a.cut

/-- One entry of `PulseLog`: an entry with `last = 1` completes a PulseList, itself included; a reset cuts (R60, R252). -/
def Artifacts.pulse (a : Artifacts Int) : PulseEvent → Artifacts Int
  | .pulse p => if p.last then a.complete (a.part ++ [p.data.toInt]) else { a with part := a.part ++ [p.data.toInt] }
  | .cut => a.cut

/-- The ChipSequences of a `ChipLog` (R60). -/
def chipArtifacts (log : List ChipEvent) : Artifacts Bool := log.foldl Artifacts.chip ⟨[], [], []⟩

/-- The PulseLists of a `PulseLog` (R60). -/
def pulseArtifacts (log : List PulseEvent) : Artifacts Int := log.foldl Artifacts.pulse ⟨[], [], []⟩

/-- Is the entry an END token? -/
def ChipEvent.isEnd : ChipEvent → Bool
  | .tok (.fin _) => true
  | .tok (.chip _) => false
  | .cut => false

/-- Is the entry a pulse token with `last = 1`? -/
def PulseEvent.isLast : PulseEvent → Bool
  | .pulse p => p.last
  | .cut => false

/-- The latched words (R60): those of each period that a RESET marker has ended, and those since the last marker (log
entries 15 and 24). -/
structure Latched where
  past : List (List NfWord)
  now : List NfWord
deriving DecidableEq, Repr

/-- One entry of `NfLog`. -/
def Latched.add (l : Latched) : NfEvent → Latched
  | .word w => { l with now := l.now ++ [w] }
  | .cut => ⟨l.past ++ [l.now], []⟩

/-- The words of an `NfLog`, period by period. -/
def latched (log : List NfEvent) : Latched := log.foldl Latched.add ⟨[], []⟩

end Sys2Proof.Machine
end

