-- ==== Sys2Proof/Safety.lean ====
section
/-! DEFINITION. What holds of the states a run from reset reaches: the invariants of spec/10_state.md R32, their
consequences in TOP, the agreement of the logs with the pure functions, and the quiescent state at the end of a run
(spec/42_top_and_host.md R185). -/

namespace Sys2Proof.Machine

/-- The state after a token `t` has moved on the chip link to PE, every field spelled out: PE's registers become `p`, the
pulses `out` go out on `po`, both logs grow, SE moves on in TOP (R181), CHIPSRC's offer ends with PE alone (R188), and
nothing else changes. -/
def State.moved (s : State) (t : ChipTok) (p : PE) (out : List Pulse) : State :=
  { s with
    pe := p
    chipLog := s.chipLog ++ [.tok t]
    pulseLog := s.pulseLog ++ out.map .pulse
    se := if s.wiring = .top then s.seAfter else s.se
    ports := if s.wiring = .peAlone then { s.ports with ciValid := false } else s.ports }

/-- SE's position after a symbol that began at its first chip (R105 cases (b) to (d)). -/
def SE.afterSymbol (se : SE) : SE :=
  if se.sym.toNat < 36 then { se with pos := 0, sym := se.sym + 1 }
  else if se.rep.toNat + 1 < 12 then { se with pos := 0, sym := 0, rep := se.rep + 1 }
  else { se with pos := 0, sym := 0, rep := 0, st := .fin }

/-- The row of a symbol. -/
def symInstr : Sym → Instr
  | .sync => .sync
  | .bit0 => .bit0
  | .bit1 => .bit1

/-- The row of a chip token. -/
def tokInstr : ChipTok → Instr
  | .chip false => .chip0
  | .chip true => .chip1
  | .fin x => .endTok x

/-- PE's selector in the state `s` stands for the row `i` (R77). -/
def State.selects (s : State) (i : Instr) : Prop := ∃ c, s.pselCode = some c ∧ decode c = .ok i

/-- `n` chip-link transfers of TOP, one after another. -/
def forks : Nat → State → Host.Outcome State Fault Refusal
  | 0, s => .next s
  | n + 1, s =>
    match exec .fork s with
    | .next t => forks n t
    | .fault r => .fault r
    | .refused r => .refused r

/-- A PulseList as the entries of `PulseLog`, `last = 1` on the final one and only there (R60, R75). -/
def pulseEvents : List Int → List PulseEvent
  | [] => []
  | [v] => [.pulse ⟨accOf v, true⟩]
  | v :: vs => .pulse ⟨accOf v, false⟩ :: pulseEvents vs

/-- Invariants of SE: R32 items 1 to 3, and R21's "no step reads it before a LOAD has written it". -/
structure SeInv (s : State) : Prop where
  quiet : s.se.st ≠ .run → s.se.rep = 0 ∧ s.se.sym = 0 ∧ s.se.pos = 0
  range : s.se.st = .run → s.seqInRange = true
  legal : s.se.st ≠ .reserved
  held : s.se.st ≠ .idle → s.se.nfHeld = true

/-- Invariants of PE: R32 items 3 to 7; item 5's "for some k >= 1" is written as sign and divisibility. -/
structure PeInv (p : PE) : Prop where
  legal : p.st ≠ .reserved
  noRun : p.pv = false → p.acc = 0 ∧ p.pol = false
  high : p.pv = true → p.pol = true → 0 < p.acc.toInt ∧ p.acc.toInt % Config.oneLen = 0
  low : p.pv = true → p.pol = false → p.acc.toInt < 0 ∧ p.acc.toInt % Config.zeroLen = 0
  trail : p.st = .trail → p.pv = false
  fault : p.st = .fault ↔ p.fault = true

/-- The invariants of R32. -/
structure Inv (s : State) : Prop where
  se : SeInv s
  pe : PeInv s.pe

/-- In TOP: PE scans, no fault is recorded, and the run in progress in PE is the one SE's position tells (R111, R149,
R181). -/
structure TopInv (s : State) : Prop where
  top : s.wiring = .top
  inv : Inv s
  scan : s.pe.st = .scan
  idle : s.se.st = .idle → s.pe.pv = false
  fin : s.se.st = .fin → s.pe.pv = true ∧ s.pe.pol = false
  first : s.se.st = .run → s.se.rep = 0 → s.se.sym = 0 → s.se.pos = 0 → s.pe.pv = false
  head : s.se.st = .run → s.se.pos = 0 → ¬(s.se.rep = 0 ∧ s.se.sym = 0) →
    s.pe.pv = true ∧ s.pe.pol = false ∧ -4000 ≤ s.pe.acc.toInt
  second : s.se.st = .run → s.se.pos = 1 → s.pe.pv = true ∧ s.pe.pol = true ∧ s.pe.acc.toInt = 500
  later : s.se.st = .run → 2 ≤ s.se.pos.toNat →
    s.pe.pv = true ∧ s.pe.pol = false ∧ s.pe.acc.toInt = -500 * ((s.se.pos.toNat : Int) - 1)

/-- The lists completed in a period are `f` of the first ones there of `xs`: what a reset cut has no list. -/
def CompletedOf {α β : Type} (f : α → β) (done : List β) (xs : List α) : Prop := done = (xs.take done.length).map f

/-- The ChipLog against `chipseq`, where SE drives the chip link (R60, R112): in each period that a reset has ended, and in
the one in progress. -/
structure ChipInv (s : State) : Prop where
  linked : s.wiring ≠ .peAlone
  inv : Inv s
  past : List.Forall₂ (CompletedOf chipseq) (chipArtifacts s.chipLog).past (latched s.nfLog).past
  idle : s.se.st = .idle → (chipArtifacts s.chipLog).part = [] ∧
    (chipArtifacts s.chipLog).done = (latched s.nfLog).now.map chipseq
  run : s.se.st = .run →
    (chipArtifacts s.chipLog).part = chipsBefore s.se.nf s.se.rep.toNat s.se.sym.toNat s.se.pos.toNat
  fin : s.se.st = .fin → (chipArtifacts s.chipLog).part = chipseq s.se.nf
  words : s.se.st ≠ .idle → ∃ ws, (latched s.nfLog).now = ws ++ [s.se.nf] ∧
    (chipArtifacts s.chipLog).done = ws.map chipseq

/-- The PulseLog against `rle`, where PE is on the chip link (R60, R158): in each period that a reset has ended, and in the
one in progress. In `P_TRAIL` the last list lacks its trailer; in `P_FAULT` what was emitted is still what the scan emits
(R234). -/
structure PulseInv (s : State) : Prop where
  linked : s.wiring ≠ .seAlone
  inv : Inv s
  past : List.Forall₂ (CompletedOf rle) (pulseArtifacts s.pulseLog).past (chipArtifacts s.chipLog).past
  scan : s.pe.st ≠ .trail →
    scanChips (chipArtifacts s.chipLog).part =
        ⟨s.pe.acc.toInt, s.pe.pv, s.pe.pol, (pulseArtifacts s.pulseLog).part⟩ ∧
      (pulseArtifacts s.pulseLog).done = (chipArtifacts s.chipLog).done.map rle
  trail : s.pe.st = .trail → (chipArtifacts s.chipLog).part = [] ∧
    (pulseArtifacts s.pulseLog).done ++ [(pulseArtifacts s.pulseLog).part ++ [-Config.zeroLen]] =
      (chipArtifacts s.chipLog).done.map rle

/-- The state at the end of a run (R185): both units at their reset values but for `SE.NF`, all three status outputs 0. -/
structure RunEnded (s : State) : Prop where
  seIdle : s.se.st = .idle
  rep : s.se.rep = 0
  sym : s.se.sym = 0
  pos : s.se.pos = 0
  pe : s.pe = PE.atReset
  seBusy : s.seBusy = false
  peBusy : s.peBusy = false
  peFault : s.peFault = false

end Sys2Proof.Machine
end

