-- ==== Sys2Proof/Certificates/Slice0/Obligations.lean ====
section
/-! DEFINITION. The statements about the model, each from the rules of spec/ that its docstring names. -/

open Sys2Proof Sys2Proof.Machine

/-! ### Reset, the fault, the step -/

/-- R30: after RESET every state element has its reset value, and the ghost lists keep their contents. R252 puts the
marker into ChipLog and PulseLog; the one in NfLog is the model's choice (log entry 15). `SE.NF` holds no value: nothing is
said of its word. The last line frames the model's own fields (log entries 5, 8, 9): the offers on the ports are withdrawn,
as R252 says, and nothing else of them changes. -/
def Obligations.ResetLoadsEveryResetValue : Prop :=
  ∀ s : State, ∃ t, exec .reset s = .next t ∧
    t.se.st = .idle ∧ t.se.nfHeld = false ∧ t.se.rep = 0 ∧ t.se.sym = 0 ∧ t.se.pos = 0 ∧
    t.pe.st = .scan ∧ t.pe.acc = 0 ∧ t.pe.pv = false ∧ t.pe.pol = false ∧ t.pe.fault = false ∧
    t.seBusy = false ∧ t.peBusy = false ∧ t.peFault = false ∧
    t.chipLog = s.chipLog ++ [.cut] ∧ t.pulseLog = s.pulseLog ++ [.cut] ∧ t.nfLog = s.nfLog ++ [.cut] ∧
    t.ports = { s.ports with nfValid := false, ciValid := false } ∧ t.wiring = s.wiring ∧ t.turns = s.turns

/-- R30, R251: State.reset, the machine right after its first reset (log entry 19; R250 gives no value before it), holds
the same values. That its logs are empty (log entry 19) and its schedule is (log entry 8) is the model's choice. -/
def Obligations.StateAfterResetHoldsResetValues : Prop :=
  State.reset.se.st = .idle ∧ State.reset.se.nfHeld = false ∧ State.reset.se.rep = 0 ∧ State.reset.se.sym = 0 ∧
    State.reset.se.pos = 0 ∧ State.reset.pe = ⟨.scan, 0, false, false, false⟩ ∧ State.reset.seBusy = false ∧
    State.reset.peBusy = false ∧ State.reset.peFault = false ∧ State.reset.chipLog = [] ∧
    State.reset.pulseLog = [] ∧ State.reset.nfLog = [] ∧ State.reset.turns = []

/-- R233 item 1, R250: where `rst` is asserted the step is RESET, whoever's turn it is. -/
def Obligations.ResetOverridesEveryTurn : Prop :=
  ∀ (s : State) (turn : Turn) (rest : List Turn), s.turns = turn :: rest → turn.rst = true →
    step s = exec .reset (s.beginTurn turn rest)

/-- R235, R234: in `P_FAULT` nothing but RESET changes PE; no pulse goes out, and where PE is on the chip link no chip
token moves. -/
def Obligations.OnlyResetLeavesTheFault : Prop :=
  ∀ (i : Instr) (s t : State), s.pe.st = .fault → i ≠ .reset → exec i s = .next t →
    t.pe = s.pe ∧ t.pulseLog = s.pulseLog ∧ (s.wiring ≠ .seAlone → t.chipLog = s.chipLog)

/-- R149, R234: where the next chip of the run would leave the accumulator's range, the selector stands for PE.OVF, which
records the fault, and nothing else changes; the row of SAME, whose place it takes, does the same. -/
def Obligations.OverflowRecordsTheFault : Prop :=
  ∀ (s : State) (c : Bool), s.ciOffer = some (.chip c) → s.pe.st = .scan → s.pe.pv = true → s.pe.pol = c →
    (s.pe.acc.toInt + (if c then 500 else -500) > 2147483647 ∨
      s.pe.acc.toInt + (if c then 500 else -500) < -2147483648) →
    s.selects (if c then .peOvf1 else .peOvf0) ∧
      exec (if c then .peOvf1 else .peOvf0) s = .next { s with pe := { s.pe with fault := true, st := .fault } } ∧
      exec (if c then .peSame1 else .peSame0) s = .next { s with pe := { s.pe with fault := true, st := .fault } }

/-- R149, R231: the longest run that fits has 4,294,967 chips, high or low. -/
def Obligations.LongestRunThatFits : Prop :=
  ∀ k : Nat, (accFits (500 * k) = true ↔ k ≤ 4294967) ∧ (accFits (-(500 * k)) = true ↔ k ≤ 4294967)

/-- A step runs the decoded instruction: where a turn's selector decodes to `i`, the step is `exec i` in the state in
which the turn's wires are driven and the turn is off the schedule. -/
def Obligations.StepRunsTheDecodedInstruction : Prop :=
  ∀ (s : State) (turn : Turn) (rest : List Turn) (c : Code) (i : Instr), s.turns = turn :: rest →
    (s.beginTurn turn rest).fetch turn.mover = some c → decode c = .ok i →
    step s = exec i (s.beginTurn turn rest) ∧
      s.beginTurn turn rest = { s with
        turns := rest
        ports := { s.ports with
          rst := turn.rst, tapReady := turn.tapReady, poReady := turn.poReady, coReady := turn.coReady } }

/-- R238, R110, R150: a step never stops, the one fault being a next state that records it (R234; the model's reading, log
entry 12, DEDUCED); where the schedule is empty (the schedule is the model's choice, log entry 8), where the turn's agent
reads no selector, or where the word it reads selects no operation (`FORKSEL` other than `0b111`, `nf_valid = 0`), the
state is unchanged but for the turn's wires (log entry 10, DEDUCED). -/
def Obligations.StepNeverStops : Prop :=
  (∀ s : State, ∃ t, step s = .next t) ∧ (∀ s : State, s.turns = [] → step s = .next s) ∧
    (∀ (s : State) (turn : Turn) (rest : List Turn), s.turns = turn :: rest →
      (s.beginTurn turn rest).fetch turn.mover = none → step s = .next (s.beginTurn turn rest)) ∧
    ∀ (s : State) (turn : Turn) (rest : List Turn) (c : Code) (e : Reject), s.turns = turn :: rest →
      (s.beginTurn turn rest).fetch turn.mover = some c → decode c = .error e → step s = .next (s.beginTurn turn rest)

/-- R250, R233 item 1: while `rst` is asserted the units hold: no ready or valid wire of theirs is 1, and no instruction
but RESET changes a register of theirs or a log. -/
def Obligations.UnitsHoldDuringReset : Prop :=
  ∀ s : State, s.ports.rst = true →
    s.nfReady = false ∧ s.coValid = false ∧ s.tapValid = false ∧ s.poValid = false ∧
      ∀ (i : Instr) (t : State), i ≠ .reset → exec i s = .next t →
        t.se = s.se ∧ t.pe = s.pe ∧ t.chipLog = s.chipLog ∧ t.pulseLog = s.pulseLog ∧ t.nfLog = s.nfLog

/-- R28, R231: the three status wires, and the one fault of R231 with its code; that the state records it where `pe_fault`
is 1, and no step answers it, is the model's reading (log entry 12, DEDUCED). -/
def Obligations.StatusWires : Prop :=
  ∀ s : State, (s.seBusy = true ↔ s.se.st ≠ .idle) ∧ (s.peBusy = true ↔ s.pe.pv = true ∨ s.pe.st = .trail) ∧
    (s.peFault = true ↔ s.pe.fault = true) ∧ (s.recordedFault = some .accOverflow ↔ s.peFault = true) ∧
    faultCode .accOverflow = 1

/-! ### The Symbol Encoder -/

/-- R110: SE's output wires as functions of its state, inside the sequencer's ranges; nothing is said of `co_tok` in
`S_IDLE`. Outside the ranges, and in the reserved state, R78 enables no step, and both `nf_ready` and `co_valid` are 0 (log
entry 6, DEDUCED). `co_tok` is R110's function of the state during reset too, and whatever `rep` is, wherever `sym` and
`pos` stand at a chip of a symbol. -/
def Obligations.SeOutputWires : Prop :=
  (∀ s : State, s.se.st = .run → s.se.sym.toNat ≤ 36 → s.se.pos.toNat < plen s.kind →
    s.coTok = bits2 false (pchip s.kind s.se.pos.toNat)) ∧
  (∀ s : State, s.se.st = .fin → s.coTok = 0b10#2) ∧
  ∀ s : State, s.ports.rst = false →
    (s.se.st = .idle → s.seqInRange = true → s.nfReady = true ∧ s.coValid = false) ∧
    (s.se.st = .run → s.seqInRange = true →
      s.nfReady = false ∧ s.coValid = true ∧ s.coTok = bits2 false (pchip s.kind s.se.pos.toNat)) ∧
    (s.se.st = .fin → s.seqInRange = true → s.nfReady = false ∧ s.coValid = true ∧ s.coTok = 0b10#2) ∧
    (s.se.st = .reserved ∨ s.seqInRange = false → s.nfReady = false ∧ s.coValid = false)

/-- R72: the symbol→chip table. -/
def Obligations.SymbolTableIsTheSpecs : Prop :=
  pattern .sync = [true, false, false, false, false, false, false, false, false] ∧
    pattern .bit0 = [true, false, false] ∧ pattern .bit1 = [true, false, false, false, false] ∧
    plen .sync = 9 ∧ plen .bit0 = 3 ∧ plen .bit1 = 5 ∧
    ∀ k : Sym, pchip k 0 = true ∧ ∀ p, 1 ≤ p → p < plen k → pchip k p = false

/-- R73, R52: which symbol stands where, and which bit of which nibble it reads. -/
def Obligations.SymbolReadsItsFrameBit : Prop :=
  ∀ w : NfWord, symKind 0 w = .sync ∧
    (∀ sym : BitVec 6, 1 ≤ sym.toNat → sym.toNat ≤ 36 →
      symKind sym w = if frameBit w (sym.toNat - 1) then .bit1 else .bit0) ∧
    (∀ b, b < 36 → frameBit w b = w.getLsbD (35 - b) ∧ frameBit w b = (nibble w (b / 4)).getLsbD (3 - b % 4))

/-- R101, R78: in `S_IDLE` the selector stands for SE.LOAD, which latches the offered word and starts a sequence; while SE
is busy, or nothing is offered, or the sequencer is outside its ranges (where no step is enabled, log entry 6), nothing
changes; `nf_ready` is 1 exactly in `S_IDLE` inside the ranges. -/
def Obligations.LoadLatchesTheOfferedWord : Prop :=
  (∀ s : State, s.ports.rst = false → s.se.st = .idle → s.seqInRange = true → s.ports.nfValid = true →
    decode (.ssel s.se.st.toBits) = .ok .seLoad ∧ exec .seLoad s = .next { s with
      se := ⟨.run, s.ports.nfData, true, 0, 0, 0⟩
      nfLog := s.nfLog ++ [.word s.ports.nfData]
      ports := { s.ports with nfValid := false } }) ∧
    (∀ s : State, s.se.st ≠ .idle ∨ s.seqInRange = false ∨ s.ports.nfValid = false ∨ s.ports.rst = true →
      exec .seLoad s = .next s) ∧
    (∀ s : State, s.ports.rst = false → (s.nfReady = true ↔ s.se.st = .idle ∧ s.seqInRange = true))

/-- R71, R101, R182 (the meaning of the row NFW is the model's choice, log entry 7): a word handed over on `nf` is
latched at once by an idle SE, and waits on the port otherwise (also where R78 enables no step, log entry 6). -/
def Obligations.NfwIsLatchedOrWaits : Prop :=
  ∀ (s : State) (w : NfWord), s.ports.rst = false →
    (s.se.st = .idle → s.seqInRange = true → exec (.nfw w) s = .next { s with
      se := ⟨.run, w, true, 0, 0, 0⟩
      nfLog := s.nfLog ++ [.word w]
      ports := { s.ports with nfValid := false, nfData := w } }) ∧
    (s.se.st ≠ .idle ∨ s.seqInRange = false →
      exec (.nfw w) s = .next { s with ports := { s.ports with nfValid := true, nfData := w } })

/-- R182: OFFER drives the port and changes nothing else. -/
def Obligations.OfferDrivesThePort : Prop :=
  ∀ (s : State) (w : NfWord),
    exec (.offer w) s = .next { s with ports := { s.ports with nfValid := true, nfData := w } }

/-- R105: in `S_RUN` the selector stands for SE.EMIT, which outputs the chip the sequencer stands at and advances by the
four cases where every consumer accepts, in TOP as with SE alone; with SE alone nothing else changes; where a consumer
does not accept, nothing changes. Nor does anything where SE.EMIT is not enabled: outside `S_RUN` (R76, R110), outside the
sequencer's ranges (R78), during reset (R250), or with nothing attached to `co` (log entry 9). -/
def Obligations.EmitSendsTheNextChip : Prop :=
  (∀ s : State, s.wiring ≠ .peAlone → s.ports.rst = false → s.se.st = .run → s.se.nfHeld = true →
    s.se.rep.toNat < 12 → s.se.sym.toNat ≤ 36 → s.se.pos.toNat < plen (symKind s.se.sym s.se.nf) →
    decode (.ssel s.se.st.toBits) = .ok .seEmit ∧ s.coValid = true ∧
    (s.coReady = true → ∃ t, exec .seEmit s = .next t ∧
      t.chipLog = s.chipLog ++ [.tok (.chip (pchip (symKind s.se.sym s.se.nf) s.se.pos.toNat))] ∧
      t.se = (if s.se.pos.toNat + 1 < plen (symKind s.se.sym s.se.nf) then { s.se with pos := s.se.pos + 1 }
        else if s.se.sym.toNat < 36 then { s.se with pos := 0, sym := s.se.sym + 1 }
        else if s.se.rep.toNat + 1 < 12 then { s.se with pos := 0, sym := 0, rep := s.se.rep + 1 }
        else { s.se with pos := 0, sym := 0, rep := 0, st := .fin }) ∧
      t.nfLog = s.nfLog ∧ t.wiring = s.wiring ∧ t.turns = s.turns ∧ t.resets = s.resets ∧ t.ports = s.ports ∧
      (s.wiring = .seAlone → t.pe = s.pe ∧ t.pulseLog = s.pulseLog)) ∧
    (s.coReady = false → exec .seEmit s = .next s)) ∧
  ∀ s : State, s.se.st ≠ .run ∨ s.seqInRange = false ∨ s.ports.rst = true ∨ s.wiring = .peAlone →
    exec .seEmit s = .next s

/-- R106: in `S_END` the selector stands for SE.ENDTOK, which outputs END and returns to idle where every consumer
accepts, in TOP as with SE alone; with SE alone nothing else changes; where a consumer does not accept, nothing
changes. Nor does anything where SE.ENDTOK is not enabled: outside `S_END` (R76, R110), outside the sequencer's ranges
(R78), during reset (R250), or with nothing attached to `co` (log entry 9). -/
def Obligations.EndtokEndsTheSequence : Prop :=
  (∀ s : State, s.wiring ≠ .peAlone → s.ports.rst = false → s.se.st = .fin → s.seqInRange = true →
    decode (.ssel s.se.st.toBits) = .ok .seEndtok ∧ s.coValid = true ∧
    (s.coReady = true → ∃ t, exec .seEndtok s = .next t ∧ t.chipLog = s.chipLog ++ [.tok (.fin false)] ∧
      t.se = { s.se with st := .idle } ∧ t.nfLog = s.nfLog ∧ t.wiring = s.wiring ∧ t.turns = s.turns ∧
      t.resets = s.resets ∧ t.ports = s.ports ∧ (s.wiring = .seAlone → t.pe = s.pe ∧ t.pulseLog = s.pulseLog)) ∧
    (s.coReady = false → exec .seEndtok s = .next s)) ∧
  ∀ s : State, s.se.st ≠ .fin ∨ s.seqInRange = false ∨ s.ports.rst = true ∨ s.wiring = .peAlone →
    exec .seEndtok s = .next s

/-- R102 to R104, SE alone: the row of the symbol the sequencer stands in emits that symbol's chips that are still to
come, in order, all of them where it stands at the first, and leaves the sequencer at the first chip of the next symbol;
the rows of the other symbols change nothing, nor does any where the consumer does not accept. In every composition no row
of a symbol changes anything outside `S_RUN` (R76, R110), outside the sequencer's ranges (R78), during reset (R250), or
with nothing attached to `co` (log entry 9). The meaning of the three rows is the model's choice (log entry 7). -/
def Obligations.SymbolRowEmitsItsChips : Prop :=
  (∀ (s : State) (k : Sym), s.wiring = .seAlone → s.ports.rst = false → s.se.st = .run → s.se.nfHeld = true →
    s.se.rep.toNat < 12 → s.se.sym.toNat ≤ 36 → s.se.pos.toNat < plen (symKind s.se.sym s.se.nf) →
    (symKind s.se.sym s.se.nf = k → s.ports.coReady = true → exec (symInstr k) s = .next { s with
      chipLog := s.chipLog ++ ((pattern k).drop s.se.pos.toNat).map fun c => .tok (.chip c)
      se := s.se.afterSymbol }) ∧
    (symKind s.se.sym s.se.nf ≠ k ∨ s.ports.coReady = false → exec (symInstr k) s = .next s)) ∧
  ∀ (s : State) (k : Sym), s.se.st ≠ .run ∨ s.seqInRange = false ∨ s.ports.rst = true ∨ s.wiring = .peAlone →
    exec (symInstr k) s = .next s

/-- R102 to R104 ("Example: as pulses"), R181, in TOP with every consumer accepting: a symbol makes PE flush the run
before it, if there is one, and then `+500`, and leaves PE with the low run `-500 * (plen - 1)`. -/
def Obligations.SymbolAsPulsesInTop : Prop :=
  ∀ (s : State) (k : Sym), TopInv s → s.ports.rst = false → s.ports.tapReady = true → s.ports.poReady = true →
    s.se.st = .run → s.se.pos = 0 → symKind s.se.sym s.se.nf = k →
    exec (symInstr k) s = .next { s with
      chipLog := s.chipLog ++ (pattern k).map fun c => .tok (.chip c)
      pulseLog := s.pulseLog ++ ((if s.pe.pv then [.pulse ⟨s.pe.acc, false⟩] else []) ++
        [.pulse ⟨BitVec.ofInt 32 500, false⟩])
      pe := ⟨.scan, BitVec.ofInt 32 (-500 * ((plen k : Int) - 1)), false, true, false⟩
      se := s.se.afterSymbol }

/-- R59: no instruction but RESET changes the latched NibbleFrame while a sequence is in progress. -/
def Obligations.LatchedFrameDoesNotChange : Prop :=
  ∀ (i : Instr) (s t : State), i ≠ .reset → s.se.st ≠ .idle → exec i s = .next t →
    t.se.nf = s.se.nf ∧ t.se.nfHeld = s.se.nfHeld

/-- R76, R77, R78: the reserved selectors and `P_FAULT` select no operation: their rows change nothing. -/
def Obligations.HeldSelectorsChangeNothing : Prop :=
  ∀ (s : State) (w x y z : Bool), exec .seReserved s = .next s ∧ exec (.peReserved w x y z) s = .next s ∧
    exec (.peHoldFault w x y z) s = .next s

/-! ### The Pulse Encoder -/

/-- R141: the per-chip durations. -/
def Obligations.ChipDurations : Prop := delta true = 500 ∧ delta false = -500

/-- R142: the first chip of a sequence selects PE.FIRST, which sets the polarity and loads the accumulator; nothing is
emitted, and SINK is not asked. -/
def Obligations.FirstChipStartsARun : Prop :=
  ∀ (s : State) (c x : Bool), s.ciOffer = some (.chip c) → s.pe.st = .scan → s.pe.pv = false →
    s.selects (.peFirst c s.pe.pol) ∧ exec (.peFirst c x) s = .next (s.moved (.chip c)
      { s.pe with acc := BitVec.ofInt 32 (if c then 500 else -500), pol := c, pv := true } [])

/-- R143: a chip of the run's polarity selects PE.SAME where the sum fits; it is added, exactly, and nothing is emitted. -/
def Obligations.SameChipExtendsTheRun : Prop :=
  ∀ (s : State) (c : Bool), s.ciOffer = some (.chip c) → s.pe.st = .scan → s.pe.pv = true → s.pe.pol = c →
    -2147483648 ≤ s.pe.acc.toInt + (if c then 500 else -500) →
    s.pe.acc.toInt + (if c then 500 else -500) ≤ 2147483647 →
    s.selects (if c then .peSame1 else .peSame0) ∧
      ∃ a : BitVec 32, a.toInt = s.pe.acc.toInt + (if c then 500 else -500) ∧
        exec (if c then .peSame1 else .peSame0) s = .next (s.moved (.chip c) { s.pe with acc := a } [])

/-- R144: a chip of the other polarity selects PE.FLIP, which flushes the accumulator as it is and starts the new run with
its own duration; where SINK does not accept, nothing changes. -/
def Obligations.FlipFlushesThenRestarts : Prop :=
  ∀ (s : State) (c : Bool), s.ciOffer = some (.chip c) → s.pe.st = .scan → s.pe.pv = true → s.pe.pol = !c →
    s.selects (if c then .peFlipUp else .peFlipDown) ∧
    (s.ports.poReady = true →
      exec (if c then .peFlipUp else .peFlipDown) s = .next (s.moved (.chip c)
        { s.pe with acc := BitVec.ofInt 32 (if c then 500 else -500), pol := c } [⟨s.pe.acc, false⟩])) ∧
    (s.ports.poReady = false → exec (if c then .peFlipUp else .peFlipDown) s = .next s)

/-- R145: END with no chip before it selects PE.FINISH_EMPTY, which emits the accumulator, `last = 1`, and leaves PE as it
is; by R32 item 4 the accumulator is 0 there, so that the token is `(0)!`. -/
def Obligations.EmptySequenceEmitsZero : Prop :=
  ∀ (s : State) (b x y : Bool), s.ciOffer = some (.fin b) → s.pe.st = .scan → s.pe.pv = false →
    s.selects (.peFinishEmpty b s.pe.pol) ∧
    (s.ports.poReady = true → exec (.peFinishEmpty x y) s = .next (s.moved (.fin b) s.pe [⟨s.pe.acc, true⟩])) ∧
    (s.ports.poReady = false → exec (.peFinishEmpty x y) s = .next s) ∧ (PeInv s.pe → s.pe.acc = 0)

/-- R146: END after a low run selects PE.FINISH_LOW, which emits the run, `last = 1`, and leaves PE clean; where SINK does
not accept, nothing changes. -/
def Obligations.LowEndIsFlushedLast : Prop :=
  ∀ (s : State) (b x : Bool), s.ciOffer = some (.fin b) → s.pe.st = .scan → s.pe.pv = true → s.pe.pol = false →
    s.selects (.peFinishLow b) ∧
    (s.ports.poReady = true → exec (.peFinishLow x) s = .next (s.moved (.fin b)
      { s.pe with acc := 0, pol := false, pv := false } [⟨s.pe.acc, true⟩])) ∧
    (s.ports.poReady = false → exec (.peFinishLow x) s = .next s)

/-- R147: END after a high run selects PE.FINISH_HIGH, which emits the run with `last = 0` and leaves the trailer pending;
where SINK does not accept, nothing changes. -/
def Obligations.HighEndLeavesTheTrailer : Prop :=
  ∀ (s : State) (b x : Bool), s.ciOffer = some (.fin b) → s.pe.st = .scan → s.pe.pv = true → s.pe.pol = true →
    s.selects (.peFinishHigh b) ∧
    (s.ports.poReady = true → exec (.peFinishHigh x) s = .next (s.moved (.fin b)
      { s.pe with acc := 0, pol := false, pv := false, st := .trail } [⟨s.pe.acc, false⟩])) ∧
    (s.ports.poReady = false → exec (.peFinishHigh x) s = .next s)

/-- R148: `P_TRAIL` selects PE.TRAIL, which sends the trailer `(-500)!` and lets PE scan again; meanwhile no chip token is
accepted; where SINK does not accept, nothing changes. -/
def Obligations.TrailerFollowsAHighEnd : Prop :=
  ∀ (s : State) (w x y z : Bool), s.pe.st = .trail → s.ports.rst = false →
    (∃ a b, s.selects (.peTrail a b s.pe.pv s.pe.pol)) ∧ s.ciReady = false ∧
    (s.ports.poReady = true → exec (.peTrail w x y z) s = .next { s with
      pe := { s.pe with st := .scan }
      pulseLog := s.pulseLog ++ [.pulse ⟨BitVec.ofInt 32 (-500), true⟩] }) ∧
    (s.ports.poReady = false → exec (.peTrail w x y z) s = .next s)

/-- R150: PE's output wires as functions of its state and of the token it sees, while `rst` is 0. Where `po_valid` is 0 the
bits of `po_data` and `po_last` are the model's reading of R150's formulas (log entry 17, DEDUCED: a chip may show any
value there). -/
def Obligations.PeOutputWires : Prop :=
  ∀ s : State, s.ports.rst = false →
    (s.poValid = true ↔ s.pe.st = .trail ∨ (s.pe.st = .scan ∧ ((∃ x, s.ciOffer = some (.fin x)) ∨
      ∃ c, s.ciOffer = some (.chip c) ∧ s.pe.pv = true ∧ c ≠ s.pe.pol))) ∧
    s.poData = (if s.pe.st = .trail then BitVec.ofInt 32 (-500) else s.pe.acc) ∧
    (s.poLast = true ↔ s.pe.st = .trail ∨
      (s.pe.st = .scan ∧ (∃ x, s.ciOffer = some (.fin x)) ∧ ¬(s.pe.pv = true ∧ s.pe.pol = true))) ∧
    (s.ciReady = true ↔ s.pe.st = .scan ∧ s.overflowPending = false ∧ (s.poValid = false ∨ s.ports.poReady = true)) ∧
    (s.overflowPending = true ↔ ∃ c, s.ciOffer = some (.chip c) ∧ s.pe.st = .scan ∧ s.pe.pv = true ∧ s.pe.pol = c ∧
      (s.pe.acc.toInt + delta c > 2147483647 ∨ s.pe.acc.toInt + delta c < -2147483648))

/-- R150: where no PE operation is enabled no row of PE changes anything: no token offered to a scanning PE, SINK not
accepting what the selected operation emits, `P_FAULT`, the reserved state. -/
def Obligations.PeHoldsWhenNothingIsEnabled : Prop :=
  ∀ (i : Instr) (s : State), (∃ w o, encode i = .psel w o) →
    (s.pe.st = .scan ∧ s.ciOffer = none) ∨ (s.needsPo = true ∧ s.ports.poReady = false) ∨ s.pe.st = .fault ∨
      s.pe.st = .reserved →
    exec i s = .next s

/-- R77, R233 item 7: PSEL selects the operation: a row of PE changes something only if the selector decodes to a row
that does exactly the same. -/
def Obligations.OnePeOperationPerSelector : Prop :=
  ∀ (i : Instr) (s t : State), (∃ w o, encode i = .psel w o) → exec i s = .next t → t ≠ s →
    ∃ j, s.selects j ∧ exec j s = .next t

/-! ### The chip link, the tokens, TOP -/

/-- R181: the wires of the fork in TOP. -/
def Obligations.ForkWires : Prop :=
  ∀ s : State, s.wiring = .top →
    s.ciValid = (s.coValid && s.ports.tapReady) ∧ (s.ciValid = true → s.ciOffer = s.coOffer) ∧
      s.tapValid = (s.coValid && s.ciReady) ∧ s.tapTok = s.coTok ∧ s.coReady = (s.ciReady && s.ports.tapReady)

/-- R181: in TOP, where SE offers a token, TAP accepts and PE accepts, FORK moves the token to both in one step: SE
advances, PE takes it, ChipLog gets it once. -/
def Obligations.ForkMovesOneTokenToBoth : Prop :=
  ∀ (s : State) (t : ChipTok), s.wiring = .top → s.coOffer = some t → s.ports.tapReady = true → s.ciReady = true →
    s.ciOffer = some t ∧ s.tapTok = t.toBits ∧
      ∃ p out, s.pe.take t = some (p, out) ∧ exec .fork s = .next (s.moved t p out.toList)

/-- R181, R105, R110: in TOP, where SE offers nothing or one of the two consumers does not accept, nothing on the chip link
moves: no instruction but RESET adds to ChipLog, none but the two that latch a word (SE.LOAD, NFW) changes SE, and the rows
that do nothing but move a chip token change nothing at all. What the rows SYNC, BIT0, BIT1, CHIP0, CHIP1, END and PULSE
stand for is the model's choice (log entry 7). Outside TOP there is no fork (log entry 9). -/
def Obligations.StalledForkChangesNothing : Prop :=
  (∀ s : State, s.wiring ≠ .top → exec .fork s = .next s) ∧
  ∀ s : State, s.wiring = .top → ¬(s.coValid = true ∧ s.ciReady = true ∧ s.ports.tapReady = true) →
    exec .fork s = .next s ∧ exec .seEmit s = .next s ∧ exec .seEndtok s = .next s ∧ exec .chip0 s = .next s ∧
      exec .chip1 s = .next s ∧ (∀ x, exec (.endTok x) s = .next s) ∧ (∀ k, exec (symInstr k) s = .next s) ∧
      ∀ (i : Instr) (t : State), i ≠ .reset → exec i s = .next t →
        t.chipLog = s.chipLog ∧ (i ≠ .seLoad → (∀ w, i ≠ .nfw w) → t.se = s.se)

/-- R181: in TOP the step of SE, the transfer of the fork and the PE operation that PSEL selects are one and the same
step. -/
def Obligations.ForkIsTheStepOfBothUnits : Prop :=
  ∀ s : State, s.wiring = .top → s.coValid = true → s.ciReady = true → s.ports.tapReady = true →
    (s.se.st = .run → exec .seEmit s = exec .fork s) ∧ (s.se.st = .fin → exec .seEndtok s = exec .fork s) ∧
      ∃ j, s.selects j ∧ exec j s = exec .fork s

/-- R51, R188 (the meaning of the rows CHIP0, CHIP1, END is the model's choice, log entry 7): with PE alone, a token that
CHIPSRC offers is taken by the operation R77 selects where PE accepts it, and waits otherwise; the token's two wires
decode to its row. R184: TAP puts no token there: with PE alone a turn of TAP selects nothing, and elsewhere one of CHIPSRC
(that they select nothing is log entry 9). -/
def Obligations.ChipTokenReachesPeAlone : Prop :=
  (∀ s : State, s.ports.rst = false →
    (s.wiring = .peAlone → s.fetch .tap = none) ∧ (s.wiring ≠ .peAlone → ∀ w, s.fetch (.chipsrc w) = none)) ∧
  ∀ (s : State) (t : ChipTok), s.wiring = .peAlone → s.ports.rst = false →
    s.fetch (.chipsrc t.toBits) = some (.ctok t.toBits) ∧ decode (.ctok t.toBits) = .ok (tokInstr t) ∧
    (∀ p out, s.pe.take t = some (p, out) → (out = none ∨ s.ports.poReady = true) →
      exec (tokInstr t) s = .next { s with
        ports := { s.ports with ciValid := false, ciTok := t }
        pe := p
        chipLog := s.chipLog ++ [.tok t]
        pulseLog := s.pulseLog ++ out.toList.map .pulse }) ∧
    (s.pe.take t = none ∨ (∃ p q, s.pe.take t = some (p, some q) ∧ s.ports.poReady = false) →
      exec (tokInstr t) s = .next { s with ports := { s.ports with ciValid := true, ciTok := t } })

/-- R77, R142 to R147: which tokens PE takes, what it becomes and what it emits; PE takes no token in `P_TRAIL` or
`P_FAULT`, nor a chip whose sum leaves the range. -/
def Obligations.TakenTokenSelectsTheOperation : Prop :=
  ∀ p : PE,
    (p.st = .scan →
      (∀ c, p.pv = false → p.take (.chip c) = some ({ p with acc := accOf (delta c), pol := c, pv := true }, none)) ∧
      (∀ c, p.pv = true → p.pol = c → accFits (p.acc.toInt + delta c) = true →
        p.take (.chip c) = some ({ p with acc := accOf (p.acc.toInt + delta c) }, none)) ∧
      (∀ c, p.pv = true → p.pol = c → accFits (p.acc.toInt + delta c) = false → p.take (.chip c) = none) ∧
      (∀ c, p.pv = true → p.pol = !c →
        p.take (.chip c) = some ({ p with acc := accOf (delta c), pol := c }, some ⟨p.acc, false⟩)) ∧
      (∀ x, p.pv = false → p.take (.fin x) = some (p, some ⟨p.acc, true⟩)) ∧
      (∀ x, p.pv = true → p.pol = false →
        p.take (.fin x) = some ({ p with acc := 0, pol := false, pv := false }, some ⟨p.acc, true⟩)) ∧
      (∀ x, p.pv = true → p.pol = true →
        p.take (.fin x) = some ({ p with acc := 0, pol := false, pv := false, st := .trail }, some ⟨p.acc, false⟩))) ∧
    (p.st ≠ .scan → ∀ t, p.take t = none)

/-- R74, R181: where SE drives the chip link, the row of the token it offers is SE's own step, and the row of another
token changes nothing. -/
def Obligations.TokenRowIsItsProducersStep : Prop :=
  ∀ s : State, s.wiring ≠ .peAlone →
    (∀ c, s.coOffer = some (.chip c) → exec (tokInstr (.chip c)) s = exec .seEmit s) ∧
    (∀ x, s.coOffer = some (.fin x) → exec (tokInstr (.fin x)) s = exec .seEndtok s) ∧
    ∀ t, s.coOffer ≠ some t → exec (tokInstr t) s = .next s

/-- R75, R150: where PE holds a pulse token on `po` and SINK accepts, its row moves exactly that token to PulseLog, and PE
takes the operation that emits it; a row of another pulse token, or one SINK does not accept, changes nothing. -/
def Obligations.PulseRowMovesThePulseOnThePort : Prop :=
  ∀ (s : State) (last : Bool) (data : BitVec 32),
    (s.poValid = true → s.ports.poReady = true → s.poData = data → s.poLast = last →
      ∃ t, exec (.pulse last data) s = .next t ∧ t.pulseLog = s.pulseLog ++ [.pulse ⟨data, last⟩] ∧
        t.nfLog = s.nfLog ∧ t.wiring = s.wiring ∧ t.turns = s.turns ∧ t.pe.fault = s.pe.fault ∧
        (s.pe.st = .trail → t.pe = { s.pe with st := .scan } ∧ t.chipLog = s.chipLog ∧ t.se = s.se ∧
          t.ports = s.ports) ∧
        (s.pe.st ≠ .trail → ∃ tok p out, s.ciOffer = some tok ∧ s.pe.take tok = some (p, out) ∧
          t = s.moved tok p [⟨data, last⟩])) ∧
    (s.poValid = false ∨ s.ports.poReady = false ∨ s.poData ≠ data ∨ s.poLast ≠ last →
      exec (.pulse last data) s = .next s)

/-- R29, R60: the logs are only appended to, and so are the lists R60 reads off them: the `i`-th END of ChipLog has the
`i`-th ChipSequence, the `i`-th entry with `last = 1` of PulseLog the `i`-th PulseList, and a RESET marker takes no completed
list away and changes no number. The composition and the schedule are the environment's (log entries 8, 9), and no
instruction changes them. -/
def Obligations.LogsOnlyGrow : Prop :=
  ∀ (i : Instr) (s t : State), exec i s = .next t →
    (∃ a, t.chipLog = s.chipLog ++ a) ∧ (∃ b, t.pulseLog = s.pulseLog ++ b) ∧ (∃ c, t.nfLog = s.nfLog ++ c) ∧
      (∃ d, (chipArtifacts t.chipLog).all = (chipArtifacts s.chipLog).all ++ d) ∧
      (∃ e, (pulseArtifacts t.pulseLog).all = (pulseArtifacts s.pulseLog).all ++ e) ∧
      (chipArtifacts t.chipLog).all.length = t.chipLog.countP ChipEvent.isEnd ∧
      (pulseArtifacts t.pulseLog).all.length = t.pulseLog.countP PulseEvent.isLast ∧
      t.wiring = s.wiring ∧ t.turns = s.turns

/-- R185: where END goes to PE in TOP with both consumers accepting, the run ends: a pulse with `last = 1` goes out, both
units are in their idle state, the status outputs are 0, and `SE.NF` keeps the word. -/
def Obligations.EndOfARunInTop : Prop :=
  ∀ s : State, TopInv s → s.se.st = .fin → s.ports.rst = false → s.ports.tapReady = true → s.ports.poReady = true →
    ∃ t, exec .seEndtok s = .next t ∧ RunEnded t ∧ t.se.nf = s.se.nf ∧
      t.pulseLog = s.pulseLog ++ [.pulse ⟨s.pe.acc, true⟩] ∧ t.chipLog = s.chipLog ++ [.tok (.fin false)]

/-- R187: from an idle TOP, a word handed over and `len(chipseq(w)) + 1` chip-link transfers with both consumers accepting
make a whole run: the chips of `chipseq(w)` and END to TAP and PE, the entries of `rle(chipseq(w))` to SINK, the last one
and only the last one with `last = 1`, and the state of R185. The word is handed over by the
row NFW, whose meaning, OFFER and SE.LOAD in one step, is the model's choice (log entry 7). -/
def Obligations.RunOfTop : Prop :=
  ∀ (s : State) (w : NfWord), TopInv s → s.se.st = .idle → s.ports.rst = false → s.ports.tapReady = true →
    s.ports.poReady = true →
    ∃ s' t, exec (.nfw w) s = .next s' ∧ forks ((chipseq w).length + 1) s' = .next t ∧ RunEnded t ∧ t.se.nf = w ∧
      t.chipLog = s.chipLog ++ ((chipseq w).map (fun c => .tok (.chip c)) ++ [.tok (.fin false)]) ∧
      t.pulseLog = s.pulseLog ++ pulseEvents (rle (chipseq w))

/-! ### Invariants -/

/-- R32: the invariants hold at reset. Those of TOP (R111, R181) and of the logs (R60, R112, R158) hold there by the model's
choices that State.reset is composed as TOP (log entry 9), that its logs are empty (log entry 19; R30 says only that reset
leaves them unchanged) and that their lists pair period by period (log entry 24). -/
def Obligations.InvariantsHoldAtReset : Prop :=
  Inv State.reset ∧ TopInv State.reset ∧ ChipInv State.reset ∧ PulseInv State.reset

/-- R32: every step keeps the invariants of the two units, from every state that has them. -/
def Obligations.StepKeepsTheInvariants : Prop := ∀ s t : State, Inv s → step s = .next t → Inv t

/-- R111, R149, R181: every step of TOP keeps PE's run in step with SE's position. -/
def Obligations.StepKeepsTopInLockStep : Prop := ∀ s t : State, TopInv s → step s = .next t → TopInv t

/-- R149, R181: in TOP the overflow and the trailer cannot arise. -/
def Obligations.TopNeverOverflowsNorTrails : Prop :=
  ∀ s : State, TopInv s → s.overflowPending = false ∧ s.pe.st ≠ .trail ∧ s.pe.st ≠ .fault ∧ s.peFault = false ∧
    exec .peOvf0 s = .next s ∧ exec .peOvf1 s = .next s ∧ ∀ w x y z, exec (.peTrail w x y z) s = .next s

/-- R112, R60: every step keeps ChipLog in agreement with `chipseq` of the latched words, in each period that a reset has
ended as in the one in progress (that words and lists pair up period by period is the model's choice, log entry 24). -/
def Obligations.StepKeepsChipLogEqualToChipseq : Prop := ∀ s t : State, ChipInv s → step s = .next t → ChipInv t

/-- R158, R60, R234: every step keeps PulseLog in agreement with `rle` of the ChipSequences, in each period that a reset has
ended as in the one in progress (that the lists pair up period by period is the model's choice, log entry 24). -/
def Obligations.StepKeepsPulseLogEqualToRle : Prop := ∀ s t : State, PulseInv s → step s = .next t → PulseInv t

/-! ### Laws of the two functions -/

/-- R140: the scan and the form by maximal runs agree. -/
def Obligations.RleIsTheListOfRuns : Prop := ∀ chips : List Bool, rle chips = rleByRuns chips

/-- R151, R154: the empty chip list gives `[0]`; for a non-empty one all entries are non-zero, neighbours have opposite
signs, the first entry has the sign of the first chip, and the last entry is negative. -/
def Obligations.PulseSignsAlternate : Prop :=
  rle [] = [0] ∧ ∀ (c : Bool) (cs : List Bool),
    (∀ v ∈ rle (c :: cs), v ≠ 0) ∧ List.IsChain (fun a b : Int => (0 < a ∧ b < 0) ∨ (a < 0 ∧ 0 < b)) (rle (c :: cs)) ∧
      (∃ v vs, rle (c :: cs) = v :: vs ∧ (if c then 0 < v else v < 0)) ∧ ∃ vs v, rle (c :: cs) = vs ++ [v] ∧ v < 0

/-- R152: the positive entries add up to `h * ONE_LEN`, the negative ones without the trailer to `-z * ZERO_LEN`. -/
def Obligations.PulsesConserveDuration : Prop :=
  ∀ chips : List Bool,
    ((rle chips).filter (0 < ·)).sum = chips.count true * 500 ∧
      ((rle chips).filter (· < 0)).sum =
        -(chips.count false * 500) + (if chips.getLast? = some true then -500 else 0)

/-- R153, R157: the number of entries is the number of runs, plus one if the list ends on 1; between 1 and `N + 1`. -/
def Obligations.PulseListIsMinimal : Prop :=
  rle [] = [0] ∧ ∀ (c : Bool) (cs : List Bool),
    (rle (c :: cs)).length = (chipRuns (c :: cs)).length + (if (c :: cs).getLast? = some true then 1 else 0) ∧
      1 ≤ (rle (c :: cs)).length ∧ (rle (c :: cs)).length ≤ (c :: cs).length + 1

/-- R109, R81: the lengths of a frame and of a ChipSequence, their bounds with the words that attain them, and the bound
for the words the Field Encoder can produce. -/
def Obligations.ChipSequenceLength : Prop :=
  (∀ w : NfWord, (symbols w).length = 37 ∧ (frame w).length = 117 + 2 * (frameBits w).count true ∧
    (chipseq w).length = 12 * (9 + ((frameBits w).map fun b => if b then 5 else 3).sum) ∧
    (chipseq w).length = 12 * (117 + 2 * (frameBits w).count true) ∧
    1404 ≤ (chipseq w).length ∧ (chipseq w).length ≤ 2268 ∧
    (nibble w 6 = 15 → (nibble w 2 = 8 ∨ nibble w 2 = 9 ∨ nibble w 2 = 10) → 1524 ≤ (chipseq w).length)) ∧
  (chipseq 0x000000000).length = 1404 ∧ (chipseq 0xFFFFFFFFF).length = 2268

/-- R111: every ChipSequence begins with 1 and ends with 0, its high runs have length 1, its low runs length 2, 4 or 8,
it has 444 chips of value 1 and 888 runs. -/
def Obligations.ChipSequenceShape : Prop :=
  ∀ w : NfWord, (chipseq w).head? = some true ∧ (chipseq w).getLast? = some false ∧
    (∀ r ∈ chipRuns (chipseq w), r = (true, 1) ∨ r = (false, 2) ∨ r = (false, 4) ∨ r = (false, 8)) ∧
    (chipseq w).count true = 444 ∧ (chipRuns (chipseq w)).length = 888

/-- R156: the PulseList of a frame and of a ChipSequence in closed form, their numbers of entries and the sum of the
absolute values. -/
def Obligations.PulseListClosedForm : Prop :=
  ∀ w : NfWord,
    rle (frame w) = [500, -4000] ++ (frameBits w).flatMap (fun b => if b then [500, -2000] else [500, -1000]) ∧
      rle (chipseq w) = (List.replicate 12 (rle (frame w))).flatten ∧ (rle (frame w)).length = 74 ∧
      (rle (chipseq w)).length = 888 ∧
      ((rle (chipseq w)).map Int.natAbs).sum = 500 * 12 * (117 + 2 * (frameBits w).count true)

/-! ### Encoding -/

/-- Decoding the encoding of an instruction gives it back, every operand at every value. -/
def Obligations.DecodeInvertsEncode : Prop := ∀ i : Instr, decode (encode i) = .ok i

/-- A well-formed coded word that decodes is the encoding of what it decodes to: no two words of a format stand for one
instruction. -/
def Obligations.EncodeInvertsDecode : Prop :=
  ∀ (c : Code) (i : Instr), c.wf = true → decode c = .ok i → encode i = c

/-- R71 to R78: words written out from the tables decode to what they stand for. -/
def Obligations.TableWordsDecode : Prop :=
  decode (.sym [true, false, false]) = .ok .bit0 ∧ decode (.nfw 0xF48107F14#36) = .ok (.nfw 0xF48107F14#36) ∧
    decode (.ctok 0b01#2) = .ok .chip1 ∧
    decode (.ctok 0b11#2) = .ok (.endTok true) ∧ decode (.ptok 0x1FFFFFC18#33) = .ok (.pulse true 0xFFFFFC18#32) ∧
    decode (.ssel 0b10#2) = .ok .seEndtok ∧ decode (.psel 0b000110#6 false) = .ok .peFlipUp ∧
    decode (.psel 0b001011#6 false) = .ok (.peFinishHigh false) ∧ decode (.psel 0b000010#6 true) = .ok .peOvf0 ∧
    decode (.forksel 0b111#3) = .ok .fork ∧ decode (.nfport 0x1F48107F14#37) = .ok (.offer 0xF48107F14#36) ∧
    decode (.rst 0b1#1) = .ok .reset
end

