-- ==== Sys2Proof/Laws/Decode.lean ====
section
/-! SUPPORT. What the decoder reads from an assembled word: the PE selector by its six bits, and the bits of a chip
token. -/

namespace Sys2Proof

/-- The operation that six selector bits stand for, with the arithmetic condition (R77, R149). -/
theorem decodePsel_bits6 (a b c d e f o : Bool) :
    decodePsel (bits6 a b c d e f) o =
      match a, b, c, d, e, f with
      | false, false, false, c, false, x => .peFirst c x
      | false, false, false, false, true, false => if o then .peOvf0 else .peSame0
      | false, false, false, true, true, true => if o then .peOvf1 else .peSame1
      | false, false, false, true, true, false => .peFlipUp
      | false, false, false, false, true, true => .peFlipDown
      | false, false, true, x, false, y => .peFinishEmpty x y
      | false, false, true, x, true, false => .peFinishLow x
      | false, false, true, x, true, true => .peFinishHigh x
      | false, true, w, x, y, z => .peTrail w x y z
      | true, false, w, x, y, z => .peHoldFault w x y z
      | true, true, w, x, y, z => .peReserved w x y z := by
  cases a <;> cases b <;> cases c <;> cases d <;> cases e <;> cases f <;> cases o <;> rfl

theorem ChipTok.toBits_end (t : ChipTok) :
    t.toBits.getLsbD 1 = (match t with | .chip _ => false | .fin _ => true) := by
  rcases t with (_ | _) | (_ | _) <;> rfl

theorem ChipTok.toBits_chip (t : ChipTok) :
    t.toBits.getLsbD 0 = (match t with | .chip c => c | .fin x => x) := by
  rcases t with (_ | _) | (_ | _) <;> rfl

/-- A chip token is what its two wires say (R74). -/
theorem ChipTok.ofBits_toBits (t : ChipTok) : ChipTok.ofBits t.toBits = t := by
  rcases t with (_ | _) | (_ | _) <;> rfl

namespace Machine

/-- The PE selector where a token is offered, decoded (R77). -/
theorem State.pselCode_of_offer {s : State} {t : ChipTok} (h : s.ciOffer = some t) :
    s.pselCode = some (.psel (bits6 s.pe.st.bit1 s.pe.st.bit0 (t.toBits.getLsbD 1) (t.toBits.getLsbD 0) s.pe.pv s.pe.pol)
      (s.pe.overflowPending t)) := by
  unfold State.pselCode
  rw [h]

end Machine

end Sys2Proof
end

