-- ==== Sys2Proof/Laws/State.lean ====
section
/-! SUPPORT. The fields of a state after each named update, one lemma per field and update, all true by rfl, so that no
proof unfolds a record update. -/

namespace Sys2Proof.Machine

@[simp] theorem State.setSe_wiring (s : State) (x : SE) : (s.setSe x).wiring = s.wiring := rfl
@[simp] theorem State.setSe_se (s : State) (x : SE) : (s.setSe x).se = x := rfl
@[simp] theorem State.setSe_pe (s : State) (x : SE) : (s.setSe x).pe = s.pe := rfl
@[simp] theorem State.setSe_ports (s : State) (x : SE) : (s.setSe x).ports = s.ports := rfl
@[simp] theorem State.setSe_chipLog (s : State) (x : SE) : (s.setSe x).chipLog = s.chipLog := rfl
@[simp] theorem State.setSe_pulseLog (s : State) (x : SE) : (s.setSe x).pulseLog = s.pulseLog := rfl
@[simp] theorem State.setSe_nfLog (s : State) (x : SE) : (s.setSe x).nfLog = s.nfLog := rfl
@[simp] theorem State.setSe_turns (s : State) (x : SE) : (s.setSe x).turns = s.turns := rfl
@[simp] theorem State.setSe_resets (s : State) (x : SE) : (s.setSe x).resets = s.resets := rfl

@[simp] theorem State.setPe_wiring (s : State) (x : PE) : (s.setPe x).wiring = s.wiring := rfl
@[simp] theorem State.setPe_se (s : State) (x : PE) : (s.setPe x).se = s.se := rfl
@[simp] theorem State.setPe_pe (s : State) (x : PE) : (s.setPe x).pe = x := rfl
@[simp] theorem State.setPe_ports (s : State) (x : PE) : (s.setPe x).ports = s.ports := rfl
@[simp] theorem State.setPe_chipLog (s : State) (x : PE) : (s.setPe x).chipLog = s.chipLog := rfl
@[simp] theorem State.setPe_pulseLog (s : State) (x : PE) : (s.setPe x).pulseLog = s.pulseLog := rfl
@[simp] theorem State.setPe_nfLog (s : State) (x : PE) : (s.setPe x).nfLog = s.nfLog := rfl
@[simp] theorem State.setPe_turns (s : State) (x : PE) : (s.setPe x).turns = s.turns := rfl
@[simp] theorem State.setPe_resets (s : State) (x : PE) : (s.setPe x).resets = s.resets := rfl

@[simp] theorem State.setPorts_wiring (s : State) (x : Ports) : (s.setPorts x).wiring = s.wiring := rfl
@[simp] theorem State.setPorts_se (s : State) (x : Ports) : (s.setPorts x).se = s.se := rfl
@[simp] theorem State.setPorts_pe (s : State) (x : Ports) : (s.setPorts x).pe = s.pe := rfl
@[simp] theorem State.setPorts_ports (s : State) (x : Ports) : (s.setPorts x).ports = x := rfl
@[simp] theorem State.setPorts_chipLog (s : State) (x : Ports) : (s.setPorts x).chipLog = s.chipLog := rfl
@[simp] theorem State.setPorts_pulseLog (s : State) (x : Ports) : (s.setPorts x).pulseLog = s.pulseLog := rfl
@[simp] theorem State.setPorts_nfLog (s : State) (x : Ports) : (s.setPorts x).nfLog = s.nfLog := rfl
@[simp] theorem State.setPorts_turns (s : State) (x : Ports) : (s.setPorts x).turns = s.turns := rfl
@[simp] theorem State.setPorts_resets (s : State) (x : Ports) : (s.setPorts x).resets = s.resets := rfl

@[simp] theorem State.logChip_wiring (s : State) (e : ChipEvent) : (s.logChip e).wiring = s.wiring := rfl
@[simp] theorem State.logChip_se (s : State) (e : ChipEvent) : (s.logChip e).se = s.se := rfl
@[simp] theorem State.logChip_pe (s : State) (e : ChipEvent) : (s.logChip e).pe = s.pe := rfl
@[simp] theorem State.logChip_ports (s : State) (e : ChipEvent) : (s.logChip e).ports = s.ports := rfl
@[simp] theorem State.logChip_chipLog (s : State) (e : ChipEvent) : (s.logChip e).chipLog = s.chipLog ++ [e] := rfl
@[simp] theorem State.logChip_pulseLog (s : State) (e : ChipEvent) : (s.logChip e).pulseLog = s.pulseLog := rfl
@[simp] theorem State.logChip_nfLog (s : State) (e : ChipEvent) : (s.logChip e).nfLog = s.nfLog := rfl
@[simp] theorem State.logChip_turns (s : State) (e : ChipEvent) : (s.logChip e).turns = s.turns := rfl
@[simp] theorem State.logChip_resets (s : State) (e : ChipEvent) : (s.logChip e).resets = s.resets := rfl

@[simp] theorem State.logPulses_wiring (s : State) (es : List PulseEvent) : (s.logPulses es).wiring = s.wiring := rfl
@[simp] theorem State.logPulses_se (s : State) (es : List PulseEvent) : (s.logPulses es).se = s.se := rfl
@[simp] theorem State.logPulses_pe (s : State) (es : List PulseEvent) : (s.logPulses es).pe = s.pe := rfl
@[simp] theorem State.logPulses_ports (s : State) (es : List PulseEvent) : (s.logPulses es).ports = s.ports := rfl
@[simp] theorem State.logPulses_chipLog (s : State) (es : List PulseEvent) : (s.logPulses es).chipLog = s.chipLog := rfl
@[simp] theorem State.logPulses_pulseLog (s : State) (es : List PulseEvent) : (s.logPulses es).pulseLog = s.pulseLog ++ es := rfl
@[simp] theorem State.logPulses_nfLog (s : State) (es : List PulseEvent) : (s.logPulses es).nfLog = s.nfLog := rfl
@[simp] theorem State.logPulses_turns (s : State) (es : List PulseEvent) : (s.logPulses es).turns = s.turns := rfl
@[simp] theorem State.logPulses_resets (s : State) (es : List PulseEvent) : (s.logPulses es).resets = s.resets := rfl

@[simp] theorem State.logNf_wiring (s : State) (e : NfEvent) : (s.logNf e).wiring = s.wiring := rfl
@[simp] theorem State.logNf_se (s : State) (e : NfEvent) : (s.logNf e).se = s.se := rfl
@[simp] theorem State.logNf_pe (s : State) (e : NfEvent) : (s.logNf e).pe = s.pe := rfl
@[simp] theorem State.logNf_ports (s : State) (e : NfEvent) : (s.logNf e).ports = s.ports := rfl
@[simp] theorem State.logNf_chipLog (s : State) (e : NfEvent) : (s.logNf e).chipLog = s.chipLog := rfl
@[simp] theorem State.logNf_pulseLog (s : State) (e : NfEvent) : (s.logNf e).pulseLog = s.pulseLog := rfl
@[simp] theorem State.logNf_nfLog (s : State) (e : NfEvent) : (s.logNf e).nfLog = s.nfLog ++ [e] := rfl
@[simp] theorem State.logNf_turns (s : State) (e : NfEvent) : (s.logNf e).turns = s.turns := rfl
@[simp] theorem State.logNf_resets (s : State) (e : NfEvent) : (s.logNf e).resets = s.resets := rfl

@[simp] theorem State.setTurns_wiring (s : State) (ts : List Turn) : (s.setTurns ts).wiring = s.wiring := rfl
@[simp] theorem State.setTurns_se (s : State) (ts : List Turn) : (s.setTurns ts).se = s.se := rfl
@[simp] theorem State.setTurns_pe (s : State) (ts : List Turn) : (s.setTurns ts).pe = s.pe := rfl
@[simp] theorem State.setTurns_ports (s : State) (ts : List Turn) : (s.setTurns ts).ports = s.ports := rfl
@[simp] theorem State.setTurns_chipLog (s : State) (ts : List Turn) : (s.setTurns ts).chipLog = s.chipLog := rfl
@[simp] theorem State.setTurns_pulseLog (s : State) (ts : List Turn) : (s.setTurns ts).pulseLog = s.pulseLog := rfl
@[simp] theorem State.setTurns_nfLog (s : State) (ts : List Turn) : (s.setTurns ts).nfLog = s.nfLog := rfl
@[simp] theorem State.setTurns_turns (s : State) (ts : List Turn) : (s.setTurns ts).turns = ts := rfl
@[simp] theorem State.setTurns_resets (s : State) (ts : List Turn) : (s.setTurns ts).resets = s.resets := rfl

@[simp] theorem State.countReset_wiring (s : State) : (s.countReset).wiring = s.wiring := rfl
@[simp] theorem State.countReset_se (s : State) : (s.countReset).se = s.se := rfl
@[simp] theorem State.countReset_pe (s : State) : (s.countReset).pe = s.pe := rfl
@[simp] theorem State.countReset_ports (s : State) : (s.countReset).ports = s.ports := rfl
@[simp] theorem State.countReset_chipLog (s : State) : (s.countReset).chipLog = s.chipLog := rfl
@[simp] theorem State.countReset_pulseLog (s : State) : (s.countReset).pulseLog = s.pulseLog := rfl
@[simp] theorem State.countReset_nfLog (s : State) : (s.countReset).nfLog = s.nfLog := rfl
@[simp] theorem State.countReset_turns (s : State) : (s.countReset).turns = s.turns := rfl
@[simp] theorem State.countReset_resets (s : State) : (s.countReset).resets = s.resets + 1 := rfl

end Sys2Proof.Machine
end

