-- ==== Sys2Proof/Laws/Ops.lean ====
section
/-! SUPPORT. One lemma per shared operation that says once what it can do; the proofs cite these instead of unfolding
the operations. -/

namespace Sys2Proof.Machine

/-! ### The accumulator -/

/-- The range of the accumulator, spelled out (R7). -/
theorem accFits_iff (x : Int) : accFits x = true ↔ -2147483648 ≤ x ∧ x ≤ 2147483647 := by
  unfold accFits
  rw [decide_eq_true_eq]
  exact Iff.rfl

/-- Under the guard of SAME the addition is exact (R143, R155). -/
theorem accOf_toInt {x : Int} (h : accFits x = true) : (accOf x).toInt = x := by
  rw [accFits_iff] at h
  simp only [accOf, BitVec.toInt_ofInt, Int.bmod_def]
  omega

theorem accFits_delta (c : Bool) : accFits (delta c) = true := by cases c <;> decide

@[simp] theorem accOf_delta_toInt (c : Bool) : (accOf (delta c)).toInt = delta c := accOf_toInt (accFits_delta c)

theorem delta_true : delta true = 500 := rfl
theorem delta_false : delta false = -500 := rfl

/-! ### PE: which operation takes a token -/

/-- Every way PE can consume a token, with the operation R77 selects for it. -/
theorem PE.take_cases {p q : PE} {t : ChipTok} {out : Option Pulse} (h : p.take t = some (q, out)) :
    p.st = .scan ∧
      ((∃ c, t = .chip c ∧ p.pv = false ∧ q = p.first c ∧ out = none) ∨
       (∃ c, t = .chip c ∧ p.pv = true ∧ p.pol = c ∧ accFits (p.sum c) = true ∧ q = p.same c ∧ out = none) ∨
       (∃ c, t = .chip c ∧ p.pv = true ∧ p.pol = !c ∧ q = p.flip c ∧ out = some ⟨p.acc, false⟩) ∨
       (∃ x, t = .fin x ∧ p.pv = false ∧ q = p ∧ out = some ⟨p.acc, true⟩) ∨
       (∃ x, t = .fin x ∧ p.pv = true ∧ p.pol = false ∧ q = p.finishLow ∧ out = some ⟨p.acc, true⟩) ∨
       (∃ x, t = .fin x ∧ p.pv = true ∧ p.pol = true ∧ q = p.finishHigh ∧ out = some ⟨p.acc, false⟩)) := by
  unfold PE.take at h
  split at h
  · refine ⟨by assumption, ?_⟩
    split at h
    · rename_i c
      split at h
      · split at h
        · split at h
          · cases h; simp_all
          · cases h
        · cases h; simp_all; cases c <;> simp_all
      · cases h; simp_all
    · split at h
      · split at h <;> cases h <;> simp_all
      · cases h; simp_all
  all_goals cases h

/-- PE consumes a token exactly where it scans and no overflow is pending (R150). -/
theorem PE.take_isSome (p : PE) (t : ChipTok) :
    (p.take t).isSome = (p.st == .scan && !p.overflowPending t) := by
  cases t with
  | chip c =>
    cases hs : p.st <;> cases hv : p.pv <;> cases hp : p.pol <;> cases c <;>
      cases hf : accFits (p.sum true) <;> cases hg : accFits (p.sum false) <;>
      simp [PE.take, PE.overflowPending, hs, hv, hp, hf, hg]
  | fin x =>
    cases hs : p.st <;> cases hv : p.pv <;> cases hp : p.pol <;>
      simp [PE.take, PE.overflowPending, hs, hv, hp]

/-! ### SE: the sequencer -/

/-- The four cases of EMIT's advance (R105). -/
theorem SE.advance_cases (se : SE) (k : Sym) :
    (se.pos.toNat + 1 < plen k ∧ se.advance k = { se with pos := se.pos + 1 }) ∨
    (plen k ≤ se.pos.toNat + 1 ∧ se.sym.toNat < 36 ∧ se.advance k = { se with pos := 0, sym := se.sym + 1 }) ∨
    (plen k ≤ se.pos.toNat + 1 ∧ 36 ≤ se.sym.toNat ∧ se.rep.toNat + 1 < 12 ∧
      se.advance k = { se with pos := 0, sym := 0, rep := se.rep + 1 }) ∨
    (plen k ≤ se.pos.toNat + 1 ∧ 36 ≤ se.sym.toNat ∧ 12 ≤ se.rep.toNat + 1 ∧
      se.advance k = { se with pos := 0, sym := 0, rep := 0, st := .fin }) := by
  have hn : Config.nbits = 36 := rfl
  have hr : Config.repeatCount = 12 := rfl
  by_cases h1 : se.pos.toNat + 1 < plen k
  · exact .inl ⟨h1, by rw [SE.advance, if_pos h1]⟩
  · by_cases h2 : se.sym.toNat < 36
    · exact .inr (.inl ⟨by omega, h2, by rw [SE.advance, if_neg h1, hn, if_pos h2]⟩)
    · by_cases h3 : se.rep.toNat + 1 < 12
      · exact .inr (.inr (.inl ⟨by omega, by omega, h3,
          by rw [SE.advance, if_neg h1, hn, if_neg h2, hr, if_pos h3]⟩))
      · exact .inr (.inr (.inr ⟨by omega, by omega, by omega,
          by rw [SE.advance, if_neg h1, hn, if_neg h2, hr, if_neg h3]⟩))

/-- Which token SE offers, and when (R110). -/
theorem State.coOffer_cases {s : State} {t : ChipTok} (h : s.coOffer = some t) :
    s.ports.rst = false ∧
      ((s.se.st = .run ∧ s.seqInRange = true ∧ t = .chip (pchip s.kind s.se.pos.toNat) ∧
          s.seAfter = s.se.advance s.kind) ∨
       (s.se.st = .fin ∧ s.seqInRange = true ∧ t = .fin false ∧ s.seAfter = { s.se with st := .idle })) := by
  unfold State.coOffer at h
  split at h
  · cases h
  · refine ⟨by simp_all, ?_⟩
    split at h
    · cases h; simp_all [State.seAfter]
    · cases h; simp_all [State.seAfter]
    all_goals cases h

/-- Outside the sequencer's ranges SE offers no token (R78). -/
theorem State.coOffer_of_out_of_range {s : State} (h : s.seqInRange = false) : s.coOffer = none := by
  simp [State.coOffer, h]

/-- The wires `co_tok` show the token SE offers (R110). -/
theorem State.coTok_of_offer {s : State} {t : ChipTok} (h : s.coOffer = some t) : s.coTok = t.toBits := by
  obtain ⟨-, ⟨hs, hrange, rfl, -⟩ | ⟨hs, -, rfl, -⟩⟩ := State.coOffer_cases h
  · have hc : s.atChip = true := by
      unfold State.seqInRange at hrange
      rw [decide_eq_true_eq] at hrange
      exact decide_eq_true hrange.2
    simp [State.coTok, hs, hc]
  · simp [State.coTok, hs]

/-- The range of the sequencer, spelled out (R32 item 2). -/
theorem State.seqInRange_iff (s : State) :
    s.seqInRange = true ↔ s.se.rep.toNat < 12 ∧ s.se.sym.toNat ≤ 36 ∧ s.se.pos.toNat < plen s.kind := by
  unfold State.seqInRange
  rw [decide_eq_true_eq]
  exact Iff.rfl

/-- At the sequencer's rest position it is inside its ranges, whatever NF holds. -/
theorem State.seqInRange_of_rest {s : State} (hr : s.se.rep = 0) (hs : s.se.sym = 0) (hp : s.se.pos = 0) :
    s.seqInRange = true := by
  simp [State.seqInRange, State.kind, symKind, hr, hs, hp, Config.repeatCount, plen, pattern, Config.syncPat]

/-- Where PE sees a token, and which (R181, R188). -/
theorem State.ciOffer_cases {s : State} {t : ChipTok} (h : s.ciOffer = some t) :
    s.ports.rst = false ∧
      ((s.wiring = .top ∧ s.ports.tapReady = true ∧ s.coOffer = some t) ∨
       (s.wiring = .peAlone ∧ s.ports.ciValid = true ∧ s.ports.ciTok = t)) := by
  unfold State.ciOffer at h
  split at h
  · split at h
    · exact ⟨(coOffer_cases h).1, .inl ⟨by assumption, by assumption, h⟩⟩
    · cases h
  · cases h
  · split at h
    · cases h
    · split at h
      · cases h; simp_all
      · cases h

/-! ### Transfers -/

/-- The fields after a transfer to PE (R51). -/
theorem State.ciCommit_eq (s : State) (t : ChipTok) (p : PE) (out : Option Pulse) :
    s.ciCommit t p out =
      { s with
        pe := p
        chipLog := s.chipLog ++ [.tok t]
        pulseLog := s.pulseLog ++ out.toList.map .pulse
        se := if s.wiring = .top then s.seAfter else s.se
        ports := if s.wiring = .peAlone then { s.ports with ciValid := false } else s.ports } := by
  cases hw : s.wiring <;>
    simp [State.ciCommit, State.setPe, State.logChip, State.logPulses, State.setSe, State.setPorts, hw]

/-- A transfer to PE happens whole or not at all (R51). -/
theorem State.ciTransfer_cases (s : State) :
    s.ciTransfer = s ∨
      ∃ t p out, s.ciOffer = some t ∧ s.ciReady = true ∧ s.pe.take t = some (p, out) ∧
        s.ciTransfer = s.ciCommit t p out := by
  unfold State.ciTransfer
  split
  · split
    · split
      · exact .inr ⟨_, _, _, by assumption, by assumption, by assumption, rfl⟩
      · exact .inl rfl
    · exact .inl rfl
  · exact .inl rfl

/-- Where PE accepts the token it sees, the transfer happens. -/
theorem State.ciTransfer_of_ready {s : State} {t : ChipTok} {p : PE} {out : Option Pulse}
    (ho : s.ciOffer = some t) (hr : s.ciReady = true) (ht : s.pe.take t = some (p, out)) :
    s.ciTransfer = s.ciCommit t p out := by
  simp [State.ciTransfer, ho, hr, ht]

end Sys2Proof.Machine
end

