-- ==== Sys2Proof/Laws/PerInstr.lean ====
section
/-! SUPPORT. A family of statements made per instruction: the encoder gives each row the width and the fixed bits that
spec/opcode_table.json gives it, transcribed here a second time, row by row, from the table's "width", "mask" and
"match". -/

namespace Sys2Proof.Laws.FixedBits

open Sys2Proof

/-- A row of the opcode table: its width, its mask and the bits under the mask. -/
structure Row where
  width : Nat
  mask : Nat
  bits : Nat
deriving DecidableEq, Repr

/-- The table's row of each instruction. -/
def row : Instr → Row
  | .sync => ⟨9, 0x1FF, 0x100⟩
  | .bit0 => ⟨3, 0x7, 0x4⟩
  | .bit1 => ⟨5, 0x1F, 0x10⟩
  | .nfw _ => ⟨36, 0, 0⟩
  | .chip0 => ⟨2, 0x3, 0x0⟩
  | .chip1 => ⟨2, 0x3, 0x1⟩
  | .endTok _ => ⟨2, 0x2, 0x2⟩
  | .pulse _ _ => ⟨33, 0, 0⟩
  | .seLoad => ⟨2, 0x3, 0x0⟩
  | .seEmit => ⟨2, 0x3, 0x1⟩
  | .seEndtok => ⟨2, 0x3, 0x2⟩
  | .seReserved => ⟨2, 0x3, 0x3⟩
  | .peFirst _ _ => ⟨6, 0x3A, 0x00⟩
  | .peSame0 => ⟨6, 0x3F, 0x02⟩
  | .peSame1 => ⟨6, 0x3F, 0x07⟩
  | .peFlipUp => ⟨6, 0x3F, 0x06⟩
  | .peFlipDown => ⟨6, 0x3F, 0x03⟩
  | .peFinishEmpty _ _ => ⟨6, 0x3A, 0x08⟩
  | .peFinishLow _ => ⟨6, 0x3B, 0x0A⟩
  | .peFinishHigh _ => ⟨6, 0x3B, 0x0B⟩
  | .peTrail _ _ _ _ => ⟨6, 0x30, 0x10⟩
  | .peOvf0 => ⟨6, 0x3F, 0x02⟩
  | .peOvf1 => ⟨6, 0x3F, 0x07⟩
  | .peHoldFault _ _ _ _ => ⟨6, 0x30, 0x20⟩
  | .peReserved _ _ _ _ => ⟨6, 0x30, 0x30⟩
  | .fork => ⟨3, 0x7, 0x7⟩
  | .offer _ => ⟨37, 0x1000000000, 0x1000000000⟩
  | .reset => ⟨1, 0x1, 0x1⟩

/-- The number that a chip list stands for in the table: the leftmost chip is its most significant bit. -/
def chipsNumber (chips : List Bool) : Nat := chips.foldl (fun n c => 2 * n + c.toNat) 0

/-- A word of `n` bits fits a row. -/
def fits {n : Nat} (w : BitVec n) (r : Row) : Prop :=
  n = r.width ∧ w &&& BitVec.ofNat n r.mask = BitVec.ofNat n r.bits

/-- A coded word fits a row. -/
def codeFits : Code → Row → Prop
  | .sym chips, r => chips.length = r.width ∧ chipsNumber chips &&& r.mask = r.bits
  | .nfw w, r => fits w r
  | .ctok w, r => fits w r
  | .ptok w, r => fits w r
  | .ssel w, r => fits w r
  | .psel w _, r => fits w r
  | .forksel w, r => fits w r
  | .nfport w, r => fits w r
  | .rst w, r => fits w r

/-- The encoding of an instruction has the width and the fixed bits of its row. -/
def Statement (i : Instr) : Prop := codeFits (encode i) (row i)

theorem sync : Statement .sync := ⟨rfl, rfl⟩
theorem bit0 : Statement .bit0 := ⟨rfl, rfl⟩
theorem bit1 : Statement .bit1 := ⟨rfl, rfl⟩
theorem nfw (w : BitVec 36) : Statement (.nfw w) := ⟨rfl, by simp [row]⟩
theorem chip0 : Statement .chip0 := ⟨rfl, rfl⟩
theorem chip1 : Statement .chip1 := ⟨rfl, rfl⟩
theorem endTok (x : Bool) : Statement (.endTok x) := by cases x <;> exact ⟨rfl, rfl⟩
theorem pulse (last : Bool) (data : BitVec 32) : Statement (.pulse last data) := ⟨rfl, by simp [row]⟩
theorem seLoad : Statement .seLoad := ⟨rfl, rfl⟩
theorem seEmit : Statement .seEmit := ⟨rfl, rfl⟩
theorem seEndtok : Statement .seEndtok := ⟨rfl, rfl⟩
theorem seReserved : Statement .seReserved := ⟨rfl, rfl⟩
theorem peFirst (c x : Bool) : Statement (.peFirst c x) := by cases c <;> cases x <;> exact ⟨rfl, rfl⟩
theorem peSame0 : Statement .peSame0 := ⟨rfl, rfl⟩
theorem peSame1 : Statement .peSame1 := ⟨rfl, rfl⟩
theorem peFlipUp : Statement .peFlipUp := ⟨rfl, rfl⟩
theorem peFlipDown : Statement .peFlipDown := ⟨rfl, rfl⟩
theorem peFinishEmpty (x y : Bool) : Statement (.peFinishEmpty x y) := by cases x <;> cases y <;> exact ⟨rfl, rfl⟩
theorem peFinishLow (x : Bool) : Statement (.peFinishLow x) := by cases x <;> exact ⟨rfl, rfl⟩
theorem peFinishHigh (x : Bool) : Statement (.peFinishHigh x) := by cases x <;> exact ⟨rfl, rfl⟩
theorem peTrail (w x y z : Bool) : Statement (.peTrail w x y z) := by
  cases w <;> cases x <;> cases y <;> cases z <;> exact ⟨rfl, rfl⟩
theorem peOvf0 : Statement .peOvf0 := ⟨rfl, rfl⟩
theorem peOvf1 : Statement .peOvf1 := ⟨rfl, rfl⟩
theorem peHoldFault (w x y z : Bool) : Statement (.peHoldFault w x y z) := by
  cases w <;> cases x <;> cases y <;> cases z <;> exact ⟨rfl, rfl⟩
theorem peReserved (w x y z : Bool) : Statement (.peReserved w x y z) := by
  cases w <;> cases x <;> cases y <;> cases z <;> exact ⟨rfl, rfl⟩
theorem fork : Statement .fork := ⟨rfl, rfl⟩
theorem offer (w : BitVec 36) : Statement (.offer w) := by
  refine ⟨rfl, ?_⟩
  show (BitVec.ofBool true ++ w) &&& 0x1000000000#(1 + 36) = 0x1000000000#(1 + 36)
  have hmask : (0x1000000000#(1 + 36)) = BitVec.ofBool true ++ 0#36 := by decide
  rw [hmask]
  ext k hk
  simp only [BitVec.getElem_and, BitVec.getElem_append]
  split <;> simp
theorem reset : Statement .reset := ⟨rfl, rfl⟩

end Sys2Proof.Laws.FixedBits
end

