-- ==== Sys2Proof/Laws/Symbols.lean ====
section
/-! SUPPORT. The small lemmas of the symbol table, of the sequencer's view of it, of the sequencer's counters and of the
accumulator's four constants. -/

namespace Sys2Proof.Machine

/-! ### The symbol table (R72) -/

theorem plen_sync : plen .sync = 9 := rfl
theorem plen_bit0 : plen .bit0 = 3 := rfl
theorem plen_bit1 : plen .bit1 = 5 := rfl

theorem plen_pos (k : Sym) : 0 < plen k := by cases k <;> decide

theorem three_le_plen (k : Sym) : 3 ≤ plen k := by cases k <;> decide

theorem plen_le (k : Sym) : plen k ≤ 9 := by cases k <;> decide

theorem pchip_zero (k : Sym) : pchip k 0 = true := by cases k <;> rfl

theorem pchip_pos {k : Sym} {p : Nat} (h : 1 ≤ p) (hp : p < plen k) : pchip k p = false := by
  cases k <;> (revert p; decide)

/-- A pattern from position `p` on is the chip at `p`, then the pattern from `p + 1` on. -/
theorem pattern_drop {k : Sym} {p : Nat} (h : p < plen k) :
    (pattern k).drop p = pchip k p :: (pattern k).drop (p + 1) := by
  have h' : p < (pattern k).length := h
  rw [List.drop_eq_getElem_cons h']
  simp [pchip, List.getElem?_eq_getElem h']

/-- A pattern is one high chip and then low chips. -/
theorem pattern_eq (k : Sym) : pattern k = true :: List.replicate (plen k - 1) false := by cases k <;> rfl

/-! ### Where the sequencer stands (R73) -/

theorem State.nfw_of_held {s : State} (h : s.se.nfHeld = true) : s.nfw = s.se.nf := by simp [State.nfw, h]

theorem State.kind_of_held {s : State} (h : s.se.nfHeld = true) : s.kind = symKind s.se.sym s.se.nf := by
  rw [State.kind, State.nfw_of_held h]

/-- The symbol read depends on SE's registers and the free value's counter only. -/
theorem State.kind_congr {s t : State} (h : t.se = s.se) (hr : t.resets = s.resets) : t.kind = s.kind := by
  simp [State.kind, State.nfw, h, hr]

theorem symKind_zero (w : NfWord) : symKind 0 w = .sync := rfl

/-! ### The counters: no increment wraps inside the ranges (R155 (d)) -/

theorem pos_succ_toNat {x : BitVec 4} (h : x.toNat < 15) : (x + 1).toNat = x.toNat + 1 := by
  rw [BitVec.toNat_add]; simp; omega

theorem sym_succ_toNat {x : BitVec 6} (h : x.toNat < 63) : (x + 1).toNat = x.toNat + 1 := by
  rw [BitVec.toNat_add]; simp; omega

/-! ### The accumulator after one chip (R141) -/

@[simp] theorem accOf_500_toInt : (accOf 500).toInt = 500 := by decide
@[simp] theorem accOf_neg_500_toInt : (accOf (-500)).toInt = -500 := by decide

/-! ### The transfer to PE, field by field (R51, R181) -/

@[simp] theorem State.ciCommit_pe (s : State) (t : ChipTok) (p : PE) (out : Option Pulse) :
    (s.ciCommit t p out).pe = p := by rw [State.ciCommit_eq]

@[simp] theorem State.ciCommit_wiring (s : State) (t : ChipTok) (p : PE) (out : Option Pulse) :
    (s.ciCommit t p out).wiring = s.wiring := by rw [State.ciCommit_eq]

@[simp] theorem State.ciCommit_chipLog (s : State) (t : ChipTok) (p : PE) (out : Option Pulse) :
    (s.ciCommit t p out).chipLog = s.chipLog ++ [.tok t] := by rw [State.ciCommit_eq]

@[simp] theorem State.ciCommit_pulseLog (s : State) (t : ChipTok) (p : PE) (out : Option Pulse) :
    (s.ciCommit t p out).pulseLog = s.pulseLog ++ out.toList.map .pulse := by rw [State.ciCommit_eq]

@[simp] theorem State.ciCommit_nfLog (s : State) (t : ChipTok) (p : PE) (out : Option Pulse) :
    (s.ciCommit t p out).nfLog = s.nfLog := by rw [State.ciCommit_eq]

@[simp] theorem State.ciCommit_turns (s : State) (t : ChipTok) (p : PE) (out : Option Pulse) :
    (s.ciCommit t p out).turns = s.turns := by rw [State.ciCommit_eq]

@[simp] theorem State.ciCommit_resets (s : State) (t : ChipTok) (p : PE) (out : Option Pulse) :
    (s.ciCommit t p out).resets = s.resets := by rw [State.ciCommit_eq]

theorem State.ciCommit_se (s : State) (t : ChipTok) (p : PE) (out : Option Pulse) :
    (s.ciCommit t p out).se = if s.wiring = .top then s.seAfter else s.se := by rw [State.ciCommit_eq]

/-- A transfer to PE is `State.moved`. -/
theorem State.ciCommit_moved (s : State) (t : ChipTok) (p : PE) (out : Option Pulse) :
    s.ciCommit t p out = s.moved t p out.toList := by rw [State.ciCommit_eq]; rfl

end Sys2Proof.Machine
end

