-- ==== Sys2Proof/Laws/Reference.lean ====
section
/-! SUPPORT. The small lemmas of the reference functions: one entry more of a log, one chip more of a scan, one position
more of the sequencer. -/

namespace Sys2Proof.Machine

/-! ### The logs (R60) -/

theorem chipArtifacts_snoc (l : List ChipEvent) (e : ChipEvent) :
    chipArtifacts (l ++ [e]) = (chipArtifacts l).chip e := by simp [chipArtifacts]

theorem pulseArtifacts_snoc (l : List PulseEvent) (e : PulseEvent) :
    pulseArtifacts (l ++ [e]) = (pulseArtifacts l).pulse e := by simp [pulseArtifacts]

theorem latched_snoc (l : List NfEvent) (e : NfEvent) : latched (l ++ [e]) = (latched l).add e := by simp [latched]

@[simp] theorem Artifacts.complete_past {α : Type} (a : Artifacts α) (l : List α) : (a.complete l).past = a.past := rfl
@[simp] theorem Artifacts.complete_done {α : Type} (a : Artifacts α) (l : List α) :
    (a.complete l).done = a.done ++ [l] := rfl
@[simp] theorem Artifacts.complete_part {α : Type} (a : Artifacts α) (l : List α) : (a.complete l).part = [] := rfl
@[simp] theorem Artifacts.cut_past {α : Type} (a : Artifacts α) : a.cut.past = a.past ++ [a.done] := rfl
@[simp] theorem Artifacts.cut_done {α : Type} (a : Artifacts α) : a.cut.done = [] := rfl
@[simp] theorem Artifacts.cut_part {α : Type} (a : Artifacts α) : a.cut.part = [] := rfl

/-- A marker keeps every completed list and its number (R60). -/
@[simp] theorem Artifacts.cut_all {α : Type} (a : Artifacts α) : a.cut.all = a.all := by simp [Artifacts.all]

@[simp] theorem Artifacts.complete_all {α : Type} (a : Artifacts α) (l : List α) :
    (a.complete l).all = a.all ++ [l] := by simp [Artifacts.all]

/-! ### The scan (R140) -/

theorem scanChips_snoc (l : List Bool) (c : Bool) : scanChips (l ++ [c]) = (scanChips l).chip c := by
  simp [scanChips]

/-! ### The symbols of a frame (R80) -/

theorem frameBits_length (w : NfWord) : (frameBits w).length = 36 := by simp [frameBits, Config.nbits]

theorem symbols_length (w : NfWord) : (symbols w).length = 37 := by simp [symbols, frameBits_length]

/-- The symbol at place `n` of a frame is the one the sequencer value `n` stands for (R73). -/
theorem symbols_getElem? (w : NfWord) {n : Nat} (h : n ≤ 36) :
    (symbols w)[n]? = some (symKind (BitVec.ofNat 6 n) w) := by
  unfold symbols
  cases n with
  | zero => rfl
  | succ n =>
    have h36 : n < Config.nbits := by
      have : Config.nbits = 36 := rfl
      omega
    have hne : BitVec.ofNat 6 (n + 1) ≠ 0 := by
      intro hx
      have := congrArg BitVec.toNat hx
      simp at this
      omega
    have hn : (BitVec.ofNat 6 (n + 1)).toNat = n + 1 := by simp; omega
    simp only [symKind, hne, if_false, hn]
    simp [frameBits, List.getElem?_range h36, frameBit]

/-! ### The chips before a sequencer position (R82) -/

theorem chipsBefore_next_pos (w : NfWord) (rep sym pos : Nat) (h : pos < plen (symKind (BitVec.ofNat 6 sym) w)) :
    chipsBefore w rep sym (pos + 1) =
      chipsBefore w rep sym pos ++ [pchip (symKind (BitVec.ofNat 6 sym) w) pos] := by
  have h' : pos < (pattern (symKind (BitVec.ofNat 6 sym) w)).length := h
  have ht : (pattern (symKind (BitVec.ofNat 6 sym) w)).take (pos + 1) =
      (pattern (symKind (BitVec.ofNat 6 sym) w)).take pos ++ [pchip (symKind (BitVec.ofNat 6 sym) w) pos] := by
    rw [List.take_add_one]
    simp [pchip, List.getElem?_eq_getElem h']
  unfold chipsBefore
  rw [ht]
  simp

theorem chipsBefore_next_sym (w : NfWord) (rep : Nat) {sym : Nat} (hs : sym ≤ 36) :
    chipsBefore w rep (sym + 1) 0 = chipsBefore w rep sym (plen (symKind (BitVec.ofNat 6 sym) w)) := by
  have ht : (pattern (symKind (BitVec.ofNat 6 sym) w)).take (plen (symKind (BitVec.ofNat 6 sym) w)) =
      pattern (symKind (BitVec.ofNat 6 sym) w) := List.take_length
  unfold chipsBefore
  rw [ht, List.take_add_one, symbols_getElem? w hs]
  simp [chipsOf]

theorem chipsBefore_next_rep (w : NfWord) (rep : Nat) : chipsBefore w (rep + 1) 0 0 = chipsBefore w rep 37 0 := by
  have ht : (symbols w).take 37 = symbols w := List.take_of_length_le (by rw [symbols_length])
  unfold chipsBefore
  rw [ht]
  simp [List.replicate_succ', frame, chipsOf]

theorem chipsBefore_all (w : NfWord) : chipsBefore w 12 0 0 = chipseq w := by
  simp [chipsBefore, chipseq, chipsOf, Config.repeatCount]

end Sys2Proof.Machine
end

