-- ==== Sys2Proof/Laws/Steps.lean ====
section
/-! SUPPORT. Everything an instruction or a step can do, said once: a step is a chain of the few atomic moves below (none
where nothing is enabled), or a reset. Invariants are proved move by move. -/

namespace Sys2Proof.Machine

/-- The atomic moves of the machine other than RESET: one transfer on one stream, one drive of an input port by the
environment, the trailer, the fault. -/
inductive Move (s : State) : State → Prop
  /-- HOST drives the `nf` port (R182). -/
  | driveNf (w : NfWord) : Move s (s.driveNf w)
  /-- SE.LOAD (R101). -/
  | load (hr : s.nfReady = true) (hv : s.ports.nfValid = true) :
      Move s (((s.setSe (SE.latch s.ports.nfData)).logNf (.word s.ports.nfData)).setPorts
        { s.ports with nfValid := false })
  /-- A token of SE goes to the outside consumer (SE alone). -/
  | toConsumer (t : ChipTok) (hw : s.wiring = .seAlone) (ho : s.coOffer = some t) (hr : s.ports.coReady = true) :
      Move s (s.coCommit t)
  /-- A token goes to PE (and in TOP to TAP). -/
  | toPe (t : ChipTok) (p : PE) (out : Option Pulse) (ho : s.ciOffer = some t) (ht : s.pe.take t = some (p, out))
      (hp : out ≠ none → s.ports.poReady = true) : Move s (s.ciCommit t p out)
  /-- CHIPSRC drives the `ci` port (PE alone). -/
  | driveCi (t : ChipTok) (hw : s.wiring = .peAlone) : Move s (s.driveCi t)
  /-- PE.TRAIL (R148). -/
  | trail (hs : s.pe.st = .trail) (hr : s.ports.rst = false) (hp : s.ports.poReady = true) :
      Move s ((s.setPe s.pe.leaveTrail).logPulses [.pulse trailer])
  /-- PE.OVF (R149). -/
  | overflow (t : ChipTok) (ho : s.ciOffer = some t) (hv : s.pe.overflowPending t = true) : Move s s.raiseAccOverflow

/-- A chain of moves. -/
abbrev Moves : State → State → Prop := Relation.ReflTransGen Move

theorem Moves.refl (s : State) : Moves s s := Relation.ReflTransGen.refl

theorem Move.moves {s t : State} (h : Move s t) : Moves s t := Relation.ReflTransGen.single h

/-- A consumed token needs `po` exactly where it emits (R77, R150). -/
theorem needsPo_of_take {s : State} {t : ChipTok} {p : PE} {out : Option Pulse} (ho : s.ciOffer = some t)
    (ht : s.pe.take t = some (p, out)) : s.needsPo = out.isSome := by
  obtain ⟨hs, h⟩ := PE.take_cases ht
  rcases h with ⟨c, rfl, hv, -, rfl⟩ | ⟨c, rfl, hv, hc, -, -, rfl⟩ | ⟨c, rfl, hv, hc, -, rfl⟩ | ⟨x, rfl, -, -, rfl⟩ |
    ⟨x, rfl, -, -, -, rfl⟩ | ⟨x, rfl, -, -, -, rfl⟩ <;> simp_all [State.needsPo]

theorem ciTransfer_moves (s : State) : Moves s s.ciTransfer := by
  rcases s.ciTransfer_cases with h | ⟨t, p, out, ho, hr, ht, h⟩
  · rw [h]
  · rw [h]
    refine (Move.toPe t p out ho ht fun hn => ?_).moves
    have hneed := needsPo_of_take ho ht
    cases out with
    | none => exact absurd rfl hn
    | some o => simp_all [State.ciReady]

theorem coTransfer_moves (s : State) : Moves s s.coTransfer := by
  unfold State.coTransfer
  split
  · exact ciTransfer_moves s
  · split
    · split
      · refine (Move.toConsumer _ (by assumption) (by assumption) ?_).moves
        simp_all [State.coReady]
      · exact .refl s
    · exact .refl s
  · exact .refl s

theorem nfTransfer_moves (s : State) : Moves s s.nfTransfer := by
  unfold State.nfTransfer
  split
  · rename_i h
    rw [Bool.and_eq_true] at h
    exact (Move.load h.1 h.2).moves
  · exact .refl s

theorem emitSteps_moves (n : Nat) (s : State) : Moves s (State.emitSteps n s) := by
  induction n generalizing s with
  | zero => exact .refl s
  | succ n ih =>
    unfold State.emitSteps
    split
    · exact (coTransfer_moves s).trans (ih _)
    · exact ih _

theorem emitSymbol_moves (s : State) (k : Sym) : Moves s (s.emitSymbol k) := by
  unfold State.emitSymbol
  split
  · exact emitSteps_moves _ s
  · exact .refl s

theorem moveToken_moves (s : State) (t : ChipTok) : Moves s (s.moveToken t) := by
  unfold State.moveToken
  split
  · exact (Move.driveCi t (by assumption)).moves.trans (ciTransfer_moves _)
  all_goals
    split
    · exact coTransfer_moves s
    · exact .refl s

theorem sendTrailer_moves (s : State) : Moves s s.sendTrailer := by
  unfold State.sendTrailer
  split
  · rename_i h
    exact (Move.trail h.1 h.2.1 h.2.2).moves
  · exact .refl s

/-- Everything an instruction can do: RESET, or a chain of moves. -/
theorem exec_moves {i : Instr} {s t : State} (h : exec i s = .next t) :
    (i = .reset ∧ t = s.takeReset) ∨ Moves s t := by
  cases i <;> simp only [exec] at h
  case reset => cases h; exact .inl ⟨rfl, rfl⟩
  all_goals right
  case sync => cases h; exact emitSymbol_moves s _
  case bit0 => cases h; exact emitSymbol_moves s _
  case bit1 => cases h; exact emitSymbol_moves s _
  case nfw w => cases h; exact (Move.driveNf w).moves.trans (nfTransfer_moves _)
  case chip0 => cases h; exact moveToken_moves s _
  case chip1 => cases h; exact moveToken_moves s _
  case endTok => cases h; exact moveToken_moves s _
  case pulse =>
    unfold execPulse at h
    split at h
    · cases h
      split
      · exact sendTrailer_moves s
      · exact ciTransfer_moves s
    · cases h; exact .refl s
  case seLoad => cases h; exact nfTransfer_moves s
  case seEmit => unfold execSeEmit at h; split at h <;> cases h; exacts [coTransfer_moves s, .refl s]
  case seEndtok => unfold execSeEndtok at h; split at h <;> cases h; exacts [coTransfer_moves s, .refl s]
  case seReserved => cases h; exact .refl s
  case peFirst =>
    unfold execPeFirst at h
    split at h
    · cases h
      refine (Move.toPe _ _ _ (by simp_all) ?_ (by simp)).moves
      simp_all [PE.take]
    · cases h; exact .refl s
  case peSame0 =>
    unfold execPeSame0 at h
    split at h
    · split at h
      · cases h
        refine (Move.toPe _ _ _ (by simp_all) ?_ (by simp)).moves
        simp_all [PE.take]
      · cases h
        refine (Move.overflow (.chip false) (by simp_all) ?_).moves
        simp_all [PE.overflowPending]
    · cases h; exact .refl s
  case peSame1 =>
    unfold execPeSame1 at h
    split at h
    · split at h
      · cases h
        refine (Move.toPe _ _ _ (by simp_all) ?_ (by simp)).moves
        simp_all [PE.take]
      · cases h
        refine (Move.overflow (.chip true) (by simp_all) ?_).moves
        simp_all [PE.overflowPending]
    · cases h; exact .refl s
  case peFlipUp =>
    unfold execPeFlipUp at h
    split at h
    · cases h
      refine (Move.toPe _ _ _ (by simp_all) ?_ (by simp_all)).moves
      simp_all [PE.take]
    · cases h; exact .refl s
  case peFlipDown =>
    unfold execPeFlipDown at h
    split at h
    · cases h
      refine (Move.toPe _ _ _ (by simp_all) ?_ (by simp_all)).moves
      simp_all [PE.take]
    · cases h; exact .refl s
  case peFinishEmpty =>
    unfold execPeFinishEmpty at h
    split at h
    · split at h
      · cases h
        refine (Move.toPe _ _ _ (by assumption) ?_ (by simp_all)).moves
        simp_all [PE.take]
      · cases h; exact .refl s
    all_goals cases h; exact .refl s
  case peFinishLow =>
    unfold execPeFinishLow at h
    split at h
    · split at h
      · cases h
        refine (Move.toPe _ _ _ (by assumption) ?_ (by simp_all)).moves
        simp_all [PE.take]
      · cases h; exact .refl s
    all_goals cases h; exact .refl s
  case peFinishHigh =>
    unfold execPeFinishHigh at h
    split at h
    · split at h
      · cases h
        refine (Move.toPe _ _ _ (by assumption) ?_ (by simp_all)).moves
        simp_all [PE.take]
      · cases h; exact .refl s
    all_goals cases h; exact .refl s
  case peTrail => cases h; exact sendTrailer_moves s
  case peOvf0 =>
    unfold execPeOvf0 at h
    split at h
    · rename_i hg
      cases h
      exact (Move.overflow _ hg.1 hg.2.2).moves
    · cases h; exact .refl s
  case peOvf1 =>
    unfold execPeOvf1 at h
    split at h
    · rename_i hg
      cases h
      exact (Move.overflow _ hg.1 hg.2.2).moves
    · cases h; exact .refl s
  case peHoldFault => cases h; exact .refl s
  case peReserved => cases h; exact .refl s
  case fork => unfold execFork at h; split at h <;> cases h; exacts [coTransfer_moves s, .refl s]
  case offer w => cases h; exact (Move.driveNf w).moves

/-- Everything a step can do: nothing where the schedule is empty, else the turn's wires are driven and a reset or a
chain of moves follows. -/
theorem step_moves {s t : State} (h : step s = .next t) :
    (s.turns = [] ∧ t = s) ∨
      ∃ turn rest, s.turns = turn :: rest ∧
        (t = (s.beginTurn turn rest).takeReset ∨ Moves (s.beginTurn turn rest) t) := by
  unfold step State.runNext at h
  split at h
  · cases h; exact .inl ⟨by assumption, rfl⟩
  · rename_i turn rest hs
    refine .inr ⟨turn, rest, hs, ?_⟩
    unfold State.runTurn at h
    split at h
    · cases h; exact .inr (.refl _)
    · split at h
      · rcases exec_moves h with ⟨-, rfl⟩ | hm
        · exact .inl rfl
        · exact .inr hm
      · cases h; exact .inr (.refl _)

/-- Two states that a chain of moves joins stand in every relation that holds of a state and itself and that each move
carries on. -/
theorem Moves.rel {R : State → State → Prop} {s t : State} (h : Moves s t) (hrefl : R s s)
    (hmove : ∀ u v, R s u → Move u v → R s v) : R s t := by
  induction h with
  | refl => exact hrefl
  | tail _ hlast ih => exact hmove _ _ ih hlast

/-- What every instruction but RESET does between two states, from what a move does. -/
theorem exec_rel {R : State → State → Prop} {i : Instr} {s t : State} (hi : i ≠ .reset) (h : exec i s = .next t)
    (hrefl : R s s) (hmove : ∀ u v, R s u → Move u v → R s v) : R s t := by
  rcases exec_moves h with ⟨rfl, -⟩ | hm
  · exact absurd rfl hi
  · exact hm.rel hrefl hmove

/-- A property that RESET and every move keep is kept by every instruction. -/
theorem exec_keeps {P : State → Prop} (hreset : ∀ s, P s → P (State.takeReset s))
    (hmove : ∀ s t, P s → Move s t → P t) {i : Instr} {s t : State} (hs : P s) (h : exec i s = .next t) : P t := by
  rcases exec_moves h with ⟨-, rfl⟩ | hm
  · exact hreset _ hs
  · exact hm.rel (R := fun _ u => P u) hs hmove

/-- A property that the turn's wires, RESET and every move keep is kept by every step. -/
theorem step_keeps {P : State → Prop} (hturn : ∀ s turn rest, P s → P (State.beginTurn s turn rest))
    (hreset : ∀ s, P s → P (State.takeReset s)) (hmove : ∀ s t, P s → Move s t → P t) {s t : State} (hs : P s)
    (h : step s = .next t) : P t := by
  rcases step_moves h with ⟨-, rfl⟩ | ⟨turn, rest, -, rfl | hm⟩
  · exact hs
  · exact hreset _ (hturn _ _ _ hs)
  · exact hm.rel (R := fun _ u => P u) (hturn _ _ _ hs) hmove

end Sys2Proof.Machine
end

