-- ==== Sys2Proof/Tests/Slice0.lean ====
section
/-! SUPPORT. The model's own tests: ill-formed terms refused; words written out bit by bit from spec/30_encoding.md and
spec/opcode_table.json; single steps with the expected results of spec/95_test_vectors.md (V and P numbers in the
comments); and for every obligation with hypotheses a state and operands that meet them, clause by clause. -/

namespace Sys2Proof.Tests

open Sys2Proof Sys2Proof.Machine

/-! ### Well-formedness -/

/-- R78: a pulse of value 0 with `last = 0` is never emitted. -/
theorem test_wf_pulse : (Instr.pulse false 0).wf = false ∧ (Instr.pulse true 0).wf = true := by decide
/-- R72: exactly three symbols. -/
theorem test_wf_symbol : (Code.sym [true, false]).wf = false ∧ (Code.sym [true, false, false]).wf = true := by decide
/-- R149: the arithmetic condition stands beside the two patterns of SAME only. -/
theorem test_wf_selector : (Code.psel 0b000110#6 true).wf = false ∧ (Code.psel 0b000111#6 true).wf = true := by decide
/-- R78, U1: a frame with an element 16, or with eight elements, is refused. -/
theorem test_wf_nibbles : nibblesWf [15, 4, 8, 1, 0, 7, 16, 1, 4] = false ∧ nibblesWf [15, 4, 8, 1, 0, 7, 15, 1] = false ∧
    packNibbles [16, 0, 0, 0, 0, 0, 0, 0, 0] = none := by decide
/-- V1. -/
theorem test_pack : packNibbles [15, 4, 8, 1, 0, 7, 15, 1, 4] = some 0xF48107F14#36 ∧
    packNibbles [8, 0, 0, 0, 0, 0, 0, 0, 1] = some 0x800000001#36 := by decide
/-- R7: the constraints on the constants. -/
theorem test_config : Config.wf = true := by decide

/-! ### Decoding: words written out from the tables (R71 to R78) -/

theorem test_decode_sym :
    decode (.sym [true, false, false, false, false, false, false, false, false]) = .ok .sync ∧
    decode (.sym [true, false, false]) = .ok .bit0 ∧ decode (.sym [true, false, false, false, false]) = .ok .bit1 ∧
    decode (.sym [true, false, false, false]) = .error .notASymbol := by decide
theorem test_decode_nfw : decode (.nfw 0b111101001000000100000111111100010100#36) = .ok (.nfw 0xF48107F14#36) := by decide
theorem test_decode_ctok : decode (.ctok 0b00#2) = .ok .chip0 ∧ decode (.ctok 0b01#2) = .ok .chip1 ∧
    decode (.ctok 0b10#2) = .ok (.endTok false) ∧ decode (.ctok 0b11#2) = .ok (.endTok true) := by decide
/-- V5: `(-500)!` and `(500)`. -/
theorem test_decode_ptok : decode (.ptok 0b111111111111111111111111000001100#33) = .ok (.pulse true 0xFFFFFE0C#32) ∧
    decode (.ptok 0b000000000000000000000000111110100#33) = .ok (.pulse false 0x000001F4#32) := by decide
theorem test_decode_ssel : decode (.ssel 0b00#2) = .ok .seLoad ∧ decode (.ssel 0b01#2) = .ok .seEmit ∧
    decode (.ssel 0b10#2) = .ok .seEndtok ∧ decode (.ssel 0b11#2) = .ok .seReserved := by decide
theorem test_decode_psel_scan :
    decode (.psel 0b000100#6 false) = .ok (.peFirst true false) ∧
    decode (.psel 0b000001#6 false) = .ok (.peFirst false true) ∧
    decode (.psel 0b000010#6 false) = .ok .peSame0 ∧ decode (.psel 0b000111#6 false) = .ok .peSame1 ∧
    decode (.psel 0b000010#6 true) = .ok .peOvf0 ∧ decode (.psel 0b000111#6 true) = .ok .peOvf1 ∧
    decode (.psel 0b000110#6 false) = .ok .peFlipUp ∧ decode (.psel 0b000011#6 false) = .ok .peFlipDown := by decide
theorem test_decode_psel_end :
    decode (.psel 0b001000#6 false) = .ok (.peFinishEmpty false false) ∧
    decode (.psel 0b001101#6 false) = .ok (.peFinishEmpty true true) ∧
    decode (.psel 0b001010#6 false) = .ok (.peFinishLow false) ∧
    decode (.psel 0b001111#6 false) = .ok (.peFinishHigh true) ∧
    decode (.psel 0b011000#6 false) = .ok (.peTrail true false false false) ∧
    decode (.psel 0b100111#6 false) = .ok (.peHoldFault false true true true) ∧
    decode (.psel 0b110001#6 false) = .ok (.peReserved false false false true) := by decide
theorem test_decode_top :
    decode (.forksel 0b111#3) = .ok .fork ∧ decode (.forksel 0b011#3) = .error .noTransfer ∧
    decode (.nfport 0b1111101001000000100000111111100010100#37) = .ok (.offer 0xF48107F14#36) ∧
    decode (.nfport 0x0F48107F14#37) = .error .noOffer ∧
    decode (.rst 0b1#1) = .ok .reset ∧ decode (.rst 0b0#1) = .error .noReset := by decide

/-- Words of the opcode table in whole bytes, as the table numbers their bits. -/
theorem test_table_words :
    decodeTableWord 16 0x100 = some .sync ∧ decodeTableWord 8 0x4 = some .bit0 ∧
    decodeTableWord 8 0x10 = some .bit1 ∧ decodeTableWord 8 0x1 = some .reset ∧
    decodeTableWord 8 0x7 = some .fork ∧ decodeTableWord 8 0x3 = some .seReserved ∧
    decodeTableWord 8 0x0B = some (.peFinishHigh false) ∧ decodeTableWord 8 0x20 = some (.peHoldFault false false false false) ∧
    decodeTableWord 40 0x1F48107F14 = some (.offer 0xF48107F14#36) ∧ decodeTableWord 8 0x9F = none := by decide

/-! ### States for the tests -/

/-- SE in state `st` at `(rep, sym, pos)` with a word latched. -/
def se (st : SeSt) (rep : BitVec 4) (sym : BitVec 6) (pos : BitVec 4) (w : NfWord) : SE := ⟨st, w, true, rep, sym, pos⟩

/-- PE scanning, with no run in progress or with the run `(acc, pol)`. -/
def scan (acc : Int) (pol pv : Bool) : PE := ⟨.scan, accOf acc, pol, pv, false⟩

/-- TOP with the readiness of TAP and SINK. -/
def top (se : SE) (pe : PE) (tap po : Bool) : State :=
  { State.reset with se := se, pe := pe, ports := { Ports.quiet with tapReady := tap, poReady := po } }

/-- SE alone, its consumer ready or not, HOST offering a word or not. -/
def alone (se : SE) (co : Bool) (offer : Option NfWord) : State :=
  { State.reset with
    wiring := .seAlone, se := se
    ports := { Ports.quiet with coReady := co, nfValid := offer.isSome, nfData := offer.getD 0 } }

/-- PE alone, a token offered or not, SINK ready or not. -/
def pe (pe : PE) (tok : Option ChipTok) (po : Bool) : State :=
  { State.reset with
    wiring := .peAlone, pe := pe
    ports := { Ports.quiet with poReady := po, ciValid := tok.isSome, ciTok := tok.getD (.chip false) } }

/-- The instruction answers a next state of which the check holds. -/
def gives (i : Instr) (s : State) (check : State → Bool) : Bool :=
  match exec i s with
  | .next t => check t
  | .fault _ => false
  | .refused _ => false

/-- The frame of X1. -/
def x1 : NfWord := 0xF48107F14

/-! ### Symbols and streams -/

/-- V2, V3 in part: which symbol stands where. -/
theorem test_symkind : symKind 0 x1 = .sync ∧ symKind 1 x1 = .bit1 ∧ symKind 5 x1 = .bit0 ∧ symKind 34 x1 = .bit1 ∧
    symKind 36 x1 = .bit0 ∧ symKind 1 0x800000001 = .bit1 ∧ symKind 36 0x800000001 = .bit1 ∧
    symKind 35 0x800000001 = .bit0 := by decide
/-- P1, transfers 1 to 9: SYNC from the reset state of PE. -/
theorem test_sync : gives .sync (top (se .run 0 0 0 x1) (scan 0 false false) true true) (fun t =>
    t.se == se .run 0 1 0 x1 && t.pe == scan (-4000) false true && t.pulseLog == [.pulse ⟨500, false⟩]) = true := by decide
/-- V10: BIT0 after a sync pattern's low chips. -/
theorem test_bit0 : gives .bit0 (top (se .run 0 5 0 x1) (scan (-4000) false true) true true) (fun t =>
    t.se == se .run 0 6 0 x1 && t.pe == scan (-1000) false true &&
      t.pulseLog == [.pulse ⟨0xFFFFF060, false⟩, .pulse ⟨500, false⟩]) = true := by decide
/-- V10: BIT1 with SE alone; the last symbol of the twelfth frame ends the sequence (V13 case d, `FFFFFFFFF`). -/
theorem test_bit1 : gives .bit1 (alone (se .run 11 36 2 0xFFFFFFFFF) true none) (fun t =>
    t.se == se .fin 0 0 0 0xFFFFFFFFF &&
      t.chipLog == [.tok (.chip false), .tok (.chip false), .tok (.chip false)]) = true := by decide
theorem test_bit1_elsewhere :
    gives .bit1 (alone (se .run 0 5 0 x1) true none) (· == alone (se .run 0 5 0 x1) true none) = true := by decide
/-- V12: the word is latched; V12 (busy): it waits. -/
theorem test_nfw : gives (.nfw x1) (top SE.atReset PE.atReset true true) (fun t =>
    t.se == se .run 0 0 0 x1 && t.nfLog == [.word x1] && !t.ports.nfValid) = true := by decide
theorem test_nfw_waits : gives (.nfw 0xFFFFFFFFF) (top (se .run 3 17 1 x1) PE.atReset true true) (fun t =>
    t.se == se .run 3 17 1 x1 && t.nfLog == [] && t.ports.nfValid && t.ports.nfData == 0xFFFFFFFFF#36) = true := by decide
/-- V32. -/
theorem test_chip0 : gives .chip0 (pe (scan (-1500) false true) none true) (fun t =>
    t.pe == scan (-2000) false true && t.pulseLog == [] && t.chipLog == [.tok (.chip false)]) = true := by decide
/-- V30. -/
theorem test_chip1 : gives .chip1 (pe (scan 0 false false) none true) (fun t =>
    t.pe == scan 500 true true && t.pulseLog == []) = true := by decide
/-- V58: the non-canonical END. -/
theorem test_end : gives (.endTok true) (pe (scan (-1000) false true) none true) (fun t =>
    t.pe == scan 0 false false && t.pulseLog == [.pulse ⟨0xFFFFFC18, true⟩]) = true := by decide
/-- V65: SINK not accepting: END waits on `ci`. -/
theorem test_end_waits : gives (.endTok false) (pe (scan 1000 true true) none false) (fun t =>
    t.pe == scan 1000 true true && t.poValid && t.poData == 1000 && !t.poLast && t.ports.ciValid) = true := by decide
/-- V34: the pulse on the port. -/
theorem test_pulse : gives (.pulse false 0xFFFFF060) (pe (scan (-4000) false true) (some (.chip true)) true) (fun t =>
    t.pe == scan 500 true true && t.pulseLog == [.pulse ⟨0xFFFFF060, false⟩]) = true := by decide
/-- V66: nothing moves where SINK does not accept. -/
theorem test_pulse_waits : gives (.pulse true 0xFFFFFC18) (pe (scan (-1000) false true) (some (.fin false)) false) (fun t =>
    t == pe (scan (-1000) false true) (some (.fin false)) false && t.poValid && t.poLast) = true := by decide

/-! ### SE -/

/-- V12. -/
theorem test_load : gives .seLoad (alone SE.atReset true (some x1)) (fun t =>
    t.se == se .run 0 0 0 x1 && t.nfLog == [.word x1] && t.seBusy) = true := by decide
/-- V12 (busy); R78 (sym 40 is out of range). -/
theorem test_load_waits : gives .seLoad (alone (se .run 3 17 1 x1) true (some 0xFFFFFFFFF))
      (· == alone (se .run 3 17 1 x1) true (some 0xFFFFFFFFF)) = true ∧
    gives .seLoad (alone (se .idle 0 40 0 x1) true (some x1)) (· == alone (se .idle 0 40 0 x1) true (some x1)) = true := by
  decide
/-- V13, (0,1,4), case b. -/
theorem test_emit_b : gives .seEmit (alone (se .run 0 1 4 x1) true none) (fun t =>
    t.se == se .run 0 2 0 x1 && t.chipLog == [.tok (.chip false)]) = true := by decide
/-- V13, (10,36,2), case c; R78 (sym 40 is out of range). -/
theorem test_emit_c : gives .seEmit (alone (se .run 10 36 2 x1) true none) (fun t =>
      t.se == se .run 11 0 0 x1 && t.chipLog == [.tok (.chip false)]) = true ∧
    gives .seEmit (alone (se .run 0 40 0 x1) true none) (· == alone (se .run 0 40 0 x1) true none) = true := by decide
/-- V15. -/
theorem test_endtok : gives .seEndtok (alone (se .fin 0 0 0 x1) true none) (fun t =>
    t.se == se .idle 0 0 0 x1 && t.chipLog == [.tok (.fin false)] && !t.seBusy && t.nfReady) = true := by decide
/-- R106; R78 (sym 40 is out of range). -/
theorem test_endtok_waits : gives .seEndtok (alone (se .fin 0 0 0 x1) false none)
      (· == alone (se .fin 0 0 0 x1) false none) = true ∧
    gives .seEndtok (alone (se .fin 0 40 0 x1) true none) (· == alone (se .fin 0 40 0 x1) true none) = true := by decide
/-- R78. -/
theorem test_se_reserved : gives .seReserved (alone (se .reserved 0 0 0 x1) true (some 0))
    (· == alone (se .reserved 0 0 0 x1) true (some 0)) = true := by decide

/-! ### PE -/

/-- V31. -/
theorem test_first : gives (.peFirst false false) (pe (scan 0 false false) (some (.chip false)) false) (fun t =>
    t.pe == scan (-500) false true && t.pulseLog == []) = true := by decide
/-- V61. -/
theorem test_same0 : gives .peSame0 (pe (scan (-1500) false true) (some (.chip false)) false) (fun t =>
    t.pe == scan (-2000) false true && t.pulseLog == []) = true := by decide
/-- V70. -/
theorem test_same1 : gives .peSame1 (pe (scan 2147483000 true true) (some (.chip true)) true) (fun t =>
    t.pe == scan 2147483500 true true && !t.peFault) = true := by decide
/-- V34, V60. -/
theorem test_flip_up : gives .peFlipUp (pe (scan (-4000) false true) (some (.chip true)) true) (fun t =>
    t.pe == scan 500 true true && t.pulseLog == [.pulse ⟨0xFFFFF060, false⟩]) = true := by decide
theorem test_flip_up_waits : gives .peFlipUp (pe (scan (-4000) false true) (some (.chip true)) false) (fun t =>
    t == pe (scan (-4000) false true) (some (.chip true)) false && !t.ciReady && t.poValid && !t.poLast) = true := by decide
/-- V73. -/
theorem test_flip_down : gives .peFlipDown (pe (scan 2147483500 true true) (some (.chip false)) true) (fun t =>
    t.pe == scan (-500) false true && t.pulseLog == [.pulse ⟨0x7FFFFF6C, false⟩]) = true := by decide
/-- V36, X2. -/
theorem test_finish_empty : gives (.peFinishEmpty false false) (pe (scan 0 false false) (some (.fin false)) true) (fun t =>
    t.pe == scan 0 false false && t.pulseLog == [.pulse ⟨0, true⟩]) = true := by decide
/-- V37. -/
theorem test_finish_low : gives (.peFinishLow false) (pe (scan (-1000) false true) (some (.fin false)) true) (fun t =>
    t.pe == scan 0 false false && t.pulseLog == [.pulse ⟨0xFFFFFC18, true⟩]) = true := by decide
/-- V38, V74. -/
theorem test_finish_high : gives (.peFinishHigh false) (pe (scan 1500 true true) (some (.fin false)) true) (fun t =>
    t.pe == ⟨.trail, 0, false, false, false⟩ && t.pulseLog == [.pulse ⟨0x000005DC, false⟩] && t.peBusy) = true := by decide
/-- V39, V62: the offered chip is not consumed. -/
theorem test_trail : gives (.peTrail false true false false) (pe ⟨.trail, 0, false, false, false⟩ (some (.chip true)) true)
    (fun t => t.pe == scan 0 false false && t.pulseLog == [.pulse ⟨0xFFFFFE0C, true⟩] && t.ports.ciValid &&
      t.chipLog == []) = true := by decide
/-- V63. -/
theorem test_trail_waits : gives (.peTrail false false false false) (pe ⟨.trail, 0, false, false, false⟩ none false)
    (· == pe ⟨.trail, 0, false, false, false⟩ none false) = true := by decide
/-- V72. -/
theorem test_ovf0 : gives .peOvf0 (pe (scan (-2147483500) false true) (some (.chip false)) true) (fun t =>
    t.pe == ⟨.fault, accOf (-2147483500), false, true, true⟩ && t.ports.ciValid && t.pulseLog == []) = true := by decide
/-- V71. -/
theorem test_ovf1 : gives .peOvf1 (pe (scan 2147483500 true true) (some (.chip true)) true) (fun t =>
    t.pe == ⟨.fault, accOf 2147483500, true, true, true⟩ && t.peFault && t.recordedFault == some .accOverflow) = true := by
  decide
/-- V75. -/
theorem test_hold_fault : gives (.peHoldFault false true true true)
    (pe ⟨.fault, accOf 2147483500, true, true, true⟩ (some (.chip true)) true) (fun t =>
      t == pe ⟨.fault, accOf 2147483500, true, true, true⟩ (some (.chip true)) true && !t.ciReady && !t.poValid) = true := by
  decide
/-- R78. -/
theorem test_pe_reserved : gives (.peReserved false true true true) (pe ⟨.reserved, 5, true, true, false⟩ (some (.chip true)) true)
    (· == pe ⟨.reserved, 5, true, true, false⟩ (some (.chip true)) true) = true := by decide

/-! ### TOP and the host -/

/-- V80. -/
theorem test_fork : gives .fork (top (se .run 0 1 0 x1) (scan (-4000) false true) true true) (fun t =>
    t.se == se .run 0 1 1 x1 && t.pe == scan 500 true true && t.chipLog == [.tok (.chip true)] &&
      t.pulseLog == [.pulse ⟨0xFFFFF060, false⟩]) = true := by decide
/-- V82. -/
theorem test_fork_waits : gives .fork (top (se .run 0 1 0 x1) (scan (-4000) false true) true false) (fun t =>
    t == top (se .run 0 1 0 x1) (scan (-4000) false true) true false && !t.ciReady && !t.tapValid && t.poValid) = true := by
  decide
/-- V12, third row and R182. -/
theorem test_offer : gives (.offer x1) (alone (se .run 3 17 1 x1) true none) (fun t =>
    t.ports.nfValid && t.ports.nfData == x1 && t.se == se .run 3 17 1 x1) = true := by decide
/-- V91. -/
theorem test_reset : gives .reset (top (se .run 5 20 1 x1) (scan (-500) false true) true true) (fun t =>
    t.se.st == .idle && !t.se.nfHeld && t.pe == PE.atReset && t.chipLog == [.cut] && t.pulseLog == [.cut] &&
      !t.seBusy && !t.peBusy) = true := by decide
/-- V76, V92. -/
theorem test_reset_fault : gives .reset (pe ⟨.fault, accOf 2147483500, true, true, true⟩ none true) (fun t =>
    t.pe == PE.atReset && !t.peFault) = true ∧
    gives .reset (pe ⟨.trail, 0, false, false, false⟩ none true) (fun t => t.pulseLog == [.cut]) = true := by decide

/-- A word of the opcode table placed before the first step after reset runs its instruction. -/
theorem test_first_step_emits : (match step (State.reset.withFetchWord 16 0x100) with
    | .next t => t.chipLog.length == 9 && t.pe == scan (-4000) false true
    | .fault _ => false
    | .refused _ => false) = true := by decide
theorem test_first_step_finishes : (match step (State.reset.withFetchWord 8 0x0B) with
    | .next t => t.pe.st == .trail
    | .fault _ => false
    | .refused _ => false) = true := by decide

/-- R184: with PE alone a turn of TAP moves nothing, whatever SE offers; CHIPSRC's offer keeps waiting. -/
theorem test_tap_with_pe_alone :
    ({ pe (scan 0 false false) (some (.chip false)) false with se := se .run 0 0 0 x1 } : State).runTurn .tap =
      .next { pe (scan 0 false false) (some (.chip false)) false with se := se .run 0 0 0 x1 } := rfl

/-! ### The reference functions -/

/-- V40 to V50. -/
theorem test_rle : rle [] = [0] ∧ rle [false] = [-500] ∧ rle [true] = [500, -500] ∧ rle [true, false] = [500, -500] ∧
    rle [false, true] = [-500, 500, -500] ∧ rle [true, true, true, true] = [2000, -500] ∧
    rle [false, false, true, true, true, false, true] = [-1000, 1500, -500, 500, -500] ∧
    rle [false, true, true, false, false, false, true, true, true, true] = [-500, 1000, -1500, 2000, -500] := by decide
/-- V3: the first symbols of X1's frame; V11: nibble 4 as chips, most significant bit first. -/
theorem test_symbols : (symbols x1).take 9 = [.sync, .bit1, .bit1, .bit1, .bit1, .bit0, .bit1, .bit0, .bit0] ∧
    chipsOf [.bit0, .bit1, .bit0, .bit0] =
      [true, false, false, true, false, false, false, false, true, false, false, true, false, false] := by decide

/-- R60: a marker drops the list in progress and keeps the completed one with its number. -/
theorem test_artifacts : (chipArtifacts [.tok (.chip true), .tok (.fin false), .tok (.chip true), .cut, .tok (.chip false),
      .tok (.fin false)]).all = [[true], [false]] ∧
    (pulseArtifacts [.pulse ⟨500, false⟩, .pulse ⟨0xFFFFFE0C, true⟩, .pulse ⟨500, false⟩, .cut,
      .pulse ⟨0xFFFFFE0C, true⟩]).all = [[500, -500], [-500]] := by decide

/-! ### Witnesses: every obligation with hypotheses has a state and operands that meet them -/

/-- A turn in which `rst` is asserted, and one in which the sink moves. -/
def resetTurn : Turn := ⟨.se, true, false, false, false⟩
def sinkTurn : Turn := Turn.ready .sink

theorem witness_ResetOverridesEveryTurn :
    (State.reset.setTurns [resetTurn]).turns = [resetTurn] ∧ resetTurn.rst = true := by decide

/-- PE in `P_FAULT` (V75). -/
def faulted : State := pe ⟨.fault, accOf 2147483500, true, true, true⟩ (some (.chip true)) true

theorem witness_OnlyResetLeavesTheFault : faulted.pe.st = .fault ∧ Instr.chip0 ≠ .reset ∧ faulted.wiring ≠ .seAlone ∧
    exec .chip0 faulted = .next (faulted.driveCi (.chip false)) := ⟨rfl, by decide, by decide, rfl⟩

/-- V71 and V72. -/
def full (c : Bool) : State := pe (scan (if c then 2147483500 else -2147483500) c true) (some (.chip c)) true

theorem witness_OverflowRecordsTheFault :
    ((full true).ciOffer = some (.chip true) ∧ (full true).pe.st = .scan ∧ (full true).pe.pv = true ∧
      (full true).pe.pol = true ∧ (full true).pe.acc.toInt + 500 > 2147483647) ∧
    ((full false).ciOffer = some (.chip false) ∧ (full false).pe.st = .scan ∧ (full false).pe.pv = true ∧
      (full false).pe.pol = false ∧ (full false).pe.acc.toInt + -500 < -2147483648) := by decide

theorem witness_StepRunsTheDecodedInstruction :
    (State.reset.withFetchWord 40 0x1F48107F14).turns = [Turn.ready (.hostPort 0x1F48107F14#37)] ∧
    ((State.reset.withFetchWord 40 0x1F48107F14).beginTurn (Turn.ready (.hostPort 0x1F48107F14#37)) []).fetch
      (.hostPort 0x1F48107F14#37) = some (.nfport 0x1F48107F14#37) ∧
    decode (.nfport 0x1F48107F14#37) = .ok (.offer x1) := by decide

/-- The fork's turn where SE offers nothing. -/
def forkTurn : Turn := Turn.ready .fork

theorem witness_StepNeverStops : State.reset.turns = [] ∧ (State.reset.setTurns [sinkTurn]).turns = [sinkTurn] ∧
    ((State.reset.setTurns [sinkTurn]).beginTurn sinkTurn []).fetch sinkTurn.mover = none ∧
    (State.reset.setTurns [forkTurn]).turns = [forkTurn] ∧
    ((State.reset.setTurns [forkTurn]).beginTurn forkTurn []).fetch forkTurn.mover = some (.forksel 0b011#3) ∧
    decode (.forksel 0b011#3) = .error .noTransfer := by decide

/-- TOP in the middle of a run, `rst` asserted. -/
def held : State := (top (se .run 5 20 1 x1) (scan 500 true true) true true).setPorts { Ports.quiet with rst := true }

/-- The trailer pending. -/
def trailing (po : Bool) : State := pe ⟨.trail, 0, false, false, false⟩ (some (.chip true)) po

theorem witness_UnitsHoldDuringReset : held.ports.rst = true ∧ Instr.seEmit ≠ .reset ∧
    exec .seEmit held = .next held := ⟨rfl, by decide, rfl⟩

theorem witness_SeOutputWires :
    (held.ports.rst = true ∧ held.se.st = .run ∧ held.se.sym.toNat ≤ 36 ∧ held.se.pos.toNat < plen held.kind) ∧
    ((alone (se .run 12 36 2 x1) true none).se.sym.toNat ≤ 36 ∧
      (alone (se .run 12 36 2 x1) true none).se.pos.toNat < plen (alone (se .run 12 36 2 x1) true none).kind) ∧
    (alone (se .fin 0 40 9 x1) true none).se.st = .fin ∧
    ((alone (se .idle 0 0 0 x1) true none).ports.rst = false ∧ (alone (se .idle 0 0 0 x1) true none).se.st = .idle ∧
      (alone (se .idle 0 0 0 x1) true none).seqInRange = true) ∧
    ((alone (se .run 11 36 2 x1) true none).se.st = .run ∧ (alone (se .run 11 36 2 x1) true none).seqInRange = true) ∧
    ((alone (se .fin 0 0 0 x1) true none).se.st = .fin ∧ (alone (se .fin 0 0 0 x1) true none).seqInRange = true) ∧
    (alone (se .reserved 0 0 0 x1) true none).se.st = .reserved ∧
    (alone (se .run 11 36 3 x1) true none).seqInRange = false := by decide

theorem witness_SymbolTableIsTheSpecs : 1 ≤ 8 ∧ 8 < plen .sync ∧ 1 ≤ 2 ∧ 2 < plen .bit0 ∧ 1 ≤ 4 ∧ 4 < plen .bit1 := by
  decide

theorem witness_SymbolReadsItsFrameBit : 1 ≤ (1#6).toNat ∧ (1#6).toNat ≤ 36 ∧ 1 ≤ (36#6).toNat ∧ (36#6).toNat ≤ 36 ∧
    35 < 36 := by decide

theorem witness_LoadLatchesTheOfferedWord :
    ((alone (se .idle 0 0 0 x1) true (some x1)).ports.rst = false ∧
      (alone (se .idle 0 0 0 x1) true (some x1)).se.st = .idle ∧
      (alone (se .idle 0 0 0 x1) true (some x1)).seqInRange = true ∧
      (alone (se .idle 0 0 0 x1) true (some x1)).ports.nfValid = true) ∧
    (alone (se .fin 0 0 0 x1) true (some x1)).se.st ≠ .idle ∧
    (alone (se .idle 12 0 0 x1) true (some x1)).seqInRange = false ∧
    (alone SE.atReset true none).ports.nfValid = false ∧ held.ports.rst = true := by decide

theorem witness_NfwIsLatchedOrWaits : (top SE.atReset PE.atReset true true).ports.rst = false ∧
    ((top (se .idle 0 0 0 x1) PE.atReset true true).se.st = .idle ∧
      (top (se .idle 0 0 0 x1) PE.atReset true true).seqInRange = true) ∧
    (top (se .fin 0 0 0 x1) PE.atReset true true).se.st ≠ .idle ∧
    (top (se .idle 0 37 0 x1) PE.atReset true true).seqInRange = false := by decide

/-- The hypotheses of EmitSendsTheNextChip, as far as they do not speak of the consumer. -/
def running (s : State) : Bool :=
  decide (s.wiring ≠ .peAlone ∧ s.ports.rst = false ∧ s.se.st = .run ∧ s.se.nfHeld = true ∧ s.se.rep.toNat < 12 ∧
    s.se.sym.toNat ≤ 36 ∧ s.se.pos.toNat < plen (symKind s.se.sym s.se.nf))

/-- The last chip of the last symbol of the twelfth frame, and the first chip of the first. -/
theorem witness_EmitSendsTheNextChip :
    ((alone (se .fin 0 0 0 x1) true none).se.st ≠ .run ∧ (alone (se .run 12 0 0 x1) true none).seqInRange = false ∧
      held.ports.rst = true ∧ (trailing true).wiring = .peAlone) ∧
    (running (alone (se .run 11 36 2 x1) true none) = true ∧ (alone (se .run 11 36 2 x1) true none).coReady = true) ∧
    (running (top (se .run 0 0 0 x1) PE.atReset true true) = true ∧
      (top (se .run 0 0 0 x1) PE.atReset true true).coReady = true) ∧
    (running (alone (se .run 0 1 4 x1) false none) = true ∧ (alone (se .run 0 1 4 x1) false none).coReady = false) := by
  decide

theorem witness_EndtokEndsTheSequence :
    ((alone (se .fin 0 0 0 x1) true none).ports.rst = false ∧ (alone (se .fin 0 0 0 x1) true none).se.st = .fin ∧
      (alone (se .fin 0 0 0 x1) true none).seqInRange = true ∧ (alone (se .fin 0 0 0 x1) true none).coReady = true) ∧
    ((alone (se .run 0 0 0 x1) true none).se.st ≠ .fin ∧ (alone (se .fin 0 0 9 x1) true none).seqInRange = false ∧
      held.ports.rst = true ∧ (trailing true).wiring = .peAlone) ∧
    (top (se .fin 0 0 0 x1) (scan (-1000) false true) true true).coReady = true ∧
    (top (se .fin 0 0 0 x1) (scan (-1000) false true) true false).coReady = false := by decide

theorem witness_SymbolRowEmitsItsChips :
    ((alone (se .fin 0 0 0 x1) true none).se.st ≠ .run ∧ (alone (se .run 0 37 0 x1) true none).seqInRange = false ∧
      held.ports.rst = true ∧ (trailing true).wiring = .peAlone) ∧
    (running (alone (se .run 11 36 2 x1) true none) = true ∧ (alone (se .run 11 36 2 x1) true none).wiring = .seAlone ∧
      symKind 36 x1 = .bit0 ∧ (alone (se .run 11 36 2 x1) true none).ports.coReady = true) ∧
    symKind 36 x1 ≠ .bit1 ∧ (alone (se .run 11 36 2 x1) false none).ports.coReady = false := by decide

theorem witness_LatchedFrameDoesNotChange : Instr.nfw 0 ≠ .reset ∧ (alone (se .fin 0 0 0 x1) true none).se.st ≠ .idle ∧
    exec (.nfw 0) (alone (se .fin 0 0 0 x1) true none) = .next ((alone (se .fin 0 0 0 x1) true none).driveNf 0) :=
  ⟨by decide, by decide, rfl⟩

theorem witness_FirstChipStartsARun : ∀ c : Bool, (pe (scan 0 false false) (some (.chip c)) false).ciOffer = some (.chip c) ∧
    (pe (scan 0 false false) (some (.chip c)) false).pe.st = .scan ∧
    (pe (scan 0 false false) (some (.chip c)) false).pe.pv = false := by decide

/-- The two ends of the accumulator's range. -/
def brim (c : Bool) : State := pe (scan (if c then 2147483147 else -2147483148) c true) (some (.chip c)) false

theorem witness_SameChipExtendsTheRun : ∀ c : Bool, (brim c).ciOffer = some (.chip c) ∧ (brim c).pe.st = .scan ∧
    (brim c).pe.pv = true ∧ (brim c).pe.pol = c ∧
    -2147483648 ≤ (brim c).pe.acc.toInt + (if c then 500 else -500) ∧
    (brim c).pe.acc.toInt + (if c then 500 else -500) ≤ 2147483647 := by decide

theorem witness_FlipFlushesThenRestarts : ∀ c po : Bool,
    (pe (scan 500 (!c) true) (some (.chip c)) po).ciOffer = some (.chip c) ∧
    (pe (scan 500 (!c) true) (some (.chip c)) po).pe.st = .scan ∧ (pe (scan 500 (!c) true) (some (.chip c)) po).pe.pv = true ∧
    (pe (scan 500 (!c) true) (some (.chip c)) po).pe.pol = !c ∧
    (pe (scan 500 (!c) true) (some (.chip c)) po).ports.poReady = po := by decide

/-- END offered to PE, with or without a run. -/
def ending (pol pv po : Bool) : State := pe (scan 0 pol pv) (some (.fin true)) po

theorem witness_EmptySequenceEmitsZero : (∀ po, (ending false false po).ciOffer = some (.fin true) ∧
      (ending false false po).pe.st = .scan ∧ (ending false false po).pe.pv = false ∧
      (ending false false po).ports.poReady = po) ∧ PeInv (ending false false true).pe := by
  refine ⟨by decide, ⟨?_, ?_, ?_, ?_, ?_, ?_⟩⟩ <;> decide

theorem witness_LowEndIsFlushedLast : ∀ po, (ending false true po).ciOffer = some (.fin true) ∧
    (ending false true po).pe.st = .scan ∧ (ending false true po).pe.pv = true ∧ (ending false true po).pe.pol = false ∧
    (ending false true po).ports.poReady = po := by decide

theorem witness_HighEndLeavesTheTrailer : ∀ po, (ending true true po).ciOffer = some (.fin true) ∧
    (ending true true po).pe.st = .scan ∧ (ending true true po).pe.pv = true ∧ (ending true true po).pe.pol = true ∧
    (ending true true po).ports.poReady = po := by decide

theorem witness_TrailerFollowsAHighEnd : ∀ po, (trailing po).pe.st = .trail ∧ (trailing po).ports.rst = false ∧
    (trailing po).ports.poReady = po := by decide

theorem witness_PeOutputWires : (trailing true).ports.rst = false := rfl

theorem witness_PeHoldsWhenNothingIsEnabled : encode .peFlipUp = .psel 0b000110#6 false ∧
    ((pe (scan 0 false false) none true).pe.st = .scan ∧ (pe (scan 0 false false) none true).ciOffer = none) ∧
    ((trailing false).needsPo = true ∧ (trailing false).ports.poReady = false) ∧ faulted.pe.st = .fault ∧
    (pe ⟨.reserved, 0, false, false, false⟩ none true).pe.st = .reserved := by decide

theorem witness_OnePeOperationPerSelector : encode (.peTrail false false false false) = .psel 0b010000#6 false ∧
    exec (.peTrail false false false false) (trailing true) = .next (trailing true).sendTrailer ∧
    (trailing true).sendTrailer ≠ trailing true := ⟨by decide, rfl, by decide⟩

/-- SE offers `CHIP1`, PE has a low run (V80 to V83). -/
def v80 (tap po : Bool) : State := top (se .run 0 1 0 x1) (scan (-4000) false true) tap po

theorem witness_ForkWires : (v80 true false).wiring = .top ∧ (v80 true false).ciValid = true := by decide

theorem witness_ForkMovesOneTokenToBoth : (v80 true true).wiring = .top ∧ (v80 true true).coOffer = some (.chip true) ∧
    (v80 true true).ports.tapReady = true ∧ (v80 true true).ciReady = true := by decide

theorem witness_StalledForkChangesNothing : (trailing true).wiring ≠ .top ∧ (v80 false true).wiring = .top ∧
    ¬((v80 false true).coValid = true ∧ (v80 false true).ciReady = true ∧ (v80 false true).ports.tapReady = true) ∧
    ¬((v80 true false).coValid = true ∧ (v80 true false).ciReady = true ∧ (v80 true false).ports.tapReady = true) ∧
    Instr.pulse false 0xFFFFF060#32 ≠ .reset ∧ exec (.pulse false 0xFFFFF060#32) (v80 true false) = .next (v80 true false) :=
  ⟨by decide, rfl, by decide, by decide, by decide, rfl⟩

theorem witness_ForkIsTheStepOfBothUnits :
    ((v80 true true).wiring = .top ∧ (v80 true true).coValid = true ∧ (v80 true true).ciReady = true ∧
      (v80 true true).ports.tapReady = true ∧ (v80 true true).se.st = .run) ∧
    ((top (se .fin 0 0 0 x1) (scan (-1000) false true) true true).coValid = true ∧
      (top (se .fin 0 0 0 x1) (scan (-1000) false true) true true).ciReady = true ∧
      (top (se .fin 0 0 0 x1) (scan (-1000) false true) true true).se.st = .fin) := by decide

theorem witness_ChipTokenReachesPeAlone :
    (v80 true true).ports.rst = false ∧ (v80 true true).wiring ≠ .peAlone ∧
    ((brim true).wiring = .peAlone ∧ (brim true).ports.rst = false ∧
      (brim true).pe.take (.chip true) = some (scan 2147483647 true true, none)) ∧
    ((ending false true true).pe.take (.fin true) = some (scan 0 false false, some ⟨0, true⟩) ∧
      (ending false true true).ports.poReady = true) ∧
    (full true).pe.take (.chip true) = none ∧
    ((ending false true false).pe.take (.fin true) = some (scan 0 false false, some ⟨0, true⟩) ∧
      (ending false true false).ports.poReady = false) := by decide

theorem witness_TakenTokenSelectsTheOperation :
    (scan 0 false false).st = .scan ∧ (scan 0 false false).pv = false ∧ (scan 500 true true).pv = true ∧
    (scan 500 true true).pol = true ∧ (scan (-500) false true).pol = false ∧ (scan 500 true true).pol = !false ∧
    accFits ((brim true).pe.acc.toInt + delta true) = true ∧ accFits ((full true).pe.acc.toInt + delta true) = false ∧
    (trailing true).pe.st ≠ .scan := by decide

theorem witness_TokenRowIsItsProducersStep : (v80 true true).wiring ≠ .peAlone ∧
    (v80 true true).coOffer = some (.chip true) ∧ (alone (se .fin 0 0 0 x1) true none).coOffer = some (.fin false) ∧
    (v80 true true).coOffer ≠ some (.chip false) := by decide

theorem witness_PulseRowMovesThePulseOnThePort :
    ((v80 true true).poValid = true ∧ (v80 true true).ports.poReady = true ∧ (v80 true true).poData = 0xFFFFF060#32 ∧
      (v80 true true).poLast = false ∧ (v80 true true).pe.st ≠ .trail) ∧
    ((trailing true).poValid = true ∧ (trailing true).poData = 0xFFFFFE0C#32 ∧ (trailing true).poLast = true ∧
      (trailing true).pe.st = .trail) ∧
    (v80 false true).poValid = false ∧ (v80 true false).ports.poReady = false ∧ (v80 true true).poData ≠ 0 ∧
    (v80 true true).poLast ≠ true := by decide

theorem witness_LogsOnlyGrow : exec (.offer 0) (v80 true true) = .next ((v80 true true).driveNf 0) := rfl

/-! The invariants: in TOP at reset with the consumers ready, at a frame's first symbol, at a later one, and at END. -/

theorem scan_peInv (k : Nat) (h : 1 ≤ k ∧ k ≤ 8) : PeInv (scan (-500 * k) false true) := by
  obtain ⟨h1, h2⟩ := h
  refine ⟨?_, ?_, ?_, ?_, ?_, ?_⟩ <;> interval_cases k <;> decide

theorem ready_topInv : TopInv (top SE.atReset PE.atReset true true) := by
  refine ⟨rfl, ⟨⟨?_, ?_, ?_, ?_⟩, ⟨?_, ?_, ?_, ?_, ?_, ?_⟩⟩, rfl, ?_, ?_, ?_, ?_, ?_, ?_⟩ <;> decide

/-- The first symbol of a run, nothing before it. -/
theorem first_topInv : TopInv (top (se .run 0 0 0 x1) PE.atReset true true) := by
  refine ⟨rfl, ⟨⟨?_, ?_, ?_, ?_⟩, ⟨?_, ?_, ?_, ?_, ?_, ?_⟩⟩, rfl, ?_, ?_, ?_, ?_, ?_, ?_⟩ <;> decide

/-- The last symbol of a run, the low run of eight chips as long as any. -/
theorem last_topInv : TopInv (top (se .run 11 36 0 x1) (scan (-4000) false true) true true) := by
  refine ⟨rfl, ⟨⟨?_, ?_, ?_, ?_⟩, scan_peInv 8 (by decide)⟩, rfl, ?_, ?_, ?_, ?_, ?_, ?_⟩ <;> decide

theorem fin_topInv : TopInv (top (se .fin 0 0 0 x1) (scan (-1000) false true) true true) := by
  refine ⟨rfl, ⟨⟨?_, ?_, ?_, ?_⟩, scan_peInv 2 (by decide)⟩, rfl, ?_, ?_, ?_, ?_, ?_, ?_⟩ <;> decide

theorem witness_SymbolAsPulsesInTop :
    (TopInv (top (se .run 0 0 0 x1) PE.atReset true true) ∧ symKind 0 x1 = .sync) ∧
    (TopInv (top (se .run 11 36 0 x1) (scan (-4000) false true) true true) ∧ symKind 36 x1 = .bit0) :=
  ⟨⟨first_topInv, by decide⟩, ⟨last_topInv, by decide⟩⟩

theorem witness_EndOfARunInTop : TopInv (top (se .fin 0 0 0 x1) (scan (-1000) false true) true true) := fin_topInv

theorem witness_RunOfTop : TopInv (top SE.atReset PE.atReset true true) := ready_topInv

theorem witness_TopNeverOverflowsNorTrails : TopInv (top (se .run 11 36 0 x1) (scan (-4000) false true) true true) :=
  last_topInv

/-- TOP before the fork's turn in which the last symbol's first chip moves. -/
def turning : State := (top (se .run 11 36 0 x1) (scan (-4000) false true) true true).setTurns [Turn.ready .fork]

theorem turning_topInv : TopInv turning := by
  refine ⟨rfl, ⟨⟨?_, ?_, ?_, ?_⟩, scan_peInv 8 (by decide)⟩, rfl, ?_, ?_, ?_, ?_, ?_, ?_⟩ <;> decide

theorem turning_step : step turning = exec .fork (turning.beginTurn (Turn.ready .fork) []) := rfl

theorem turning_next : exec .fork (turning.beginTurn (Turn.ready .fork) []) =
    .next (turning.beginTurn (Turn.ready .fork) []).coTransfer := rfl

theorem witness_StepKeepsTheInvariants :
    Inv turning ∧ step turning = .next (turning.beginTurn (Turn.ready .fork) []).coTransfer :=
  ⟨turning_topInv.inv, turning_step.trans turning_next⟩

theorem witness_StepKeepsTopInLockStep :
    TopInv turning ∧ step turning = .next (turning.beginTurn (Turn.ready .fork) []).coTransfer :=
  ⟨turning_topInv, turning_step.trans turning_next⟩

/-- TOP right after a LOAD, before the fork's first turn; a reset cut the run before. -/
def loaded : State :=
  { (top (se .run 0 0 0 x1) PE.atReset true true).setTurns [Turn.ready .fork] with
    nfLog := [.word 0xFFFFFFFFF, .cut, .word x1]
    chipLog := [.tok (.chip true), .cut] }

theorem loaded_next : step loaded = .next (loaded.beginTurn (Turn.ready .fork) []).coTransfer := rfl

theorem loaded_inv : Inv loaded := by
  refine ⟨⟨?_, ?_, ?_, ?_⟩, ⟨?_, ?_, ?_, ?_, ?_, ?_⟩⟩ <;> decide

theorem witness_StepKeepsChipLogEqualToChipseq :
    ChipInv loaded ∧ step loaded = .next (loaded.beginTurn (Turn.ready .fork) []).coTransfer := by
  refine ⟨⟨by decide, loaded_inv, .cons rfl .nil, by decide, by decide, by decide, fun _ => ⟨[], by decide⟩⟩, loaded_next⟩

/-- PE alone after `CHIP1, END` and a reset, and `CHIP1, END` again, the trailer pending, before SINK's turn. The reset
came before the first run's trailer went out, so that the first run has no PulseList. -/
def trailed : State :=
  { trailing true with
    chipLog := [.tok (.chip true), .tok (.fin false), .cut, .tok (.chip true), .tok (.fin false)]
    pulseLog := [.pulse ⟨500, false⟩, .cut, .pulse ⟨500, false⟩]
    turns := [sinkTurn] }

theorem trailed_inv : Inv trailed := by
  refine ⟨⟨?_, ?_, ?_, ?_⟩, ⟨?_, ?_, ?_, ?_, ?_, ?_⟩⟩ <;> decide

theorem witness_StepKeepsPulseLogEqualToRle :
    PulseInv trailed ∧ step trailed = .next (trailed.beginTurn sinkTurn []).sendTrailer := by
  refine ⟨⟨by decide, trailed_inv, .cons rfl .nil, by decide, by decide⟩, rfl⟩

theorem witness_ChipSequenceLength : nibble 0x008000F00 6 = 15 ∧ nibble 0x008000F00 2 = 8 ∧ nibble 0xFFA801F64 2 = 10 := by
  decide

theorem witness_EncodeInvertsDecode : (Code.psel 0b000111#6 true).wf = true ∧
    decode (.psel 0b000111#6 true) = .ok .peOvf1 := by decide

end Sys2Proof.Tests
end

section
/-! The family of the state: reset and its values, the status wires, the invariants of R32 from reset on and through every
step, and the growth of the ghost logs. The invariants and the growth are proved move by move (`Move`). -/

namespace Sys2Proof.Machine

/-! ### The fields after the operations that are not a transfer to PE -/

/-- RESET is enabled in every state (R183, R250). -/
@[simp] theorem exec_reset (s : State) : exec .reset s = .next s.takeReset := rfl

@[simp] theorem State.takeReset_se (s : State) : s.takeReset.se = SE.atReset := rfl
@[simp] theorem State.takeReset_pe (s : State) : s.takeReset.pe = PE.atReset := rfl
@[simp] theorem State.takeReset_ports (s : State) :
    s.takeReset.ports = { s.ports with nfValid := false, ciValid := false } := rfl
@[simp] theorem State.takeReset_wiring (s : State) : s.takeReset.wiring = s.wiring := rfl
@[simp] theorem State.takeReset_chipLog (s : State) : s.takeReset.chipLog = s.chipLog ++ [.cut] := rfl
@[simp] theorem State.takeReset_pulseLog (s : State) : s.takeReset.pulseLog = s.pulseLog ++ [.cut] := rfl
@[simp] theorem State.takeReset_nfLog (s : State) : s.takeReset.nfLog = s.nfLog ++ [.cut] := rfl
@[simp] theorem State.takeReset_turns (s : State) : s.takeReset.turns = s.turns := rfl

/-- HOST drives input wires only (R182). -/
theorem State.driveNf_eq (s : State) (w : NfWord) :
    s.driveNf w = s.setPorts { s.ports with nfValid := true, nfData := w } := rfl

/-- CHIPSRC drives input wires only (R188). -/
theorem State.driveCi_eq (s : State) (t : ChipTok) :
    s.driveCi t = s.setPorts { s.ports with ciValid := true, ciTok := t } := rfl

/-- A transfer to the outside consumer moves SE on and logs the token (R51). -/
theorem State.coCommit_eq (s : State) (t : ChipTok) : s.coCommit t = (s.setSe s.seAfter).logChip (.tok t) := rfl

/-- The fault changes two registers of PE (R234). -/
theorem State.raiseAccOverflow_eq (s : State) :
    s.raiseAccOverflow = s.setPe { s.pe with fault := true, st := .fault } := rfl

/-! ### The status wires (R28, R231) -/

theorem State.seBusy_iff (s : State) : s.seBusy = true ↔ s.se.st ≠ .idle := by simp [State.seBusy]

theorem State.peBusy_iff (s : State) : s.peBusy = true ↔ s.pe.pv = true ∨ s.pe.st = .trail := by simp [State.peBusy]

theorem State.peFault_eq (s : State) : s.peFault = s.pe.fault := rfl

theorem State.recordedFault_iff (s : State) : s.recordedFault = some .accOverflow ↔ s.peFault = true := by
  simp [State.recordedFault, State.peFault_eq]

/-- With both units at their reset values the three status outputs are 0 (R28, R30). -/
theorem State.status_of_atReset {s : State} (hse : s.se = SE.atReset) (hpe : s.pe = PE.atReset) :
    s.seBusy = false ∧ s.peBusy = false ∧ s.peFault = false := by
  simp [State.seBusy, State.peBusy, State.peFault, hse, hpe, SE.atReset, PE.atReset]

/-! ### SE's invariants (R32 items 1 to 3, R21) -/

/-- SE at the rest position, in any control state of the unit, has its invariants: whatever symbol the free value gives,
`(0, 0, 0)` is inside the ranges. -/
theorem seInv_at_rest {s : State} (hrep : s.se.rep = 0) (hsym : s.se.sym = 0) (hpos : s.se.pos = 0)
    (hlegal : s.se.st ≠ .reserved) (hheld : s.se.st ≠ .idle → s.se.nfHeld = true) : SeInv s :=
  ⟨fun _ => ⟨hrep, hsym, hpos⟩, fun _ => State.seqInRange_of_rest hrep hsym hpos, hlegal, hheld⟩

theorem seInv_running {s : State} (hrun : s.se.st = .run) (hheld : s.se.nfHeld = true)
    (hrange : s.seqInRange = true) : SeInv s :=
  ⟨fun h => absurd hrun h, fun _ => hrange, by simp [hrun], fun _ => hheld⟩

theorem seInv_atReset {s : State} (hse : s.se = SE.atReset) : SeInv s := by
  apply seInv_at_rest <;> simp [hse, SE.atReset]

/-- At the first chip of a symbol `pos` is in range whichever symbol it is. -/
theorem State.seqInRange_of_pos_zero {s : State} (hrep : s.se.rep.toNat < 12) (hsym : s.se.sym.toNat ≤ 36)
    (hpos : s.se.pos = 0) : s.seqInRange = true := by
  rw [State.seqInRange_iff, hpos]
  exact ⟨hrep, hsym, plen_pos _⟩

/-- SE's invariants speak of SE's registers and the free value's counter only. -/
theorem SeInv.congr {s t : State} (h : SeInv s) (hse : t.se = s.se) (hresets : t.resets = s.resets) : SeInv t := by
  have hrange : t.seqInRange = s.seqInRange := by
    simp [State.seqInRange, State.kind_congr hse hresets, hse]
  obtain ⟨hquiet, hin, hlegal, hheld⟩ := h
  refine ⟨?_, ?_, ?_, ?_⟩ <;> rw [hse]
  · exact hquiet
  · rwa [hrange]
  · exact hlegal
  · exact hheld

/-- EMIT's advance from inside the ranges stays inside them, in each of the four cases of R105. -/
theorem SeInv.advance {s t : State} (h : SeInv s) (hrun : s.se.st = .run) (hse : t.se = s.se.advance s.kind) :
    SeInv t := by
  have hheld : s.se.nfHeld = true := h.held (by simp [hrun])
  obtain ⟨hrep, hsym, hpos⟩ := s.seqInRange_iff.mp (h.range hrun)
  obtain ⟨hlt, ha⟩ | ⟨-, hlt, ha⟩ | ⟨-, -, hlt, ha⟩ | ⟨-, -, -, ha⟩ := s.se.advance_cases s.kind <;> rw [ha] at hse
  · -- the next chip of the symbol, which the held word keeps as it is
    have hkind : t.kind = s.kind := by
      rw [State.kind_of_held hheld, State.kind_of_held (by rw [hse]; exact hheld), hse]
    have hsucc := pos_succ_toNat (x := s.se.pos) (by have := plen_le s.kind; omega)
    refine seInv_running (by rw [hse]; exact hrun) (by rw [hse]; exact hheld) ?_
    rw [State.seqInRange_iff, hkind, hse]
    exact ⟨hrep, hsym, by rw [hsucc]; exact hlt⟩
  · -- the next symbol of the frame
    have hsucc := sym_succ_toNat (x := s.se.sym) (by omega)
    refine seInv_running (by rw [hse]; exact hrun) (by rw [hse]; exact hheld) ?_
    apply State.seqInRange_of_pos_zero <;> rw [hse]
    · exact hrep
    · show (s.se.sym + 1).toNat ≤ 36
      omega
  · -- the next frame
    have hsucc := pos_succ_toNat (x := s.se.rep) (by omega)
    refine seInv_running (by rw [hse]; exact hrun) (by rw [hse]; exact hheld) ?_
    apply State.seqInRange_of_pos_zero <;> rw [hse]
    · show (s.se.rep + 1).toNat < 12
      omega
    · simp
  · -- the end of the sequence
    apply seInv_at_rest <;> simp [hse, hheld]

/-- SE's own step, when the token it offers moves, keeps its invariants (R105, R106). -/
theorem SeInv.seAfter {s t : State} {tok : ChipTok} (h : SeInv s) (ho : s.coOffer = some tok)
    (hse : t.se = s.seAfter) : SeInv t := by
  obtain ⟨-, ⟨hrun, -, -, ha⟩ | ⟨hfin, -, -, ha⟩⟩ := State.coOffer_cases ho
  · exact h.advance hrun (hse.trans ha)
  · obtain ⟨hrep, hsym, hpos⟩ := h.quiet (by simp [hfin])
    rw [ha] at hse
    apply seInv_at_rest <;> simp [hse, hrep, hsym, hpos]

/-! ### PE's invariants (R32 items 3 to 7) -/

/-- The accumulator of a run of polarity `c`: a positive or a negative multiple of the chip duration (R32 item 5). -/
def RunValue (c : Bool) (x : Int) : Prop := if c then 0 < x ∧ x % 500 = 0 else x < 0 ∧ x % 500 = 0

theorem runValue_delta (c : Bool) : RunValue c (delta c) := by
  cases c <;> simp [RunValue, delta_true, delta_false]

theorem RunValue.add_delta {c : Bool} {x : Int} (h : RunValue c x) : RunValue c (x + delta c) := by
  cases c
  · simp only [RunValue, delta_false, Bool.false_eq_true, if_false] at h ⊢
    omega
  · simp only [RunValue, delta_true, if_true] at h ⊢
    omega

theorem PeInv.runValue {p : PE} (h : PeInv p) (hv : p.pv = true) : RunValue p.pol p.acc.toInt := by
  cases hpol : p.pol
  · exact h.low hv hpol
  · exact h.high hv hpol

theorem peInv_of_run {p : PE} (hst : p.st = .scan) (hfault : p.fault = false) (hv : p.pv = true)
    (hrun : RunValue p.pol p.acc.toInt) : PeInv p where
  legal := by simp [hst]
  noRun := by simp [hv]
  high _ hpol := by rw [hpol] at hrun; exact hrun
  low _ hpol := by rw [hpol] at hrun; exact hrun
  trail := by simp [hst]
  fault := by simp [hst, hfault]

theorem peInv_of_no_run {p : PE} (hst : p.st = .scan ∨ p.st = .trail) (hfault : p.fault = false) (hv : p.pv = false)
    (hacc : p.acc = 0) (hpol : p.pol = false) : PeInv p where
  legal := by rcases hst with hst | hst <;> simp [hst]
  noRun _ := ⟨hacc, hpol⟩
  high := by simp [hv]
  low := by simp [hv]
  trail _ := hv
  fault := by rcases hst with hst | hst <;> simp [hst, hfault]

theorem peInv_atReset : PeInv PE.atReset := peInv_of_no_run (.inl rfl) rfl rfl rfl rfl

theorem PeInv.fault_eq_false {p : PE} (h : PeInv p) (hst : p.st ≠ .fault) : p.fault = false := by
  rw [← Bool.not_eq_true]
  exact fun hf => hst (h.fault.mpr hf)

/-- Every operation that consumes a token keeps PE's invariants (R142 to R147). -/
theorem PeInv.take {p q : PE} {t : ChipTok} {out : Option Pulse} (h : PeInv p) (ht : p.take t = some (q, out)) :
    PeInv q := by
  obtain ⟨hst, hcases⟩ := PE.take_cases ht
  have hfault : p.fault = false := h.fault_eq_false (by simp [hst])
  obtain ⟨c, -, -, rfl, -⟩ | ⟨c, -, hv, rfl, hfits, rfl, -⟩ | ⟨c, -, hv, -, rfl, -⟩ | ⟨x, -, -, rfl, -⟩ |
    ⟨x, -, -, -, rfl, -⟩ | ⟨x, -, -, -, rfl, -⟩ := hcases
  · -- FIRST
    refine peInv_of_run hst hfault rfl ?_
    show RunValue c (accOf (delta c)).toInt
    rw [accOf_delta_toInt]
    exact runValue_delta c
  · -- SAME
    refine peInv_of_run hst hfault hv ?_
    show RunValue p.pol (accOf (p.sum p.pol)).toInt
    rw [accOf_toInt hfits]
    exact (h.runValue hv).add_delta
  · -- FLIP
    refine peInv_of_run hst hfault hv ?_
    show RunValue c (accOf (delta c)).toInt
    rw [accOf_delta_toInt]
    exact runValue_delta c
  · exact h -- FINISH_EMPTY
  · exact peInv_of_no_run (.inl hst) hfault rfl rfl rfl -- FINISH_LOW
  · exact peInv_of_no_run (.inr rfl) hfault rfl rfl rfl -- FINISH_HIGH

/-- PE.TRAIL keeps PE's invariants: no run is in progress in `P_TRAIL` (R148, R32 item 6). -/
theorem PeInv.leaveTrail {p : PE} (h : PeInv p) (hst : p.st = .trail) : PeInv p.leaveTrail := by
  have hv := h.trail hst
  obtain ⟨hacc, hpol⟩ := h.noRun hv
  exact peInv_of_no_run (.inl rfl) (h.fault_eq_false (by simp [hst])) hv hacc hpol

/-- Taking the fault keeps PE's invariants, the run staying as it is (R234, R32 item 7). -/
theorem PeInv.raiseAccOverflow {p : PE} (h : PeInv p) : PeInv { p with fault := true, st := .fault } where
  legal := by simp
  noRun := h.noRun
  high := h.high
  low := h.low
  trail := by simp
  fault := by simp

/-! ### The invariants of R32 through reset, turns and moves -/

theorem inv_of_atReset {s : State} (hse : s.se = SE.atReset) (hpe : s.pe = PE.atReset) : Inv s :=
  ⟨seInv_atReset hse, hpe ▸ peInv_atReset⟩

theorem Inv.takeReset (s : State) : Inv s.takeReset := inv_of_atReset s.takeReset_se s.takeReset_pe

/-- The wires of a turn are no register of a unit. -/
theorem Inv.beginTurn {s : State} (h : Inv s) (turn : Turn) (rest : List Turn) : Inv (s.beginTurn turn rest) :=
  ⟨h.se.congr rfl rfl, h.pe⟩

/-- Every move keeps the invariants of R32. -/
theorem Inv.move {s t : State} (h : Inv s) (hm : Move s t) : Inv t := by
  cases hm with
  | driveNf w => exact ⟨h.se.congr rfl rfl, h.pe⟩
  | load => exact ⟨by apply seInv_at_rest <;> simp [SE.latch], h.pe⟩
  | toConsumer tok hw ho => exact ⟨h.se.seAfter ho rfl, h.pe⟩
  | toPe tok p out ho ht =>
    refine ⟨?_, by rw [State.ciCommit_pe]; exact h.pe.take ht⟩
    obtain ⟨-, ⟨hw, -, hco⟩ | ⟨hw, -, -⟩⟩ := State.ciOffer_cases ho
    · exact h.se.seAfter hco (by simp [State.ciCommit_se, hw])
    · exact h.se.congr (by simp [State.ciCommit_se, hw]) (by simp)
  | driveCi tok => exact ⟨h.se.congr rfl rfl, h.pe⟩
  | trail hst => exact ⟨h.se.congr rfl rfl, h.pe.leaveTrail hst⟩
  | overflow => exact ⟨h.se.congr rfl rfl, h.pe.raiseAccOverflow⟩

/-- Settles O46: what holds of every turn's wires, of RESET and of every move holds of every step. -/
theorem stepKeepsTheInvariants : Obligations.StepKeepsTheInvariants := fun _ _ hinv hstep =>
  step_keeps (fun _ turn rest h => h.beginTurn turn rest) (fun s _ => Inv.takeReset s) (fun _ _ h hm => h.move hm)
    hinv hstep

/-! ### The growth of the logs (R29, R60) -/

/-- The logs of `t` extend those of `s`, and `t` has the composition and the schedule of `s`. -/
structure LogsGrow (s t : State) : Prop where
  chip : s.chipLog <+: t.chipLog
  pulse : s.pulseLog <+: t.pulseLog
  nf : s.nfLog <+: t.nfLog
  wiring : t.wiring = s.wiring
  turns : t.turns = s.turns

theorem LogsGrow.refl (s : State) : LogsGrow s s :=
  ⟨List.prefix_rfl, List.prefix_rfl, List.prefix_rfl, rfl, rfl⟩

theorem LogsGrow.trans {s t u : State} (h : LogsGrow s t) (h' : LogsGrow t u) : LogsGrow s u :=
  ⟨h.chip.trans h'.chip, h.pulse.trans h'.pulse, h.nf.trans h'.nf, h'.wiring.trans h.wiring, h'.turns.trans h.turns⟩

theorem takeReset_logsGrow (s : State) : LogsGrow s s.takeReset := by
  constructor <;> simp

theorem Move.logsGrow {s t : State} (h : Move s t) : LogsGrow s t := by
  cases h with
  | driveNf w => rw [State.driveNf_eq]; constructor <;> simp
  | load => constructor <;> simp
  | toConsumer tok => rw [State.coCommit_eq]; constructor <;> simp
  | toPe tok p out => constructor <;> simp
  | driveCi tok => rw [State.driveCi_eq]; constructor <;> simp
  | trail => constructor <;> simp
  | overflow => rw [State.raiseAccOverflow_eq]; constructor <;> simp

theorem exec_logsGrow {i : Instr} {s t : State} (h : exec i s = .next t) : LogsGrow s t :=
  exec_keeps (P := LogsGrow s) (fun u hu => hu.trans (takeReset_logsGrow u)) (fun _ _ hu hm => hu.trans hm.logsGrow)
    (LogsGrow.refl s) h

/-- Reading one more entry of a log appends one completed list where `q` holds of the entry, and none where it does
not. -/
def CompletesAt {α ε : Type} (read : Artifacts α → ε → Artifacts α) (q : ε → Bool) : Prop :=
  ∀ a e, ∃ ls, (read a e).all = a.all ++ ls ∧ ls.length = (q e).toNat

theorem chip_completesAt_end : CompletesAt Artifacts.chip ChipEvent.isEnd := by
  rintro a ((c | x) | _)
  · exact ⟨[], by simp [Artifacts.chip, Artifacts.all], rfl⟩
  · exact ⟨[a.part], Artifacts.complete_all a a.part, rfl⟩
  · exact ⟨[], by simp [Artifacts.chip], rfl⟩

theorem pulse_completesAt_last : CompletesAt Artifacts.pulse PulseEvent.isLast := by
  rintro a (⟨data, _ | _⟩ | _)
  · exact ⟨[], by simp [Artifacts.pulse, Artifacts.all], rfl⟩
  · exact ⟨[a.part ++ [data.toInt]], Artifacts.complete_all a _, rfl⟩
  · exact ⟨[], by simp [Artifacts.pulse], rfl⟩

/-- Reading a log appends as many completed lists as the log has delimiters. -/
theorem CompletesAt.foldl {α ε : Type} {read : Artifacts α → ε → Artifacts α} {q : ε → Bool}
    (h : CompletesAt read q) (a : Artifacts α) (log : List ε) :
    ∃ ls, (log.foldl read a).all = a.all ++ ls ∧ ls.length = log.countP q := by
  induction log generalizing a with
  | nil => exact ⟨[], by simp⟩
  | cons e log ih =>
    obtain ⟨ls, hall, hlen⟩ := h a e
    obtain ⟨ls', hall', hlen'⟩ := ih (read a e)
    refine ⟨ls ++ ls', by rw [List.foldl_cons, hall', hall, List.append_assoc], ?_⟩
    rw [List.length_append, hlen, hlen', List.countP_cons, add_comm]
    cases q e <;> rfl

theorem chipArtifacts_all_append (l l' : List ChipEvent) :
    ∃ ls, (chipArtifacts (l ++ l')).all = (chipArtifacts l).all ++ ls := by
  obtain ⟨ls, hall, -⟩ := chip_completesAt_end.foldl (chipArtifacts l) l'
  exact ⟨ls, by rw [← hall, chipArtifacts, List.foldl_append]; rfl⟩

theorem pulseArtifacts_all_append (l l' : List PulseEvent) :
    ∃ ls, (pulseArtifacts (l ++ l')).all = (pulseArtifacts l).all ++ ls := by
  obtain ⟨ls, hall, -⟩ := pulse_completesAt_last.foldl (pulseArtifacts l) l'
  exact ⟨ls, by rw [← hall, pulseArtifacts, List.foldl_append]; rfl⟩

theorem chipArtifacts_all_length (l : List ChipEvent) :
    (chipArtifacts l).all.length = l.countP ChipEvent.isEnd := by
  obtain ⟨ls, hall, hlen⟩ := chip_completesAt_end.foldl ⟨[], [], []⟩ l
  rw [← hlen, chipArtifacts, hall]
  rfl

theorem pulseArtifacts_all_length (l : List PulseEvent) :
    (pulseArtifacts l).all.length = l.countP PulseEvent.isLast := by
  obtain ⟨ls, hall, hlen⟩ := pulse_completesAt_last.foldl ⟨[], [], []⟩ l
  rw [← hlen, pulseArtifacts, hall]
  rfl

/-- Settles O42: the logs grow at the end (`exec_logsGrow`), and a log read further only adds completed lists, one per
delimiter (`CompletesAt`). -/
theorem logsOnlyGrow : Obligations.LogsOnlyGrow := by
  intro i s t h
  obtain ⟨⟨a, ha⟩, ⟨b, hb⟩, ⟨c, hc⟩, hwiring, hturns⟩ := exec_logsGrow h
  refine ⟨⟨a, ha.symm⟩, ⟨b, hb.symm⟩, ⟨c, hc.symm⟩, ?_, ?_, chipArtifacts_all_length _, pulseArtifacts_all_length _,
    hwiring, hturns⟩
  · rw [← ha]
    exact chipArtifacts_all_append s.chipLog a
  · rw [← hb]
    exact pulseArtifacts_all_append s.pulseLog b

/-! ### Reset and the status wires -/

/-- Settles O1, by the fields of `State.takeReset`. -/
theorem resetLoadsEveryResetValue : Obligations.ResetLoadsEveryResetValue := by
  intro s
  obtain ⟨hse, hpe, hfault⟩ := State.status_of_atReset s.takeReset_se s.takeReset_pe
  exact ⟨s.takeReset, exec_reset s, rfl, rfl, rfl, rfl, rfl, rfl, rfl, rfl, rfl, rfl, hse, hpe, hfault,
    s.takeReset_chipLog, s.takeReset_pulseLog, s.takeReset_nfLog, s.takeReset_ports, s.takeReset_wiring,
    s.takeReset_turns⟩

/-- Settles O2: the units of `State.reset` are the reset values, and the rest is read off its literal. -/
theorem stateAfterResetHoldsResetValues : Obligations.StateAfterResetHoldsResetValues := by
  obtain ⟨hse, hpe, hfault⟩ := State.status_of_atReset (s := State.reset) rfl rfl
  exact ⟨rfl, rfl, rfl, rfl, rfl, rfl, hse, hpe, hfault, rfl, rfl, rfl, rfl⟩

/-- Settles O10, wire by wire. -/
theorem statusWires : Obligations.StatusWires := fun s =>
  ⟨s.seBusy_iff, s.peBusy_iff, by rw [s.peFault_eq], s.recordedFault_iff, rfl⟩

/-! ### The invariants at reset -/

theorem inv_reset : Inv State.reset := inv_of_atReset rfl rfl

/-- SE is idle at reset and PE has no run, so that what TopInv says of a sequence in progress has no case. -/
theorem topInv_reset : TopInv State.reset where
  top := rfl
  inv := inv_reset
  scan := rfl
  idle _ := rfl
  fin := by simp [State.reset, SE.atReset]
  first := by simp [State.reset, SE.atReset]
  head := by simp [State.reset, SE.atReset]
  second := by simp [State.reset, SE.atReset]
  later := by simp [State.reset, SE.atReset]

/-- Empty logs have no list, completed or in progress, and SE is idle. -/
theorem chipInv_reset : ChipInv State.reset where
  linked := by simp [State.reset]
  inv := inv_reset
  past := .nil
  idle _ := ⟨rfl, rfl⟩
  run := by simp [State.reset, SE.atReset]
  fin := by simp [State.reset, SE.atReset]
  words h := absurd rfl h

/-- Empty logs have no list, and PE's registers at reset are those of the scan's start. -/
theorem pulseInv_reset : PulseInv State.reset where
  linked := by simp [State.reset]
  inv := inv_reset
  past := .nil
  scan _ := ⟨rfl, rfl⟩
  trail := by simp [State.reset, PE.atReset]

/-- Settles O45. -/
theorem invariantsHoldAtReset : Obligations.InvariantsHoldAtReset :=
  ⟨inv_reset, topInv_reset, chipInv_reset, pulseInv_reset⟩

end Sys2Proof.Machine
end

section
/-! The family of the memory and the streams: the latched frame (R21, R59), and the chip link with PE alone (R51, R74,
R188). -/

namespace Sys2Proof.Machine

/-! ### The latched frame: only LOAD writes it (R21, R59) -/

/-- SE's frame register, the flag beside it included, is in `t` as it is in `s`. -/
structure SameFrame (s t : State) : Prop where
  word : t.se.nf = s.se.nf
  held : t.se.nfHeld = s.se.nfHeld

theorem SameFrame.refl (s : State) : SameFrame s s := ⟨rfl, rfl⟩

theorem SameFrame.trans {s t u : State} (h : SameFrame s t) (h' : SameFrame t u) : SameFrame s u :=
  ⟨h'.word.trans h.word, h'.held.trans h.held⟩

theorem SameFrame.of_se {s t : State} (h : t.se = s.se) : SameFrame s t := by
  constructor <;> rw [h]

/-- A row whose guard fails answers the unchanged state, so that only its effect matters. -/
theorem SameFrame.of_guarded {c : Prop} [Decidable c] {s a t : State} (ha : SameFrame s a)
    (h : (if c then .next a else .next s : Host.Outcome State Fault Refusal) = .next t) : SameFrame s t := by
  split at h <;> cases h
  · exact ha
  · exact .refl s

/-- EMIT's advance moves the sequencer's position and control state only (R105). -/
theorem SE.advance_frame (se : SE) (k : Sym) :
    (se.advance k).nf = se.nf ∧ (se.advance k).nfHeld = se.nfHeld := by
  obtain ⟨-, h⟩ | ⟨-, -, h⟩ | ⟨-, -, -, h⟩ | ⟨-, -, -, h⟩ := se.advance_cases k <;> rw [h] <;> exact ⟨rfl, rfl⟩

/-- SE's own step keeps the frame: EMIT advances, ENDTOK leaves NF as it is (R105, R106). -/
theorem State.seAfter_frame (s : State) : s.seAfter.nf = s.se.nf ∧ s.seAfter.nfHeld = s.se.nfHeld := by
  unfold State.seAfter
  split
  · exact s.se.advance_frame s.kind
  all_goals exact ⟨rfl, rfl⟩

theorem SameFrame.of_seAfter {s t : State} (h : t.se = s.seAfter) : SameFrame s t := by
  obtain ⟨hword, hheld⟩ := s.seAfter_frame
  exact ⟨by rw [h, hword], by rw [h, hheld]⟩

theorem driveNf_sameFrame (s : State) (w : NfWord) : SameFrame s (s.driveNf w) := .of_se rfl

theorem driveCi_sameFrame (s : State) (t : ChipTok) : SameFrame s (s.driveCi t) := .of_se rfl

theorem raiseAccOverflow_sameFrame (s : State) : SameFrame s s.raiseAccOverflow := .of_se rfl

theorem ciCommit_sameFrame (s : State) (t : ChipTok) (p : PE) (out : Option Pulse) :
    SameFrame s (s.ciCommit t p out) := by
  by_cases hw : s.wiring = .top
  · exact .of_seAfter (by rw [State.ciCommit_se, if_pos hw])
  · exact .of_se (by rw [State.ciCommit_se, if_neg hw])

theorem ciTransfer_sameFrame (s : State) : SameFrame s s.ciTransfer := by
  obtain h | ⟨t, p, out, -, -, -, h⟩ := s.ciTransfer_cases <;> rw [h]
  · exact .refl s
  · exact ciCommit_sameFrame s t p out

theorem coTransfer_sameFrame (s : State) : SameFrame s s.coTransfer := by
  unfold State.coTransfer
  split
  · exact ciTransfer_sameFrame s
  · split
    · split
      · exact .of_seAfter rfl
      · exact .refl s
    · exact .refl s
  · exact .refl s

theorem emitSteps_sameFrame (n : Nat) (s : State) : SameFrame s (State.emitSteps n s) := by
  induction n generalizing s with
  | zero => exact .refl s
  | succ n ih =>
    unfold State.emitSteps
    split
    · exact (coTransfer_sameFrame s).trans (ih _)
    · exact ih s

theorem emitSymbol_sameFrame (s : State) (k : Sym) : SameFrame s (s.emitSymbol k) := by
  unfold State.emitSymbol
  split
  · exact emitSteps_sameFrame _ s
  · exact .refl s

theorem moveToken_sameFrame (s : State) (t : ChipTok) : SameFrame s (s.moveToken t) := by
  unfold State.moveToken
  split
  · exact (driveCi_sameFrame s t).trans (ciTransfer_sameFrame _)
  all_goals
    split
    · exact coTransfer_sameFrame s
    · exact .refl s

theorem sendTrailer_sameFrame (s : State) : SameFrame s s.sendTrailer := by
  unfold State.sendTrailer
  split
  · exact .of_se rfl
  · exact .refl s

/-- LOAD is not enabled while a sequence is in progress (R101, R59). -/
theorem State.nfTransfer_of_not_idle {s : State} (h : s.se.st ≠ .idle) : s.nfTransfer = s := by
  simp [State.nfTransfer, State.nfReady, h]

/-- No instruction but RESET and the two that LOAD is part of changes the frame; those two need SE idle. -/
theorem exec_sameFrame {i : Instr} {s t : State} (hi : i ≠ .reset) (hst : s.se.st ≠ .idle) (h : exec i s = .next t) :
    SameFrame s t := by
  cases i
  case reset => exact absurd rfl hi
  case sync | bit0 | bit1 => cases h; exact emitSymbol_sameFrame s _
  case seLoad => cases h; rw [State.nfTransfer_of_not_idle hst]; exact .refl s
  case nfw w =>
    have hwait : (s.driveNf w).nfTransfer = s.driveNf w := State.nfTransfer_of_not_idle hst
    cases h
    rw [hwait]
    exact driveNf_sameFrame s w
  case offer w => cases h; exact driveNf_sameFrame s w
  case chip0 | chip1 | endTok => cases h; exact moveToken_sameFrame s _
  case seEmit | seEndtok | fork => exact .of_guarded (coTransfer_sameFrame s) h
  case pulse =>
    refine .of_guarded ?_ h
    split
    · exact sendTrailer_sameFrame s
    · exact ciTransfer_sameFrame s
  case seReserved | peHoldFault | peReserved => cases h; exact .refl s
  case peFirst | peFlipUp | peFlipDown => exact .of_guarded (ciCommit_sameFrame s _ _ _) h
  case peSame0 | peSame1 =>
    simp only [exec, execPeSame0, execPeSame1] at h
    split at h
    · split at h <;> cases h
      · exact ciCommit_sameFrame s _ _ _
      · exact raiseAccOverflow_sameFrame s
    · cases h; exact .refl s
  case peFinishEmpty | peFinishLow | peFinishHigh =>
    simp only [exec, execPeFinishEmpty, execPeFinishLow, execPeFinishHigh] at h
    split at h
    · exact .of_guarded (ciCommit_sameFrame s _ _ _) h
    all_goals cases h; exact .refl s
  case peTrail => cases h; exact sendTrailer_sameFrame s
  case peOvf0 | peOvf1 => exact .of_guarded (raiseAccOverflow_sameFrame s) h

/-- Settles O21, by what each row does to SE's frame register (`exec_sameFrame`). -/
theorem latchedFrameDoesNotChange : Obligations.LatchedFrameDoesNotChange := by
  intro i s t hi hst h
  obtain ⟨hword, hheld⟩ := exec_sameFrame hi hst h
  exact ⟨hword, hheld⟩

/-! ### A transfer to PE: it happens, or the token waits (R51, R150) -/

/-- Where PE can take the token it sees, it is ready unless the operation emits and SINK does not accept (R150). -/
theorem State.ciReady_of_take {s : State} {t : ChipTok} {p : PE} {out : Option Pulse} (ho : s.ciOffer = some t)
    (ht : s.pe.take t = some (p, out)) : s.ciReady = (out.isNone || s.ports.poReady) := by
  have hrst : s.ports.rst = false := (State.ciOffer_cases ho).1
  have hneeds : s.needsPo = out.isSome := needsPo_of_take ho ht
  have htake := s.pe.take_isSome t
  rw [ht, Option.isSome_some, eq_comm, Bool.and_eq_true] at htake
  obtain ⟨hscan, hfits⟩ := htake
  have hpending : s.overflowPending = s.pe.overflowPending t := by simp [State.overflowPending, ho]
  cases out <;> simp_all [State.ciReady]

theorem State.ciTransfer_of_take_none {s : State} {t : ChipTok} (ho : s.ciOffer = some t) (ht : s.pe.take t = none) :
    s.ciTransfer = s := by
  simp [State.ciTransfer, ho, ht]

theorem State.ciTransfer_of_not_ready {s : State} (hr : s.ciReady = false) : s.ciTransfer = s := by
  unfold State.ciTransfer
  split <;> simp [hr]

/-! ### The chip link with PE alone (R188) -/

/-- The row of a chip token is that token's transfer (R74). -/
theorem exec_tokInstr (t : ChipTok) (s : State) : exec (tokInstr t) s = .next (s.moveToken t) := by
  rcases t with (_ | _) | x <;> rfl

/-- The wires of a chip token decode to its row (R74). -/
theorem decode_ctok_toBits (t : ChipTok) : decode (.ctok t.toBits) = .ok (tokInstr t) := by
  simp only [decode, decodeCtok, ChipTok.ofBits_toBits]
  rcases t with (_ | _) | x <;> rfl

theorem State.moveToken_of_peAlone {s : State} (hw : s.wiring = .peAlone) (t : ChipTok) :
    s.moveToken t = (s.driveCi t).ciTransfer := by
  simp [State.moveToken, hw]

/-- PE alone sees what CHIPSRC drives (R188). -/
theorem State.driveCi_ciOffer {s : State} (hw : s.wiring = .peAlone) (hrst : s.ports.rst = false) (t : ChipTok) :
    (s.driveCi t).ciOffer = some t := by
  simp [State.ciOffer, State.driveCi_eq, hw, hrst]

theorem fetch_tap_of_peAlone {s : State} (hrst : s.ports.rst = false) (hw : s.wiring = .peAlone) :
    s.fetch .tap = none := by
  simp [State.fetch, hrst, hw]

theorem fetch_chipsrc {s : State} (hrst : s.ports.rst = false) (w : BitVec 2) :
    s.fetch (.chipsrc w) = if s.wiring = .peAlone then some (.ctok w) else none := by
  simp [State.fetch, hrst]

/-- Settles O38: the row of a token drives it on `ci` and moves it (`State.moveToken_of_peAlone`); PE is ready exactly
where it takes the token and SINK accepts what it emits (`State.ciReady_of_take`), and elsewhere only the drive
remains. -/
theorem chipTokenReachesPeAlone : Obligations.ChipTokenReachesPeAlone := by
  refine ⟨fun s hrst => ⟨fetch_tap_of_peAlone hrst, fun hw w => by rw [fetch_chipsrc hrst, if_neg hw]⟩, ?_⟩
  intro s t hw hrst
  have hoffer := State.driveCi_ciOffer hw hrst t
  refine ⟨by rw [fetch_chipsrc hrst, if_pos hw], decode_ctok_toBits t, ?_, ?_⟩ <;>
    rw [exec_tokInstr, State.moveToken_of_peAlone hw]
  · intro p out htake hsink
    have hready : (s.driveCi t).ciReady = true := by
      rw [State.ciReady_of_take hoffer htake, Bool.or_eq_true, Option.isNone_iff_eq_none]
      exact hsink
    rw [State.ciTransfer_of_ready hoffer hready htake, State.ciCommit_eq]
    simp [State.driveCi_eq, State.setPorts, hw]
  · rintro (htake | ⟨p, q, htake, hpo⟩)
    · rw [State.ciTransfer_of_take_none hoffer htake]
      rfl
    · have hready : (s.driveCi t).ciReady = false := by
        rw [State.ciReady_of_take hoffer htake]
        exact hpo
      rw [State.ciTransfer_of_not_ready hready]
      rfl

end Sys2Proof.Machine
end

section
/-! The family of the encoding, first the coded words: the decoder and the encoder are inverse to each other, format by
format (spec/30_encoding.md R71 to R77, spec/42_top_and_host.md R181 to R183). -/

namespace Sys2Proof

open Sys2Proof.Machine

/-! ### Words cut into their wires -/

/-- Every two-bit word is assembled from two wires. -/
theorem exists_bits2 (w : BitVec 2) : ∃ a b, w = bits2 a b :=
  ⟨w.getLsbD 1, w.getLsbD 0, by revert w; decide⟩

/-- Every six-bit word is assembled from six wires. -/
theorem exists_bits6 (w : BitVec 6) : ∃ a b c d e f, w = bits6 a b c d e f :=
  ⟨w.getLsbD 5, w.getLsbD 4, w.getLsbD 3, w.getLsbD 2, w.getLsbD 1, w.getLsbD 0, by revert w; decide⟩

theorem getLsbD_ofBool_append {n : Nat} (b : Bool) (w : BitVec n) : (BitVec.ofBool b ++ w).getLsbD n = b := by
  rw [BitVec.getLsbD_append]
  simp

/-- A word is its top wire in front of the rest. -/
theorem ofBool_append_extractLsb' {n : Nat} (w : BitVec (1 + n)) :
    BitVec.ofBool (w.getLsbD n) ++ w.extractLsb' 0 n = w := by
  ext k hk
  by_cases hlow : k < n
  · simp [BitVec.getElem_append, hlow, BitVec.getLsbD_eq_getElem hk]
  · obtain rfl : k = n := by omega
    simp [BitVec.getElem_append]

/-- A chip token's wires are the ones it was read from (R74). -/
theorem ChipTok.toBits_ofBits (w : BitVec 2) : (ChipTok.ofBits w).toBits = w := by
  obtain ⟨a, b, rfl⟩ := exists_bits2 w
  cases a <;> cases b <;> rfl

/-- A pulse token is what its 33 wires say (R75). -/
theorem Pulse.ofBits_toBits (p : Pulse) : Pulse.ofBits p.toBits = p := by
  unfold Pulse.ofBits Pulse.toBits
  rw [BitVec.extractLsb'_append_eq_right, getLsbD_ofBool_append]

/-- A pulse token's wires are the ones it was read from (R75). -/
theorem Pulse.toBits_ofBits (w : BitVec 33) : (Pulse.ofBits w).toBits = w := ofBool_append_extractLsb' (n := 32) w

/-! ### Each format, in both directions -/

/-- The chips of a symbol are that symbol's row (R72). -/
theorem decodeSym_pattern (k : Sym) : decodeSym (pattern k) = .ok (symInstr k) := by cases k <;> rfl

theorem encode_symInstr (k : Sym) : encode (symInstr k) = .sym (pattern k) := by cases k <;> rfl

/-- There are exactly three symbols (R72). -/
theorem decodeSym_eq_ok {chips : List Bool} {i : Instr} (h : decodeSym chips = .ok i) :
    ∃ k, chips = pattern k ∧ i = symInstr k := by
  unfold decodeSym at h
  split at h
  · next hc => cases h; exact ⟨.sync, hc, rfl⟩
  · split at h
    · next hc => cases h; exact ⟨.bit0, hc, rfl⟩
    · split at h
      · next hc => cases h; exact ⟨.bit1, hc, rfl⟩
      · cases h

/-- Two wires of the chip link are the row of the token they carry (R74). -/
theorem decodeCtok_eq (w : BitVec 2) : decodeCtok w = tokInstr (ChipTok.ofBits w) := by
  unfold decodeCtok
  rcases ChipTok.ofBits w with (_ | _) | x <;> rfl

theorem encode_tokInstr (t : ChipTok) : encode (tokInstr t) = .ctok t.toBits := by
  rcases t with (_ | _) | x <;> rfl

theorem decode_ptok_toBits (p : Pulse) : decode (.ptok p.toBits) = .ok (.pulse p.last p.data) := by
  simp only [decode, Pulse.ofBits_toBits]

/-- The four values of `SE.st` are the four rows of SE (R76). -/
theorem encode_decodeSsel (w : BitVec 2) : encode (decodeSsel w) = .ssel w := by
  obtain ⟨a, b, rfl⟩ := exists_bits2 w
  cases a <;> cases b <;> rfl

/-- Where no overflow is pending every PE selector is the encoding of its row, the don't-care bits being operands
(R77). -/
theorem encode_decodePsel (w : BitVec 6) : encode (decodePsel w false) = .psel w false := by
  obtain ⟨a, b, c, d, e, f, rfl⟩ := exists_bits6 w
  rw [decodePsel_bits6]
  split <;> rfl

/-- With the arithmetic condition beside them the two patterns of SAME are the rows of OVF (R77, R149). -/
theorem encode_decodePsel_of_wf {w : BitVec 6} {o : Bool} (h : (Code.psel w o).wf = true) :
    encode (decodePsel w o) = .psel w o := by
  cases o with
  | false => exact encode_decodePsel w
  | true =>
    obtain rfl | rfl : w = 0b000010#6 ∨ w = 0b000111#6 := by simpa [Code.wf] using h
    all_goals rfl

/-- `nf_valid = 1` in front of a word is the OFFER of that word (R182). -/
theorem decode_nfport_offer (w : BitVec 36) : decode (.nfport (BitVec.ofBool true ++ w)) = .ok (.offer w) := by
  have hvalid : (BitVec.ofBool true ++ w).getLsbD 36 = true := getLsbD_ofBool_append true w
  have hdata : (BitVec.ofBool true ++ w).extractLsb' 0 36 = w := BitVec.extractLsb'_append_eq_right
  simp only [decode, hvalid, hdata, if_true]

/-- The 37 wires with `nf_valid = 1` are the encoding of the OFFER they carry (R182). -/
theorem encode_offer_extractLsb' {w : BitVec 37} (h : w.getLsbD 36 = true) :
    encode (.offer (w.extractLsb' 0 36)) = .nfport w := by
  have hw := ofBool_append_extractLsb' (n := 36) w
  rw [h] at hw
  exact congrArg Code.nfport hw

/-! ### The two directions together -/

/-- Settles O58, format by format; the PE selector by its six bits (`decodePsel_bits6`). -/
theorem decodeInvertsEncode : Obligations.DecodeInvertsEncode := by
  intro i
  cases i with
  | sync => exact decodeSym_pattern .sync
  | bit0 => exact decodeSym_pattern .bit0
  | bit1 => exact decodeSym_pattern .bit1
  | nfw w => rfl
  | chip0 => exact decode_ctok_toBits (.chip false)
  | chip1 => exact decode_ctok_toBits (.chip true)
  | endTok x => exact decode_ctok_toBits (.fin x)
  | pulse last data => exact decode_ptok_toBits ⟨data, last⟩
  | seLoad | seEmit | seEndtok | seReserved => rfl
  | peSame0 | peSame1 | peFlipUp | peFlipDown | peOvf0 | peOvf1 => rfl
  | peFirst | peFinishEmpty | peFinishLow | peFinishHigh | peTrail | peHoldFault | peReserved =>
    rw [encode, decode, decodePsel_bits6]
  | fork => rfl
  | offer w => exact decode_nfport_offer w
  | reset => rfl

/-- Settles O59, format by format: the word a row was read from is assembled again from the row's operands. -/
theorem encodeInvertsDecode : Obligations.EncodeInvertsDecode := by
  intro c i hwf h
  cases c with
  | sym chips =>
    obtain ⟨k, rfl, rfl⟩ := decodeSym_eq_ok h
    exact encode_symInstr k
  | nfw w => cases h; rfl
  | ctok w =>
    cases h
    rw [decodeCtok_eq, encode_tokInstr, ChipTok.toBits_ofBits]
  | ptok w =>
    cases h
    exact congrArg Code.ptok (Pulse.toBits_ofBits w)
  | ssel w => cases h; exact encode_decodeSsel w
  | psel w o => cases h; exact encode_decodePsel_of_wf hwf
  | forksel w =>
    simp only [decode] at h
    split at h <;> cases h
    next hw => rw [hw]; rfl
  | nfport w =>
    simp only [decode] at h
    split at h <;> cases h
    next hvalid => exact encode_offer_extractLsb' hvalid
  | rst w =>
    simp only [decode] at h
    split at h <;> cases h
    next hw => rw [hw]; rfl

/-- Settles O60, word by word. -/
theorem tableWordsDecode : Obligations.TableWordsDecode :=
  ⟨rfl, rfl, rfl, rfl, rfl, rfl, rfl, rfl, rfl, rfl, rfl, rfl⟩

end Sys2Proof
end

section
/-! The family of the encoding, then what the coded words stand for: the symbol table (R72, R73), the step of a decoded
word, the rows of the stream words and tokens (R71, R74, R75), and the operation PE's selector stands for (R77). -/

namespace Sys2Proof.Machine

/-! ### The symbol table (R72, R73) -/

/-- Settles O12. -/
theorem symbolTableIsTheSpecs : Obligations.SymbolTableIsTheSpecs :=
  ⟨rfl, rfl, rfl, plen_sync, plen_bit0, plen_bit1, fun k => ⟨pchip_zero k, fun _ h hp => pchip_pos h hp⟩⟩

/-- Symbol `sym ≥ 1` of a frame reads frame bit `sym - 1` (R73). -/
theorem symKind_of_pos {sym : BitVec 6} (w : NfWord) (h : 1 ≤ sym.toNat) :
    symKind sym w = bitSym (frameBit w (sym.toNat - 1)) := by
  have hne : sym ≠ 0 := by
    rintro rfl
    exact absurd h (by decide)
  have hbit : 36 - sym.toNat = 35 - (sym.toNat - 1) := by omega
  rw [symKind, if_neg hne, hbit, frameBit]

/-- Frame bit `b` is bit `3 - b mod 4` of nibble `b div 4` (R52, R71). -/
theorem frameBit_eq_nibble (w : NfWord) {b : Nat} (h : b < 36) :
    frameBit w b = (nibble w (b / 4)).getLsbD (3 - b % 4) := by
  have hplace : 32 - 4 * (b / 4) + (3 - b % 4) = 35 - b := by omega
  have hbit : 3 - b % 4 < 4 := by omega
  rw [nibble, BitVec.getLsbD_extractLsb', hplace, decide_eq_true hbit, Bool.true_and, frameBit]

/-- Settles O13. -/
theorem symbolReadsItsFrameBit : Obligations.SymbolReadsItsFrameBit := fun w =>
  ⟨symKind_zero w, fun _ h _ => symKind_of_pos w h, fun _ h => ⟨rfl, frameBit_eq_nibble w h⟩⟩

/-! ### The step -/

theorem step_of_turns {s : State} {turn : Turn} {rest : List Turn} (h : s.turns = turn :: rest) :
    step s = (s.beginTurn turn rest).runTurn turn.mover := by
  rw [step, State.runNext, h]

/-- A turn whose agent reads a selector that decodes runs that row (R76, R77, R181, R182). -/
theorem State.runTurn_of_decode {s : State} {m : Mover} {c : Code} {i : Instr} (hc : s.fetch m = some c)
    (hi : decode c = .ok i) : s.runTurn m = exec i s := by
  simp only [State.runTurn, hc, hi]

/-- Settles O7. -/
theorem stepRunsTheDecodedInstruction : Obligations.StepRunsTheDecodedInstruction := by
  intro s turn rest c i hturns hc hi
  refine ⟨?_, rfl⟩
  rw [step_of_turns hturns, State.runTurn_of_decode hc hi]

/-- Settles O22. -/
theorem heldSelectorsChangeNothing : Obligations.HeldSelectorsChangeNothing := fun _ _ _ _ _ => ⟨rfl, rfl, rfl⟩

/-! ### A word on `nf` (R71, R101) -/

/-- SE is ready for a word exactly where it is idle inside the sequencer's ranges, `rst` being 0 (R101, R110). -/
theorem State.nfReady_iff {s : State} (hrst : s.ports.rst = false) :
    s.nfReady = true ↔ s.se.st = .idle ∧ s.seqInRange = true := by
  simp [State.nfReady, hrst]

theorem State.nfTransfer_of_ready {s : State} (hr : s.nfReady = true) (hv : s.ports.nfValid = true) :
    s.nfTransfer = ((s.setSe (SE.latch s.ports.nfData)).logNf (.word s.ports.nfData)).setPorts
      { s.ports with nfValid := false } := by
  rw [State.nfTransfer, hr, hv]
  rfl

theorem State.nfTransfer_of_not_ready {s : State} (hr : s.nfReady = false) : s.nfTransfer = s := by
  rw [State.nfTransfer, hr]
  rfl

/-- What HOST drives on `nf` decides nothing about SE's readiness. -/
theorem State.driveNf_nfReady (s : State) (w : NfWord) : (s.driveNf w).nfReady = s.nfReady := rfl

/-- Settles O15: the row drives the word, and LOAD takes it where SE is ready. -/
theorem nfwIsLatchedOrWaits : Obligations.NfwIsLatchedOrWaits := by
  intro s w hrst
  have hexec : exec (.nfw w) s = .next (s.driveNf w).nfTransfer := rfl
  rw [hexec]
  constructor
  · intro hidle hrange
    have hready : (s.driveNf w).nfReady = true := (State.nfReady_iff hrst).mpr ⟨hidle, hrange⟩
    rw [State.nfTransfer_of_ready hready rfl]
    rfl
  · intro hbusy
    have hready : (s.driveNf w).nfReady = false := by
      rw [State.driveNf_nfReady, ← Bool.not_eq_true, State.nfReady_iff hrst]
      rintro ⟨hidle, hrange⟩
      simp [hidle, hrange] at hbusy
    rw [State.nfTransfer_of_not_ready hready]
    rfl

/-! ### A token on the chip link where SE drives it (R74, R181) -/

/-- Where SE is the producer the transfer of a token is that of the token SE offers, if it is this one (R51). -/
theorem State.moveToken_of_se {s : State} (hw : s.wiring ≠ .peAlone) (t : ChipTok) :
    s.moveToken t = if s.coOffer = some t then s.coTransfer else s := by
  unfold State.moveToken
  split
  · next hpe => exact absurd hpe hw
  all_goals rfl

theorem exec_seEmit_of_run {s : State} (h : s.se.st = .run) : exec .seEmit s = .next s.coTransfer := if_pos h

theorem exec_seEndtok_of_fin {s : State} (h : s.se.st = .fin) : exec .seEndtok s = .next s.coTransfer := if_pos h

/-- SE offers a chip in `S_RUN` only (R105). -/
theorem State.run_of_coOffer_chip {s : State} {c : Bool} (h : s.coOffer = some (.chip c)) : s.se.st = .run := by
  obtain ⟨-, ⟨hrun, -⟩ | ⟨-, -, htok, -⟩⟩ := State.coOffer_cases h
  · exact hrun
  · cases htok

/-- SE offers END in `S_END` only (R106). -/
theorem State.fin_of_coOffer_fin {s : State} {x : Bool} (h : s.coOffer = some (.fin x)) : s.se.st = .fin := by
  obtain ⟨-, ⟨-, -, htok, -⟩ | ⟨hfin, -⟩⟩ := State.coOffer_cases h
  · cases htok
  · exact hfin

/-- Settles O40: the row of the token SE offers is the transfer that SE.EMIT, or SE.ENDTOK, is. -/
theorem tokenRowIsItsProducersStep : Obligations.TokenRowIsItsProducersStep := by
  intro s hw
  refine ⟨fun c ho => ?_, fun x ho => ?_, fun t ho => ?_⟩ <;> rw [exec_tokInstr, State.moveToken_of_se hw]
  · rw [if_pos ho, exec_seEmit_of_run (State.run_of_coOffer_chip ho)]
  · rw [if_pos ho, exec_seEndtok_of_fin (State.fin_of_coOffer_fin ho)]
  · rw [if_neg ho]

/-! ### The token PE takes (R77, R142 to R147) -/

section Take
variable {p : PE}

theorem PE.take_first (c : Bool) (hs : p.st = .scan) (hv : p.pv = false) : p.take (.chip c) = some (p.first c, none) := by
  simp [PE.take, hs, hv]

theorem PE.take_same {c : Bool} (hs : p.st = .scan) (hv : p.pv = true) (hp : p.pol = c)
    (hfits : accFits (p.sum c) = true) : p.take (.chip c) = some (p.same c, none) := by
  simp [PE.take, hs, hv, hp, hfits]

/-- A chip whose sum leaves the range is not taken: OVF takes SAME's place (R149). -/
theorem PE.take_overflow {c : Bool} (hs : p.st = .scan) (hv : p.pv = true) (hp : p.pol = c)
    (hfits : accFits (p.sum c) = false) : p.take (.chip c) = none := by
  simp [PE.take, hs, hv, hp, hfits]

theorem PE.take_flip {c : Bool} (hs : p.st = .scan) (hv : p.pv = true) (hp : p.pol = !c) :
    p.take (.chip c) = some (p.flip c, some ⟨p.acc, false⟩) := by
  simp [PE.take, hs, hv, hp]

theorem PE.take_finishEmpty (x : Bool) (hs : p.st = .scan) (hv : p.pv = false) :
    p.take (.fin x) = some (p, some ⟨p.acc, true⟩) := by
  simp [PE.take, hs, hv]

theorem PE.take_finishLow (x : Bool) (hs : p.st = .scan) (hv : p.pv = true) (hp : p.pol = false) :
    p.take (.fin x) = some (p.finishLow, some ⟨p.acc, true⟩) := by
  simp [PE.take, hs, hv, hp]

theorem PE.take_finishHigh (x : Bool) (hs : p.st = .scan) (hv : p.pv = true) (hp : p.pol = true) :
    p.take (.fin x) = some (p.finishHigh, some ⟨p.acc, false⟩) := by
  simp [PE.take, hs, hv, hp]

/-- In `P_TRAIL`, `P_FAULT` and the reserved state PE takes no token (R150). -/
theorem PE.take_of_not_scan (hs : p.st ≠ .scan) (t : ChipTok) : p.take t = none := by
  rw [← Option.not_isSome_iff_eq_none, PE.take_isSome]
  simp [hs]

/-- No operation that consumes a token touches `PE.fault` (R142 to R147, R234). -/
theorem PE.take_fault {q : PE} {t : ChipTok} {out : Option Pulse} (h : p.take t = some (q, out)) :
    q.fault = p.fault := by
  obtain ⟨-, ⟨c, -, -, rfl, -⟩ | ⟨c, -, -, -, -, rfl, -⟩ | ⟨c, -, -, -, rfl, -⟩ | ⟨x, -, -, rfl, -⟩ |
    ⟨x, -, -, -, rfl, -⟩ | ⟨x, -, -, -, rfl, -⟩⟩ := PE.take_cases h
  all_goals rfl

end Take

/-- Settles O39, one operation after another. -/
theorem takenTokenSelectsTheOperation : Obligations.TakenTokenSelectsTheOperation := fun _ =>
  ⟨fun hs => ⟨fun c hv => PE.take_first c hs hv, fun _ hv hp hfits => PE.take_same hs hv hp hfits,
    fun _ hv hp hfits => PE.take_overflow hs hv hp hfits, fun _ hv hp => PE.take_flip hs hv hp,
    fun x hv => PE.take_finishEmpty x hs hv, fun x hv hp => PE.take_finishLow x hs hv hp,
    fun x hv hp => PE.take_finishHigh x hs hv hp⟩, PE.take_of_not_scan⟩

/-! ### The pulse on `po` (R75, R150) -/

/-- `po_valid` is 1 where the trailer is pending, or where a scanning PE is offered a token whose operation emits the pulse
that `po_data` and `po_last` show (R150). -/
theorem State.poValid_cases {s : State} (h : s.poValid = true) :
    s.ports.rst = false ∧
      (s.pe.st = .trail ∧ (⟨s.poData, s.poLast⟩ : Pulse) = trailer ∨
        s.pe.st ≠ .trail ∧ ∃ t p, s.ciOffer = some t ∧ s.pe.take t = some (p, some ⟨s.poData, s.poLast⟩)) := by
  rw [State.poValid, Bool.and_eq_true, Bool.not_eq_true'] at h
  obtain ⟨hrst, hneeds⟩ := h
  refine ⟨hrst, ?_⟩
  cases hs : s.pe.st with
  | trail => exact .inl ⟨rfl, by simp [State.poData, State.poLast, hs, trailer]⟩
  | fault | reserved => simp [State.needsPo, hs] at hneeds
  | scan =>
    refine .inr ⟨by simp, ?_⟩
    cases ho : s.ciOffer with
    | none => simp [State.needsPo, hs, ho] at hneeds
    | some t =>
      refine ⟨t, ?_⟩
      cases t with
      | chip c =>
        obtain ⟨hv, hp⟩ : s.pe.pv = true ∧ s.pe.pol = !c := by
          simpa [State.needsPo, hs, ho, Bool.eq_not] using hneeds
        exact ⟨s.pe.flip c, rfl, by simp [PE.take_flip hs hv hp, State.poData, State.poLast, hs, ho]⟩
      | fin x =>
        cases hv : s.pe.pv with
        | false => exact ⟨s.pe, rfl, by simp [PE.take_finishEmpty x hs hv, State.poData, State.poLast, hs, ho, hv]⟩
        | true =>
          cases hp : s.pe.pol with
          | false =>
            exact ⟨s.pe.finishLow, rfl, by simp [PE.take_finishLow x hs hv hp, State.poData, State.poLast, hs, ho, hp]⟩
          | true =>
            exact ⟨s.pe.finishHigh, rfl, by
              simp [PE.take_finishHigh x hs hv hp, State.poData, State.poLast, hs, ho, hv, hp]⟩

theorem State.sendTrailer_of_ready {s : State} (hs : s.pe.st = .trail) (hrst : s.ports.rst = false)
    (hpo : s.ports.poReady = true) : s.sendTrailer = (s.setPe s.pe.leaveTrail).logPulses [.pulse trailer] :=
  if_pos ⟨hs, hrst, hpo⟩

/-- Settles O41: the pulse on the port is the trailer or what the transfer of the offered token emits
(`State.poValid_cases`). -/
theorem pulseRowMovesThePulseOnThePort : Obligations.PulseRowMovesThePulseOnThePort := by
  intro s last data
  constructor
  · rintro hvalid hpo rfl rfl
    have hexec : exec (.pulse s.poLast s.poData) s = .next (if s.pe.st = .trail then s.sendTrailer else s.ciTransfer) :=
      if_pos ⟨hvalid, hpo, rfl, rfl⟩
    rw [hexec]
    refine ⟨_, rfl, ?_⟩
    obtain ⟨hrst, ⟨hs, hpulse⟩ | ⟨hs, tok, p, ho, htake⟩⟩ := State.poValid_cases hvalid
    · rw [if_pos hs, State.sendTrailer_of_ready hs hrst hpo, hpulse]
      exact ⟨rfl, rfl, rfl, rfl, rfl, fun _ => ⟨rfl, rfl, rfl, rfl⟩, fun hne => absurd hs hne⟩
    · have hready : s.ciReady = true := by rw [State.ciReady_of_take ho htake, hpo, Bool.or_true]
      rw [if_neg hs, State.ciTransfer_of_ready ho hready htake, State.ciCommit_moved]
      exact ⟨rfl, rfl, rfl, rfl, PE.take_fault htake, fun htrail => absurd htrail hs,
        fun _ => ⟨tok, p, _, ho, htake, rfl⟩⟩
  · intro hno
    refine if_neg ?_
    rintro ⟨hvalid, hpo, hdata, hlast⟩
    simp [hvalid, hpo, hdata, hlast] at hno

/-! ### The operation PE's selector stands for (R77, R149) -/

section Selects
variable {s : State}

/-- With a token offered the selector is decoded from its six bits and the arithmetic condition (R77). -/
theorem State.selects_of_offer {t : ChipTok} (ho : s.ciOffer = some t) :
    s.selects (decodePsel (bits6 s.pe.st.bit1 s.pe.st.bit0 (t.toBits.getLsbD 1) (t.toBits.getLsbD 0) s.pe.pv s.pe.pol)
      (s.pe.overflowPending t)) :=
  ⟨_, State.pselCode_of_offer ho, rfl⟩

/-- A scanning PE that is offered a chip: the selector by the chip, the run and the arithmetic condition. -/
theorem State.selects_of_chip {c : Bool} (ho : s.ciOffer = some (.chip c)) (hs : s.pe.st = .scan) :
    s.selects (decodePsel (bits6 false false false c s.pe.pv s.pe.pol) (s.pe.overflowPending (.chip c))) := by
  have h := State.selects_of_offer ho
  rwa [hs, ChipTok.toBits_end, ChipTok.toBits_chip] at h

/-- A scanning PE that is offered END: the selector by the token's ignored bit and the run. -/
theorem State.selects_of_fin {b : Bool} (ho : s.ciOffer = some (.fin b)) (hs : s.pe.st = .scan) :
    s.selects (decodePsel (bits6 false false true b s.pe.pv s.pe.pol) false) := by
  have h := State.selects_of_offer ho
  rwa [hs, ChipTok.toBits_end, ChipTok.toBits_chip] at h

theorem State.selects_first {c : Bool} (ho : s.ciOffer = some (.chip c)) (hs : s.pe.st = .scan)
    (hv : s.pe.pv = false) : s.selects (.peFirst c s.pe.pol) := by
  have h := State.selects_of_chip ho hs
  rwa [hv, decodePsel_bits6] at h

/-- On a chip that continues the run the arithmetic condition is that the sum does not fit (R149). -/
theorem PE.overflowPending_of_same {p : PE} {c : Bool} (hs : p.st = .scan) (hv : p.pv = true) (hp : p.pol = c) :
    p.overflowPending (.chip c) = !accFits (p.sum c) := by
  simp [PE.overflowPending, hs, hv, hp]

theorem State.selects_same {c : Bool} (ho : s.ciOffer = some (.chip c)) (hs : s.pe.st = .scan)
    (hv : s.pe.pv = true) (hp : s.pe.pol = c) (hfits : accFits (s.pe.sum c) = true) :
    s.selects (if c then .peSame1 else .peSame0) := by
  have h := State.selects_of_chip ho hs
  rw [hv, hp, PE.overflowPending_of_same hs hv hp, hfits, decodePsel_bits6] at h
  cases c <;> exact h

theorem State.selects_ovf {c : Bool} (ho : s.ciOffer = some (.chip c)) (hs : s.pe.st = .scan)
    (hv : s.pe.pv = true) (hp : s.pe.pol = c) (hfits : accFits (s.pe.sum c) = false) :
    s.selects (if c then .peOvf1 else .peOvf0) := by
  have h := State.selects_of_chip ho hs
  rw [hv, hp, PE.overflowPending_of_same hs hv hp, hfits, decodePsel_bits6] at h
  cases c <;> exact h

theorem State.selects_flip {c : Bool} (ho : s.ciOffer = some (.chip c)) (hs : s.pe.st = .scan)
    (hv : s.pe.pv = true) (hp : s.pe.pol = !c) : s.selects (if c then .peFlipUp else .peFlipDown) := by
  have h := State.selects_of_chip ho hs
  rw [hv, hp, decodePsel_bits6] at h
  cases c <;> exact h

theorem State.selects_finishEmpty {b : Bool} (ho : s.ciOffer = some (.fin b)) (hs : s.pe.st = .scan)
    (hv : s.pe.pv = false) : s.selects (.peFinishEmpty b s.pe.pol) := by
  have h := State.selects_of_fin ho hs
  rwa [hv, decodePsel_bits6] at h

theorem State.selects_finishLow {b : Bool} (ho : s.ciOffer = some (.fin b)) (hs : s.pe.st = .scan)
    (hv : s.pe.pv = true) (hp : s.pe.pol = false) : s.selects (.peFinishLow b) := by
  have h := State.selects_of_fin ho hs
  rwa [hv, hp, decodePsel_bits6] at h

theorem State.selects_finishHigh {b : Bool} (ho : s.ciOffer = some (.fin b)) (hs : s.pe.st = .scan)
    (hv : s.pe.pv = true) (hp : s.pe.pol = true) : s.selects (.peFinishHigh b) := by
  have h := State.selects_of_fin ho hs
  rwa [hv, hp, decodePsel_bits6] at h

/-- In `P_TRAIL` the selector stands for PE.TRAIL, with a token offered or not (R148). -/
theorem State.selects_trail (hs : s.pe.st = .trail) : ∃ a b, s.selects (.peTrail a b s.pe.pv s.pe.pol) := by
  cases ho : s.ciOffer with
  | none =>
    refine ⟨false, false, .psel (bits6 false true false false s.pe.pv s.pe.pol) false, ?_, ?_⟩
    · simp [State.pselCode, ho, hs, PeSt.bit1, PeSt.bit0]
    · rw [decode, decodePsel_bits6]
  | some t =>
    have h := State.selects_of_offer ho
    rw [hs, PeSt.bit1, PeSt.bit0, decodePsel_bits6] at h
    exact ⟨_, _, h⟩

end Selects

/-! ### The rows of PE by the polarity of the chip, and by the token offered -/

/-- SAME, for both polarities; OVF takes its place where the sum does not fit (R143, R149). -/
theorem exec_same (c : Bool) (s : State) :
    exec (if c then .peSame1 else .peSame0) s =
      if s.ciOffer = some (.chip c) ∧ s.pe.st = .scan ∧ s.pe.pv = true ∧ s.pe.pol = c then
        if accFits (s.pe.sum c) then .next (s.ciCommit (.chip c) (s.pe.same c) none) else .next s.raiseAccOverflow
      else .next s := by
  cases c <;> rfl

/-- FLIP, for both polarities (R144). -/
theorem exec_flip (c : Bool) (s : State) :
    exec (if c then .peFlipUp else .peFlipDown) s =
      if s.ciOffer = some (.chip c) ∧ s.pe.st = .scan ∧ s.pe.pv = true ∧ s.pe.pol = !c ∧ s.ports.poReady = true then
        .next (s.ciCommit (.chip c) (s.pe.flip c) (some ⟨s.pe.acc, false⟩))
      else .next s := by
  cases c <;> rfl

/-- OVF, for both polarities (R149). -/
theorem exec_ovf (c : Bool) (s : State) :
    exec (if c then .peOvf1 else .peOvf0) s =
      if s.ciOffer = some (.chip c) ∧ s.pe.pol = c ∧ s.pe.overflowPending (.chip c) = true then
        .next s.raiseAccOverflow
      else .next s := by
  cases c <;> rfl

section EndOffered
variable {s : State} {b : Bool}

theorem exec_finishEmpty_of_fin (ho : s.ciOffer = some (.fin b)) (x y : Bool) :
    exec (.peFinishEmpty x y) s =
      if s.pe.st = .scan ∧ s.pe.pv = false ∧ s.ports.poReady = true then
        .next (s.ciCommit (.fin b) s.pe (some ⟨s.pe.acc, true⟩))
      else .next s := by
  simp only [exec, execPeFinishEmpty, ho]

theorem exec_finishLow_of_fin (ho : s.ciOffer = some (.fin b)) (x : Bool) :
    exec (.peFinishLow x) s =
      if s.pe.st = .scan ∧ s.pe.pv = true ∧ s.pe.pol = false ∧ s.ports.poReady = true then
        .next (s.ciCommit (.fin b) s.pe.finishLow (some ⟨s.pe.acc, true⟩))
      else .next s := by
  simp only [exec, execPeFinishLow, ho]

theorem exec_finishHigh_of_fin (ho : s.ciOffer = some (.fin b)) (x : Bool) :
    exec (.peFinishHigh x) s =
      if s.pe.st = .scan ∧ s.pe.pv = true ∧ s.pe.pol = true ∧ s.ports.poReady = true then
        .next (s.ciCommit (.fin b) s.pe.finishHigh (some ⟨s.pe.acc, false⟩))
      else .next s := by
  simp only [exec, execPeFinishHigh, ho]

end EndOffered

/-- The rows of the end of a sequence (R145 to R147). -/
def IsFinish (i : Instr) : Prop :=
  (∃ x y, i = .peFinishEmpty x y) ∨ (∃ x, i = .peFinishLow x) ∨ ∃ x, i = .peFinishHigh x

/-- A row of the end of a sequence changes something only where END is offered (R145 to R147). -/
theorem IsFinish.fin_offered {i : Instr} (hi : IsFinish i) {s t : State} (h : exec i s = .next t) (hne : t ≠ s) :
    ∃ b, s.ciOffer = some (.fin b) := by
  match ho : s.ciOffer with
  | some (.fin b) => exact ⟨b, rfl⟩
  | none | some (.chip _) =>
    have hstay : exec i s = .next s := by
      obtain ⟨x, y, rfl⟩ | ⟨x, rfl⟩ | ⟨x, rfl⟩ := hi <;>
        simp only [exec, execPeFinishEmpty, execPeFinishLow, execPeFinishHigh, ho]
    rw [hstay] at h
    cases h
    exact absurd rfl hne

/-! ### A row of PE changes something only as the selected operation (R77, R233 item 7) -/

/-- A guarded row that changes the state has its guard. -/
theorem guard_of_changes {g : Prop} [Decidable g] {s t : State} {o : Host.Outcome State Fault Refusal}
    (h : (if g then o else .next s) = .next t) (hne : t ≠ s) : g ∧ o = .next t := by
  split at h
  · next hg => exact ⟨hg, h⟩
  · cases h; exact absurd rfl hne

/-- PE's selector in `s` stands for a row that answers `t`. -/
def State.SelectsStepTo (s t : State) : Prop := ∃ j, s.selects j ∧ exec j s = .next t

/-- The row of SAME, where it changes something, is SAME or the OVF that takes its place (R149). -/
theorem same_selectsStepTo {c : Bool} {s t : State} (h : exec (if c then .peSame1 else .peSame0) s = .next t)
    (hne : t ≠ s) : s.SelectsStepTo t := by
  have hrow := h
  rw [exec_same] at hrow
  obtain ⟨⟨ho, hs, hv, hp⟩, hrow⟩ := guard_of_changes hrow hne
  cases hfits : accFits (s.pe.sum c) with
  | true => exact ⟨_, State.selects_same ho hs hv hp hfits, h⟩
  | false =>
    have hpending : s.pe.overflowPending (.chip c) = true := by
      rw [PE.overflowPending_of_same hs hv hp, hfits, Bool.not_false]
    refine ⟨_, State.selects_ovf ho hs hv hp hfits, ?_⟩
    rw [hfits] at hrow
    rw [exec_ovf, if_pos ⟨ho, hp, hpending⟩]
    exact hrow

theorem flip_selectsStepTo {c : Bool} {s t : State} (h : exec (if c then .peFlipUp else .peFlipDown) s = .next t)
    (hne : t ≠ s) : s.SelectsStepTo t := by
  have hrow := h
  rw [exec_flip] at hrow
  obtain ⟨⟨ho, hs, hv, hp, -⟩, -⟩ := guard_of_changes hrow hne
  exact ⟨_, State.selects_flip ho hs hv hp, h⟩

/-- An overflow is pending only on a chip that continues the run of a scanning PE (R149, R150). -/
theorem PE.overflowPending_chip {p : PE} {c : Bool} (h : p.overflowPending (.chip c) = true) :
    p.st = .scan ∧ p.pv = true ∧ p.pol = c ∧ accFits (p.sum c) = false := by
  simpa [PE.overflowPending] using h

theorem ovf_selectsStepTo {c : Bool} {s t : State} (h : exec (if c then .peOvf1 else .peOvf0) s = .next t)
    (hne : t ≠ s) : s.SelectsStepTo t := by
  have hrow := h
  rw [exec_ovf] at hrow
  obtain ⟨⟨ho, -, hpending⟩, -⟩ := guard_of_changes hrow hne
  obtain ⟨hs, hv, hp, hfits⟩ := PE.overflowPending_chip hpending
  exact ⟨_, State.selects_ovf ho hs hv hp hfits, h⟩

/-- PE.TRAIL changes something in `P_TRAIL` only (R148). -/
theorem State.sendTrailer_of_not_trail {s : State} (hs : s.pe.st ≠ .trail) : s.sendTrailer = s :=
  if_neg fun ⟨htrail, _⟩ => hs htrail

/-- Settles O33, row by row: the row's guard determines the selector's bits, and the bits that may differ are
don't-cares of the row's meaning. -/
theorem onePeOperationPerSelector : Obligations.OnePeOperationPerSelector := by
  intro i s t hrow h hne
  show s.SelectsStepTo t
  cases i with
  | peFirst c x =>
    obtain ⟨⟨ho, hs, hv⟩, -⟩ := guard_of_changes h hne
    exact ⟨.peFirst c s.pe.pol, State.selects_first ho hs hv, h⟩
  | peSame0 => exact same_selectsStepTo (c := false) h hne
  | peSame1 => exact same_selectsStepTo (c := true) h hne
  | peFlipUp => exact flip_selectsStepTo (c := true) h hne
  | peFlipDown => exact flip_selectsStepTo (c := false) h hne
  | peFinishEmpty x y =>
    obtain ⟨b, ho⟩ := IsFinish.fin_offered (.inl ⟨x, y, rfl⟩) h hne
    obtain ⟨⟨hs, hv, -⟩, -⟩ := guard_of_changes ((exec_finishEmpty_of_fin ho x y).symm.trans h) hne
    exact ⟨.peFinishEmpty b s.pe.pol, State.selects_finishEmpty ho hs hv, h⟩
  | peFinishLow x =>
    obtain ⟨b, ho⟩ := IsFinish.fin_offered (.inr (.inl ⟨x, rfl⟩)) h hne
    obtain ⟨⟨hs, hv, hp, -⟩, -⟩ := guard_of_changes ((exec_finishLow_of_fin ho x).symm.trans h) hne
    exact ⟨.peFinishLow b, State.selects_finishLow ho hs hv hp, h⟩
  | peFinishHigh x =>
    obtain ⟨b, ho⟩ := IsFinish.fin_offered (.inr (.inr ⟨x, rfl⟩)) h hne
    obtain ⟨⟨hs, hv, hp, -⟩, -⟩ := guard_of_changes ((exec_finishHigh_of_fin ho x).symm.trans h) hne
    exact ⟨.peFinishHigh b, State.selects_finishHigh ho hs hv hp, h⟩
  | peTrail w x y z =>
    have hs : s.pe.st = .trail := by
      by_contra hs
      have hstay : exec (.peTrail w x y z) s = .next s := congrArg _ (State.sendTrailer_of_not_trail hs)
      rw [hstay] at h
      cases h
      exact hne rfl
    obtain ⟨a, b, hsel⟩ := State.selects_trail hs
    exact ⟨_, hsel, h⟩
  | peOvf0 => exact ovf_selectsStepTo (c := false) h hne
  | peOvf1 => exact ovf_selectsStepTo (c := true) h hne
  | peHoldFault | peReserved => cases h; exact absurd rfl hne
  | sync | bit0 | bit1 | nfw | chip0 | chip1 | endTok | pulse | seLoad | seEmit | seEndtok | seReserved | fork | offer
  | reset =>
    obtain ⟨w, o, hcode⟩ := hrow
    cases hcode

end Sys2Proof.Machine
end

section
/-! The family of the Symbol Encoder: its wires and LOAD (R101, R110), and the step that never stops (R238). -/

namespace Sys2Proof.Machine

/-! ### SE's wires and LOAD (R101, R110) -/

/-- No unit is ready for a word while `rst` is 1 (R250). -/
theorem State.nfReady_of_rst {s : State} (h : s.ports.rst = true) : s.nfReady = false := by
  simp [State.nfReady, h]

theorem State.coOffer_of_rst {s : State} (h : s.ports.rst = true) : s.coOffer = none := by
  simp [State.coOffer, h]

/-- In `S_RUN` inside its ranges SE offers the chip it stands at (R105). -/
theorem State.coOffer_of_run {s : State} (hrst : s.ports.rst = false) (hst : s.se.st = .run)
    (hrange : s.seqInRange = true) : s.coOffer = some (.chip (pchip s.kind s.se.pos.toNat)) := by
  simp [State.coOffer, hrst, hst, hrange]

/-- In `S_END` inside its ranges SE offers END (R106). -/
theorem State.coOffer_of_fin {s : State} (hrst : s.ports.rst = false) (hst : s.se.st = .fin)
    (hrange : s.seqInRange = true) : s.coOffer = some (.fin false) := by
  simp [State.coOffer, hrst, hst, hrange]

/-- Outside `S_RUN` and `S_END` SE offers nothing (R110). -/
theorem State.coOffer_of_quiet {s : State} (hrun : s.se.st ≠ .run) (hfin : s.se.st ≠ .fin) : s.coOffer = none := by
  rw [Option.eq_none_iff_forall_ne_some]
  intro t ho
  obtain ⟨-, ⟨h, -⟩ | ⟨h, -⟩⟩ := State.coOffer_cases ho
  · exact hrun h
  · exact hfin h

theorem State.coValid_of_offer {s : State} {t : ChipTok} (h : s.coOffer = some t) : s.coValid = true := by
  simp [State.coValid, h]

theorem State.coValid_of_no_offer {s : State} (h : s.coOffer = none) : s.coValid = false := by
  simp [State.coValid, h]

theorem State.nfReady_of_busy {s : State} (h : s.se.st ≠ .idle ∨ s.seqInRange = false) : s.nfReady = false := by
  rcases h with h | h <;> simp [State.nfReady, h]

/-- SE is ready for a word only where it is idle (R101). -/
theorem State.idle_of_nfReady {s : State} (h : s.nfReady = true) : s.se.st = .idle := by
  by_contra hbusy
  rw [State.nfReady_of_busy (.inl hbusy)] at h
  cases h

/-- The wires `co_tok` in `S_RUN` with `sym` and `pos` at a chip of a symbol (R110). -/
theorem State.coTok_of_run {s : State} (hst : s.se.st = .run) (hsym : s.se.sym.toNat ≤ 36)
    (hpos : s.se.pos.toNat < plen s.kind) : s.coTok = bits2 false (pchip s.kind s.se.pos.toNat) := by
  have hchip : s.atChip = true := decide_eq_true ⟨hsym, hpos⟩
  simp [State.coTok, hst, hchip, ChipTok.toBits]

/-- The wires `co_tok` in `S_END` (R110). -/
theorem State.coTok_of_fin {s : State} (hst : s.se.st = .fin) : s.coTok = 0b10#2 := by
  simp only [State.coTok, hst]
  rfl

/-- Settles O11: the offer in each control state gives `co_valid`, `State.nfReady` gives `nf_ready`. -/
theorem seOutputWires : Obligations.SeOutputWires := by
  refine ⟨fun s => State.coTok_of_run, fun s => State.coTok_of_fin, fun s hrst => ⟨?_, ?_, ?_, ?_⟩⟩
  · intro hidle hrange
    exact ⟨(State.nfReady_iff hrst).mpr ⟨hidle, hrange⟩,
      State.coValid_of_no_offer (State.coOffer_of_quiet (by simp [hidle]) (by simp [hidle]))⟩
  · intro hrun hrange
    obtain ⟨-, hsym, hpos⟩ := s.seqInRange_iff.mp hrange
    exact ⟨State.nfReady_of_busy (.inl (by simp [hrun])),
      State.coValid_of_offer (State.coOffer_of_run hrst hrun hrange), State.coTok_of_run hrun hsym hpos⟩
  · intro hfin hrange
    exact ⟨State.nfReady_of_busy (.inl (by simp [hfin])),
      State.coValid_of_offer (State.coOffer_of_fin hrst hfin hrange), State.coTok_of_fin hfin⟩
  · rintro (hres | hrange)
    · exact ⟨State.nfReady_of_busy (.inl (by simp [hres])),
        State.coValid_of_no_offer (State.coOffer_of_quiet (by simp [hres]) (by simp [hres]))⟩
    · exact ⟨State.nfReady_of_busy (.inr hrange), State.coValid_of_no_offer (State.coOffer_of_out_of_range hrange)⟩

/-- Nothing is latched where HOST offers nothing (R101). -/
theorem State.nfTransfer_of_no_offer {s : State} (hv : s.ports.nfValid = false) : s.nfTransfer = s := by
  simp [State.nfTransfer, hv]

/-- Settles O14: the row is the `nf` transfer, which needs SE ready and a word offered. -/
theorem loadLatchesTheOfferedWord : Obligations.LoadLatchesTheOfferedWord := by
  have hexec : ∀ s : State, exec .seLoad s = .next s.nfTransfer := fun _ => rfl
  refine ⟨fun s hrst hidle hrange hv => ?_, fun s hno => ?_, fun s => State.nfReady_iff⟩
  · refine ⟨by rw [hidle]; rfl, ?_⟩
    rw [hexec, State.nfTransfer_of_ready ((State.nfReady_iff hrst).mpr ⟨hidle, hrange⟩) hv]
    rfl
  · rw [hexec]
    obtain hbusy | hrange | hv | hrst := hno
    · rw [State.nfTransfer_of_not_ready (State.nfReady_of_busy (.inl hbusy))]
    · rw [State.nfTransfer_of_not_ready (State.nfReady_of_busy (.inr hrange))]
    · rw [State.nfTransfer_of_no_offer hv]
    · rw [State.nfTransfer_of_not_ready (State.nfReady_of_rst hrst)]

/-! ### A step never stops (R238, R110, R150) -/

/-- A guarded row answers a next state whether its guard holds or not. -/
theorem exists_next_ite (c : Prop) [Decidable c] (s t : State) :
    ∃ u, (if c then .next t else .next s : Host.Outcome State Fault Refusal) = .next u := by
  split <;> exact ⟨_, rfl⟩

/-- No row answers a fault or a refusal. -/
theorem exec_eq_next (i : Instr) (s : State) : ∃ t, exec i s = .next t := by
  cases i
  case pulse | seEmit | seEndtok | fork | peFirst | peFlipUp | peFlipDown | peOvf0 | peOvf1 =>
    exact exists_next_ite _ _ _
  case peSame0 | peSame1 =>
    simp only [exec, execPeSame0, execPeSame1]
    split
    · exact exists_next_ite _ _ _
    · exact ⟨s, rfl⟩
  case peFinishEmpty | peFinishLow | peFinishHigh =>
    simp only [exec, execPeFinishEmpty, execPeFinishLow, execPeFinishHigh]
    split
    · exact exists_next_ite _ _ _
    all_goals exact ⟨s, rfl⟩
  all_goals exact ⟨_, rfl⟩

/-- A turn whose agent reads no selector changes nothing (R110, R150). -/
theorem State.runTurn_of_no_selector {s : State} {m : Mover} (hc : s.fetch m = none) : s.runTurn m = .next s := by
  simp only [State.runTurn, hc]

/-- A turn whose agent reads a word that stands for no operation changes nothing (R181, R182). -/
theorem State.runTurn_of_reject {s : State} {m : Mover} {c : Code} {e : Reject} (hc : s.fetch m = some c)
    (he : decode c = .error e) : s.runTurn m = .next s := by
  simp only [State.runTurn, hc, he]

theorem State.runTurn_eq_next (s : State) (m : Mover) : ∃ t, s.runTurn m = .next t := by
  cases hc : s.fetch m with
  | none => exact ⟨s, State.runTurn_of_no_selector hc⟩
  | some c =>
    cases hi : decode c with
    | ok i => rw [State.runTurn_of_decode hc hi]; exact exec_eq_next i s
    | error e => exact ⟨s, State.runTurn_of_reject hc hi⟩

/-- An empty schedule enables no step (R238). -/
theorem step_of_no_turns {s : State} (h : s.turns = []) : step s = .next s := by
  rw [step, State.runNext, h]

/-- Settles O8. -/
theorem stepNeverStops : Obligations.StepNeverStops := by
  refine ⟨fun s => ?_, fun s => step_of_no_turns, ?_, ?_⟩
  · cases hturns : s.turns with
    | nil => exact ⟨s, step_of_no_turns hturns⟩
    | cons turn rest => rw [step_of_turns hturns]; exact State.runTurn_eq_next _ _
  · intro s turn rest hturns hc
    rw [step_of_turns hturns, State.runTurn_of_no_selector hc]
  · intro s turn rest c e hturns hc he
    rw [step_of_turns hturns, State.runTurn_of_reject hc he]

end Sys2Proof.Machine
end

section
/-! The family of the Symbol Encoder, continued: the transfer of the token SE offers, and the rows that move it. -/

namespace Sys2Proof.Machine

/-! ### The transfer of the token SE offers (R105, R106, R181) -/

/-- In TOP with TAP accepting PE sees the token SE offers (R181). -/
theorem State.ciOffer_of_top {s : State} (hw : s.wiring = .top) (htap : s.ports.tapReady = true) :
    s.ciOffer = s.coOffer := by
  simp [State.ciOffer, hw, htap]

/-- Where PE is ready for the token it sees, an operation takes it (R150). -/
theorem State.take_of_ciReady {s : State} {t : ChipTok} (ho : s.ciOffer = some t) (hr : s.ciReady = true) :
    ∃ p out, s.pe.take t = some (p, out) := by
  have htake : (s.pe.take t).isSome = true := by
    rw [PE.take_isSome]
    simp_all [State.ciReady, State.overflowPending]
  obtain ⟨⟨p, out⟩, h⟩ := Option.isSome_iff_exists.mp htake
  exact ⟨p, out, h⟩

theorem State.coTransfer_of_top {s : State} (hw : s.wiring = .top) : s.coTransfer = s.ciTransfer := by
  simp [State.coTransfer, hw]

/-- In TOP, with TAP accepting, a token that PE takes and SINK has room for moves to both (R181). -/
theorem State.coTransfer_of_take {s : State} {t : ChipTok} {p : PE} {out : Option Pulse} (hw : s.wiring = .top)
    (htap : s.ports.tapReady = true) (ho : s.coOffer = some t) (ht : s.pe.take t = some (p, out))
    (hpo : s.ports.poReady = true) : s.coTransfer = s.ciCommit t p out := by
  have hci : s.ciOffer = some t := by rw [State.ciOffer_of_top hw htap, ho]
  have hready : s.ciReady = true := by rw [State.ciReady_of_take hci ht, hpo, Bool.or_true]
  rw [State.coTransfer_of_top hw, State.ciTransfer_of_ready hci hready ht]

theorem State.coTransfer_of_seAlone {s : State} {t : ChipTok} (hw : s.wiring = .seAlone) (ho : s.coOffer = some t)
    (hr : s.ports.coReady = true) : s.coTransfer = s.coCommit t := by
  simp [State.coTransfer, State.coReady, hw, ho, hr]

/-- What the transfer of SE's token `t` does in every composition that has a consumer on `co`: the log gets the token, SE
makes its own step, and only PE and its log may change beside them. -/
structure SeTokenMoved (s : State) (t : ChipTok) (u : State) : Prop where
  chipLog : u.chipLog = s.chipLog ++ [.tok t]
  se : u.se = s.seAfter
  nfLog : u.nfLog = s.nfLog
  wiring : u.wiring = s.wiring
  turns : u.turns = s.turns
  resets : u.resets = s.resets
  ports : u.ports = s.ports
  alone : s.wiring = .seAlone → u.pe = s.pe ∧ u.pulseLog = s.pulseLog

theorem coCommit_seTokenMoved (s : State) (t : ChipTok) : SeTokenMoved s t (s.coCommit t) :=
  ⟨rfl, rfl, rfl, rfl, rfl, rfl, rfl, fun _ => ⟨rfl, rfl⟩⟩

theorem ciCommit_seTokenMoved {s : State} (hw : s.wiring = .top) (t : ChipTok) (p : PE) (out : Option Pulse) :
    SeTokenMoved s t (s.ciCommit t p out) := by
  rw [State.ciCommit_eq]
  constructor <;> simp [hw]

/-- Where SE offers a token and `co_ready` is 1, it moves (R105, R106, R181). -/
theorem State.coTransfer_of_ready {s : State} {t : ChipTok} (ho : s.coOffer = some t) (hr : s.coReady = true) :
    SeTokenMoved s t s.coTransfer := by
  cases hw : s.wiring with
  | top =>
    obtain ⟨hci, htap⟩ : s.ciReady = true ∧ s.ports.tapReady = true := by simpa [State.coReady, hw] using hr
    have hoffer : s.ciOffer = some t := by rw [State.ciOffer_of_top hw htap, ho]
    obtain ⟨p, out, htake⟩ := State.take_of_ciReady hoffer hci
    rw [State.coTransfer_of_top hw, State.ciTransfer_of_ready hoffer hci htake]
    exact ciCommit_seTokenMoved hw t p out
  | seAlone =>
    rw [State.coTransfer_of_seAlone hw ho (by simpa [State.coReady, hw] using hr)]
    exact coCommit_seTokenMoved s t
  | peAlone => simp [State.coReady, hw] at hr

/-- Where `co_ready` is 0 nothing moves (R110, R181). -/
theorem State.coTransfer_of_not_ready {s : State} (hr : s.coReady = false) : s.coTransfer = s := by
  unfold State.coTransfer
  split
  · next hw =>
    cases htap : s.ports.tapReady with
    | false => simp [State.ciTransfer, State.ciOffer, hw, htap]
    | true => exact State.ciTransfer_of_not_ready (by simpa [State.coReady, hw, htap] using hr)
  · split <;> simp [hr]
  · rfl

/-- Where SE offers nothing no token of SE moves (R110). -/
theorem State.coTransfer_of_no_offer {s : State} (ho : s.coOffer = none) : s.coTransfer = s := by
  unfold State.coTransfer
  split
  · next hw => simp [State.ciTransfer, State.ciOffer, hw, ho]
  · simp [ho]
  · rfl

/-- No token of SE moves outside the sequencer's ranges (R78), during reset (R250), or with nothing attached to `co` (log
entry 9). -/
theorem State.coTransfer_of_disabled {s : State}
    (h : s.seqInRange = false ∨ s.ports.rst = true ∨ s.wiring = .peAlone) : s.coTransfer = s := by
  obtain hrange | hrst | hw := h
  · exact State.coTransfer_of_no_offer (State.coOffer_of_out_of_range hrange)
  · exact State.coTransfer_of_no_offer (State.coOffer_of_rst hrst)
  · exact State.coTransfer_of_not_ready (by simp [State.coReady, hw])

/-! ### SE.EMIT and SE.ENDTOK (R105, R106) -/

theorem exec_seEmit_of_not_run {s : State} (h : s.se.st ≠ .run) : exec .seEmit s = .next s := if_neg h

theorem exec_seEndtok_of_not_fin {s : State} (h : s.se.st ≠ .fin) : exec .seEndtok s = .next s := if_neg h

theorem State.seAfter_of_run {s : State} (h : s.se.st = .run) : s.seAfter = s.se.advance s.kind := by
  simp [State.seAfter, h]

theorem State.seAfter_of_fin {s : State} (h : s.se.st = .fin) : s.seAfter = { s.se with st := .idle } := by
  simp [State.seAfter, h]

/-- With a word latched the sequencer's range is about that word's symbol (R73). -/
theorem State.seqInRange_of_held {s : State} (hheld : s.se.nfHeld = true) (hrep : s.se.rep.toNat < 12)
    (hsym : s.se.sym.toNat ≤ 36) (hpos : s.se.pos.toNat < plen (symKind s.se.sym s.se.nf)) : s.seqInRange = true := by
  rw [State.seqInRange_iff, State.kind_of_held hheld]
  exact ⟨hrep, hsym, hpos⟩

/-- Settles O17, by the transfer of the chip SE offers (`State.coTransfer_of_ready`). -/
theorem emitSendsTheNextChip : Obligations.EmitSendsTheNextChip := by
  constructor
  · intro s _ hrst hrun hheld hrep hsym hpos
    have hoffer := State.coOffer_of_run hrst hrun (State.seqInRange_of_held hheld hrep hsym hpos)
    rw [State.kind_of_held hheld] at hoffer
    refine ⟨by rw [hrun]; rfl, State.coValid_of_offer hoffer, fun hr => ?_, fun hr => ?_⟩ <;>
      rw [exec_seEmit_of_run hrun]
    · obtain ⟨hlog, hse, hnf, hwiring, hturns, hresets, hports, halone⟩ := State.coTransfer_of_ready hoffer hr
      rw [State.seAfter_of_run hrun, State.kind_of_held hheld] at hse
      exact ⟨_, rfl, hlog, hse, hnf, hwiring, hturns, hresets, hports, halone⟩
    · rw [State.coTransfer_of_not_ready hr]
  · rintro s (hst | hdisabled)
    · exact exec_seEmit_of_not_run hst
    · by_cases hrun : s.se.st = .run
      · rw [exec_seEmit_of_run hrun, State.coTransfer_of_disabled hdisabled]
      · exact exec_seEmit_of_not_run hrun

/-- Settles O18, by the transfer of the END SE offers (`State.coTransfer_of_ready`). -/
theorem endtokEndsTheSequence : Obligations.EndtokEndsTheSequence := by
  constructor
  · intro s _ hrst hfin hrange
    have hoffer := State.coOffer_of_fin hrst hfin hrange
    refine ⟨by rw [hfin]; rfl, State.coValid_of_offer hoffer, fun hr => ?_, fun hr => ?_⟩ <;>
      rw [exec_seEndtok_of_fin hfin]
    · obtain ⟨hlog, hse, hnf, hwiring, hturns, hresets, hports, halone⟩ := State.coTransfer_of_ready hoffer hr
      rw [State.seAfter_of_fin hfin] at hse
      exact ⟨_, rfl, hlog, hse, hnf, hwiring, hturns, hresets, hports, halone⟩
    · rw [State.coTransfer_of_not_ready hr]
  · rintro s (hst | hdisabled)
    · exact exec_seEndtok_of_not_fin hst
    · by_cases hfin : s.se.st = .fin
      · rw [exec_seEndtok_of_fin hfin, State.coTransfer_of_disabled hdisabled]
      · exact exec_seEndtok_of_not_fin hfin

/-! ### The rows of the symbols (R102 to R104) -/

theorem exec_symInstr (k : Sym) (s : State) : exec (symInstr k) s = .next (s.emitSymbol k) := by cases k <;> rfl

theorem emitSteps_succ {n : Nat} {s : State} (hrun : s.se.st = .run) :
    State.emitSteps (n + 1) s = State.emitSteps n s.coTransfer := by
  rw [State.emitSteps, if_pos hrun]

/-- Where SE's token does not move no EMIT step changes anything. -/
theorem emitSteps_of_fixed (n : Nat) {s : State} (h : s.coTransfer = s) : State.emitSteps n s = s := by
  induction n with
  | zero => rfl
  | succ n ih => rw [State.emitSteps, h, ite_self, ih]

theorem State.emitSymbol_of_fixed {s : State} (k : Sym) (h : s.coTransfer = s) : s.emitSymbol k = s := by
  rw [State.emitSymbol, emitSteps_of_fixed _ h, ite_self]

/-- The row of a symbol does nothing where another symbol, or none, is in progress. -/
theorem State.emitSymbol_of_other {s : State} {k : Sym} (h : ¬(s.se.st = .run ∧ s.kind = k)) : s.emitSymbol k = s :=
  if_neg h

theorem State.emitSymbol_of_kind {s : State} {k : Sym} (hrun : s.se.st = .run) (hk : s.kind = k) :
    s.emitSymbol k = State.emitSteps (plen k - s.se.pos.toNat) s := if_pos ⟨hrun, hk⟩

/-- SE at the next chip of the symbol it is in (R105 case (a)). -/
def SE.nextPos (se : SE) : SE := { se with pos := se.pos + 1 }

/-- Inside a symbol EMIT moves on by one chip (R105 case (a)). -/
theorem SE.advance_of_lt {se : SE} {k : Sym} (h : se.pos.toNat + 1 < plen k) : se.advance k = se.nextPos := by
  rw [SE.advance, if_pos h]
  rfl

/-- At a symbol's last chip EMIT moves on to the next symbol (R105 cases (b) to (d)). -/
theorem SE.advance_of_last {se : SE} {k : Sym} (h : plen k ≤ se.pos.toNat + 1) : se.advance k = se.afterSymbol := by
  rw [SE.advance, if_neg (by omega)]
  rfl

/-- Inside a symbol the chip position does not wrap. -/
theorem SE.nextPos_toNat {se : SE} {k : Sym} (h : se.pos.toNat + 1 < plen k) :
    se.nextPos.pos.toNat = se.pos.toNat + 1 :=
  pos_succ_toNat (by have := plen_le k; omega)

/-- What comes after a symbol does not depend on the chip position in it. -/
@[simp] theorem SE.nextPos_afterSymbol (se : SE) : se.nextPos.afterSymbol = se.afterSymbol := rfl

/-- The symbol read does not depend on the chip position (R73). -/
theorem kind_of_nextPos {s t : State} (hheld : s.se.nfHeld = true) (hse : t.se = s.se.nextPos) : t.kind = s.kind := by
  rw [State.kind_of_held hheld, State.kind_of_held (by rw [hse]; exact hheld), hse]
  rfl

/-- Inside a symbol the next chip position is in range too (R32 item 2). -/
theorem seqInRange_of_nextPos {s t : State} (hheld : s.se.nfHeld = true) (hrange : s.seqInRange = true)
    (hlt : s.se.pos.toNat + 1 < plen s.kind) (hse : t.se = s.se.nextPos) : t.seqInRange = true := by
  obtain ⟨hrep, hsym, -⟩ := s.seqInRange_iff.mp hrange
  rw [State.seqInRange_iff, kind_of_nextPos hheld hse, hse, SE.nextPos_toNat hlt]
  exact ⟨hrep, hsym, hlt⟩

/-- SE alone, its consumer accepting: one EMIT. -/
theorem State.coTransfer_of_seAlone_run {s : State} (hw : s.wiring = .seAlone) (hrst : s.ports.rst = false)
    (hr : s.ports.coReady = true) (hrun : s.se.st = .run) (hrange : s.seqInRange = true) :
    s.coTransfer = (s.setSe (s.se.advance s.kind)).logChip (.tok (.chip (pchip s.kind s.se.pos.toNat))) := by
  rw [State.coTransfer_of_seAlone hw (State.coOffer_of_run hrst hrun hrange) hr, State.coCommit_eq,
    State.seAfter_of_run hrun]

/-- SE alone, its consumer accepting: the EMIT steps of the `n + 1` chips of the symbol that are still to come. -/
theorem emitSteps_of_seAlone (n : Nat) {s : State} (hw : s.wiring = .seAlone) (hrst : s.ports.rst = false)
    (hr : s.ports.coReady = true) (hrun : s.se.st = .run) (hheld : s.se.nfHeld = true) (hrange : s.seqInRange = true)
    (hn : s.se.pos.toNat + (n + 1) = plen s.kind) :
    State.emitSteps (n + 1) s = { s with
      chipLog := s.chipLog ++ ((pattern s.kind).drop s.se.pos.toNat).map fun c => .tok (.chip c)
      se := s.se.afterSymbol } := by
  induction n generalizing s with
  | zero =>
    rw [emitSteps_succ hrun, State.coTransfer_of_seAlone_run hw hrst hr hrun hrange, SE.advance_of_last (by omega),
      pattern_drop (by omega : s.se.pos.toNat < plen s.kind), List.drop_of_length_le (Nat.le_of_eq hn.symm)]
    rfl
  | succ n ih =>
    have hlt : s.se.pos.toNat + 1 < plen s.kind := by omega
    have hkind (e : ChipEvent) : ((s.setSe s.se.nextPos).logChip e).kind = s.kind := kind_of_nextPos hheld rfl
    have hpos := SE.nextPos_toNat hlt
    rw [emitSteps_succ hrun, State.coTransfer_of_seAlone_run hw hrst hr hrun hrange, SE.advance_of_lt hlt,
      ih (s := (s.setSe s.se.nextPos).logChip _) hw hrst hr hrun hheld (seqInRange_of_nextPos hheld hrange hlt rfl)
        (by rw [hkind]; simp only [State.logChip_se, State.setSe_se, hpos]; omega),
      hkind, pattern_drop (by omega : s.se.pos.toNat < plen s.kind)]
    simp [State.setSe, State.logChip, hpos]

/-- Settles O19: the row is the EMIT steps of the chips to come (`emitSteps_of_seAlone`), none of which moves a token where
SE's token cannot move. -/
theorem symbolRowEmitsItsChips : Obligations.SymbolRowEmitsItsChips := by
  constructor
  · intro s k hw hrst hrun hheld hrep hsym hpos
    have hrange := State.seqInRange_of_held hheld hrep hsym hpos
    rw [← State.kind_of_held hheld] at hpos ⊢
    rw [exec_symInstr]
    constructor
    · rintro rfl hr
      obtain ⟨n, hn⟩ := Nat.exists_eq_add_of_lt hpos
      have hcount : plen s.kind - s.se.pos.toNat = n + 1 := by omega
      rw [State.emitSymbol_of_kind hrun rfl, hcount,
        emitSteps_of_seAlone n hw hrst hr hrun hheld hrange (by omega)]
    · rintro (hk | hr)
      · rw [State.emitSymbol_of_other fun h => hk h.2]
      · rw [State.emitSymbol_of_fixed k (State.coTransfer_of_not_ready (by simp [State.coReady, hw, hr]))]
  · rintro s k (hst | hdisabled) <;> rw [exec_symInstr]
    · rw [State.emitSymbol_of_other fun h => hst h.1]
    · rw [State.emitSymbol_of_fixed k (State.coTransfer_of_disabled hdisabled)]

end Sys2Proof.Machine
end

section
/-! The family of the Symbol Encoder in TOP: the run in PE told by SE's position (R111, R149, R181), and the symbols as
pulses (R102 to R104). -/

namespace Sys2Proof.Machine

/-! ### PE inside a symbol (R142 to R144) -/

/-- PE in TOP after the chip at position `n` of a symbol: the high run of one chip, or the low run of `n` chips. -/
def PE.inSymbol (n : Nat) : PE := ⟨.scan, accOf (if n = 0 then 500 else -500 * n), n == 0, true, false⟩

/-- The pulse that the transfer of the chip at SE's position flushes in TOP: the run before the symbol, then its high
chip. -/
def State.symbolFlush (s : State) : Option Pulse :=
  if s.se.pos.toNat = 0 then (if s.pe.pv then some ⟨s.pe.acc, false⟩ else none)
  else if s.se.pos.toNat = 1 then some ⟨accOf 500, false⟩ else none

theorem PE.inSymbol_low {n : Nat} (h1 : 1 ≤ n) (h8 : n ≤ 8) :
    (PE.inSymbol n).pol = false ∧ (PE.inSymbol n).acc.toInt = -500 * n := by
  have hn : n ≠ 0 := by omega
  refine ⟨by simp [PE.inSymbol, hn], ?_⟩
  simp only [PE.inSymbol, hn, if_false]
  exact accOf_toInt ((accFits_iff _).mpr (by omega))

theorem PE.inSymbol_acc_bound {n : Nat} (h : n ≤ 8) : -4000 ≤ (PE.inSymbol n).acc.toInt := by
  rcases Nat.eq_zero_or_pos n with rfl | hpos
  · decide
  · rw [(PE.inSymbol_low hpos h).2]
    omega

/-- Before a symbol's first chip the run in PE, if there is one, is low. -/
theorem TopInv.pol_at_first {s : State} (h : TopInv s) (hrun : s.se.st = .run) (hpos : s.se.pos = 0)
    (hv : s.pe.pv = true) : s.pe.pol = false := by
  by_cases hstart : s.se.rep = 0 ∧ s.se.sym = 0
  · have hnone := h.first hrun hstart.1 hstart.2 hpos
    rw [hnone] at hv
    cases hv
  · exact (h.head hrun hpos hstart).2.1

/-- In TOP PE takes the chip at SE's position, whichever it is: FIRST or FLIP at a symbol's first chip, FLIP at the second,
SAME after that (R142 to R144). -/
theorem TopInv.take_chip {s : State} (h : TopInv s) (hrun : s.se.st = .run) :
    s.pe.take (.chip (pchip s.kind s.se.pos.toNat)) = some (PE.inSymbol s.se.pos.toNat, s.symbolFlush) := by
  have hfault : s.pe.fault = false := h.inv.pe.fault_eq_false (by simp [h.scan])
  obtain ⟨-, -, hlt⟩ := s.seqInRange_iff.mp (h.inv.se.range hrun)
  have hle := plen_le s.kind
  obtain hpos | hpos | hpos : s.se.pos.toNat = 0 ∨ s.se.pos.toNat = 1 ∨ 2 ≤ s.se.pos.toNat := by omega
  · have hzero : s.se.pos = 0 := BitVec.eq_of_toNat_eq hpos
    rw [hpos, pchip_zero]
    cases hv : s.pe.pv with
    | false =>
      rw [PE.take_first true h.scan hv]
      simp [PE.first, PE.setPolarity, PE.inSymbol, State.symbolFlush, hpos, hv, h.scan, hfault, delta_true]
    | true =>
      rw [PE.take_flip (c := true) h.scan hv (h.pol_at_first hrun hzero hv)]
      simp [PE.flip, PE.inSymbol, State.symbolFlush, hpos, hv, h.scan, hfault, delta_true]
  · obtain ⟨hv, hpol, hacc⟩ := h.second hrun (BitVec.eq_of_toNat_eq hpos)
    have hvalue : s.pe.acc = accOf 500 := BitVec.eq_of_toInt_eq (by rw [hacc, accOf_500_toInt])
    rw [pchip_pos (by omega) hlt, PE.take_flip (c := false) h.scan hv hpol]
    simp [PE.flip, PE.inSymbol, State.symbolFlush, hpos, hv, h.scan, hfault, delta_false, hvalue]
  · obtain ⟨hv, hpol, hacc⟩ := h.later hrun hpos
    have hsum : s.pe.sum false = -500 * s.se.pos.toNat := by rw [PE.sum, hacc, delta_false]; ring
    have hfits : accFits (s.pe.sum false) = true := (accFits_iff _).mpr (by omega)
    have hne : s.se.pos.toNat ≠ 0 ∧ s.se.pos.toNat ≠ 1 := by omega
    rw [pchip_pos (by omega) hlt, PE.take_same h.scan hv hpol hfits]
    simp [PE.same, PE.inSymbol, State.symbolFlush, hne, hv, hpol, h.scan, hfault, hsum]

/-- In TOP PE takes END by FINISH_LOW: a sequence's last chip is 0 (R111, R146). -/
theorem TopInv.take_fin {s : State} (h : TopInv s) (hfin : s.se.st = .fin) (x : Bool) :
    s.pe.take (.fin x) = some (s.pe.finishLow, some ⟨s.pe.acc, true⟩) := by
  obtain ⟨hv, hpol⟩ := h.fin hfin
  exact PE.take_finishLow x h.scan hv hpol

/-- In TOP PE takes every token SE offers (R149, R181). -/
theorem TopInv.take_isSome {s : State} {t : ChipTok} (h : TopInv s) (ho : s.coOffer = some t) :
    (s.pe.take t).isSome = true := by
  obtain ⟨-, ⟨hrun, -, rfl, -⟩ | ⟨hfin, -, rfl, -⟩⟩ := State.coOffer_cases ho
  · rw [h.take_chip hrun]; rfl
  · rw [h.take_fin hfin]; rfl

/-! ### TopInv through reset, turns and moves -/

/-- TopInv speaks of the two units and the composition only. -/
theorem TopInv.congr {s t : State} (h : TopInv s) (hw : t.wiring = s.wiring) (hse : t.se = s.se) (hpe : t.pe = s.pe)
    (hinv : Inv t) : TopInv t := by
  obtain ⟨htop, -, hscan, hidle, hfin, hfirst, hhead, hsecond, hlater⟩ := h
  rw [← hw] at htop
  rw [← hpe] at hscan
  rw [← hse, ← hpe] at hidle hfin hfirst hhead hsecond hlater
  exact ⟨htop, hinv, hscan, hidle, hfin, hfirst, hhead, hsecond, hlater⟩

/-- TOP with SE idle and no run in PE. -/
theorem topInv_of_idle {s : State} (hw : s.wiring = .top) (hinv : Inv s) (hscan : s.pe.st = .scan)
    (hidle : s.se.st = .idle) (hv : s.pe.pv = false) : TopInv s where
  top := hw
  inv := hinv
  scan := hscan
  idle _ := hv
  fin := by simp [hidle]
  first := by simp [hidle]
  head := by simp [hidle]
  second := by simp [hidle]
  later := by simp [hidle]

/-- TOP with SE at the first chip of a sequence and no run in PE. -/
theorem topInv_of_start {s : State} {w : NfWord} (hw : s.wiring = .top) (hinv : Inv s) (hscan : s.pe.st = .scan)
    (hse : s.se = SE.latch w) (hv : s.pe.pv = false) : TopInv s where
  top := hw
  inv := hinv
  scan := hscan
  idle _ := hv
  fin := by simp [hse, SE.latch]
  first _ _ _ _ := hv
  head := by simp [hse, SE.latch]
  second := by simp [hse, SE.latch]
  later := by simp [hse, SE.latch]

/-- TOP inside a symbol, after the chip at position `n`. -/
theorem topInv_inside_symbol {s : State} {n : Nat} (hw : s.wiring = .top) (hinv : Inv s)
    (hpe : s.pe = PE.inSymbol n) (hrun : s.se.st = .run) (hpos : s.se.pos.toNat = n + 1) (hn : n ≤ 8) : TopInv s where
  top := hw
  inv := hinv
  scan := by rw [hpe]; rfl
  idle := by simp [hrun]
  fin := by simp [hrun]
  first _ _ _ h0 := by simp [h0] at hpos
  head _ h0 := by simp [h0] at hpos
  second _ h1 := by
    obtain rfl : n = 0 := by simpa [h1] using hpos.symm
    rw [hpe]
    decide
  later _ h2 := by
    obtain ⟨hpol, hacc⟩ := PE.inSymbol_low (n := n) (by omega) hn
    rw [hpe]
    exact ⟨rfl, hpol, by rw [hacc]; omega⟩

/-- TOP between two symbols, or after the last one, PE in the low run of `n` chips. -/
theorem topInv_after_symbol {s : State} {n : Nat} (hw : s.wiring = .top) (hinv : Inv s)
    (hpe : s.pe = PE.inSymbol n) (h1 : 1 ≤ n) (hn : n ≤ 8) (hst : s.se.st ≠ .idle) (hpos : s.se.pos = 0)
    (hstart : s.se.st = .run → ¬(s.se.rep = 0 ∧ s.se.sym = 0)) : TopInv s := by
  obtain ⟨hpol, -⟩ := PE.inSymbol_low h1 hn
  rw [← hpe] at hpol
  have hv : s.pe.pv = true := by rw [hpe]; rfl
  exact {
    top := hw
    inv := hinv
    scan := by rw [hpe]; rfl
    idle := fun h => absurd h hst
    fin := fun _ => ⟨hv, hpol⟩
    first := fun hrun hrep hsym _ => absurd ⟨hrep, hsym⟩ (hstart hrun)
    head := fun _ _ _ => ⟨hv, hpol, by rw [hpe]; exact PE.inSymbol_acc_bound hn⟩
    second := by simp [hpos]
    later := by simp [hpos] }

/-- A chip's transfer in TOP carries the run in PE along with SE's position, in each of the four cases of R105. -/
theorem TopInv.advance {s t : State} (h : TopInv s) (hrun : s.se.st = .run) (hw : t.wiring = .top) (hinv : Inv t)
    (hpe : t.pe = PE.inSymbol s.se.pos.toNat) (hse : t.se = s.se.advance s.kind) : TopInv t := by
  obtain ⟨hrep, hsym, hlt⟩ := s.seqInRange_iff.mp (h.inv.se.range hrun)
  have hle := plen_le s.kind
  have hge := three_le_plen s.kind
  obtain ⟨hin, ha⟩ | ⟨hlast, hs, ha⟩ | ⟨hlast, -, hr, ha⟩ | ⟨hlast, -, -, ha⟩ := s.se.advance_cases s.kind <;>
    rw [ha] at hse
  · -- the next chip of the symbol
    refine topInv_inside_symbol hw hinv hpe (by rw [hse]; exact hrun) ?_ (by omega)
    rw [hse]
    exact SE.nextPos_toNat hin
  · -- the next symbol of the frame
    refine topInv_after_symbol hw hinv hpe (by omega) (by omega) (by simp [hse, hrun]) (by rw [hse]) ?_
    rintro - ⟨-, hzero⟩
    have hsucc := sym_succ_toNat (x := s.se.sym) (by omega)
    simp only [hse] at hzero
    rw [hzero] at hsucc
    simp at hsucc
  · -- the next frame
    refine topInv_after_symbol hw hinv hpe (by omega) (by omega) (by simp [hse, hrun]) (by rw [hse]) ?_
    rintro - ⟨hzero, -⟩
    have hsucc := pos_succ_toNat (x := s.se.rep) (by omega)
    simp only [hse] at hzero
    rw [hzero] at hsucc
    simp at hsucc
  · -- the end of the sequence
    exact topInv_after_symbol hw hinv hpe (by omega) (by omega) (by simp [hse]) (by rw [hse]) (by simp [hse])

/-- Every move of TOP keeps PE's run in step with SE's position. -/
theorem TopInv.move {s t : State} (h : TopInv s) (hm : Move s t) : TopInv t := by
  have hinv : Inv t := h.inv.move hm
  cases hm with
  | driveNf w => exact h.congr rfl rfl rfl hinv
  | load hr => exact topInv_of_start h.top hinv h.scan rfl (h.idle (State.idle_of_nfReady hr))
  | toConsumer tok hw => exact absurd (h.top.symm.trans hw) (by simp)
  | toPe tok p out ho ht =>
    have hw : (s.ciCommit tok p out).wiring = .top := by rw [State.ciCommit_wiring, h.top]
    have hse : (s.ciCommit tok p out).se = s.seAfter := by rw [State.ciCommit_se, if_pos h.top]
    obtain ⟨-, ⟨-, -, hco⟩ | ⟨hpe, -⟩⟩ := State.ciOffer_cases ho
    · obtain ⟨-, ⟨hrun, -, rfl, ha⟩ | ⟨hfin, -, rfl, ha⟩⟩ := State.coOffer_cases hco <;> rw [ha] at hse
      · rw [h.take_chip hrun] at ht
        cases ht
        exact h.advance hrun hw hinv (State.ciCommit_pe ..) hse
      · rw [h.take_fin hfin] at ht
        cases ht
        exact topInv_of_idle hw hinv (by rw [State.ciCommit_pe]; exact h.scan) (by rw [hse])
          (by rw [State.ciCommit_pe]; rfl)
    · exact absurd (h.top.symm.trans hpe) (by simp)
  | driveCi tok hw => exact absurd (h.top.symm.trans hw) (by simp)
  | trail hst => exact absurd (h.scan.symm.trans hst) (by simp)
  | overflow tok ho hv =>
    obtain ⟨-, ⟨-, -, hco⟩ | ⟨hpe, -⟩⟩ := State.ciOffer_cases ho
    · have htake := h.take_isSome hco
      rw [PE.take_isSome, hv] at htake
      simp at htake
    · exact absurd (h.top.symm.trans hpe) (by simp)

/-- Settles O47: the turn's wires, RESET and every move keep TopInv (`TopInv.move`). -/
theorem stepKeepsTopInLockStep : Obligations.StepKeepsTopInLockStep := fun _ _ htop hstep =>
  step_keeps (fun _ turn rest h => h.congr rfl rfl rfl (h.inv.beginTurn turn rest))
    (fun s h => topInv_of_idle h.top (Inv.takeReset s) rfl rfl rfl) (fun _ _ h hm => h.move hm) htop hstep

/-! ### The symbols as pulses (R102 to R104) -/

/-- `s` after the chip at SE's position has moved in TOP, SE's registers becoming `se`. -/
def State.chipMovedInTop (s : State) (se : SE) : State :=
  { s with
    chipLog := s.chipLog ++ [.tok (.chip (pchip s.kind s.se.pos.toNat))]
    pulseLog := s.pulseLog ++ s.symbolFlush.toList.map .pulse
    pe := PE.inSymbol s.se.pos.toNat
    se := se }

/-- In TOP, with both consumers accepting, one EMIT. -/
theorem TopInv.coTransfer_of_run {s : State} (h : TopInv s) (hrst : s.ports.rst = false)
    (htap : s.ports.tapReady = true) (hpo : s.ports.poReady = true) (hrun : s.se.st = .run) :
    s.coTransfer = s.chipMovedInTop (s.se.advance s.kind) := by
  have hoffer := State.coOffer_of_run hrst hrun (h.inv.se.range hrun)
  rw [State.coTransfer_of_take h.top htap hoffer (h.take_chip hrun) hpo, State.ciCommit_eq, State.seAfter_of_run hrun]
  simp [State.chipMovedInTop, h.top]

theorem TopInv.coTransfer {s : State} (h : TopInv s) : TopInv s.coTransfer :=
  (coTransfer_moves s).rel (R := fun _ u => TopInv u) h fun _ _ hu hm => hu.move hm

/-- After a symbol's first chip the flush to come is `+500`, and after a later one there is none. -/
theorem State.symbolFlush_of_next {s : State} (hlt : s.se.pos.toNat + 1 < plen s.kind) :
    (s.chipMovedInTop s.se.nextPos).symbolFlush = if s.se.pos.toNat = 0 then some ⟨accOf 500, false⟩ else none := by
  have hpos : (s.chipMovedInTop s.se.nextPos).se.pos.toNat = s.se.pos.toNat + 1 := SE.nextPos_toNat hlt
  simp [State.symbolFlush, hpos]

/-- In TOP, with both consumers accepting: the EMIT steps of the `n + 1` chips of the symbol that are still to come. -/
theorem TopInv.emitSteps (n : Nat) {s : State} (h : TopInv s) (hrst : s.ports.rst = false)
    (htap : s.ports.tapReady = true) (hpo : s.ports.poReady = true) (hrun : s.se.st = .run)
    (hn : s.se.pos.toNat + (n + 1) = plen s.kind) :
    State.emitSteps (n + 1) s = { s with
      chipLog := s.chipLog ++ ((pattern s.kind).drop s.se.pos.toNat).map fun c => .tok (.chip c)
      pulseLog := s.pulseLog ++ (s.symbolFlush.toList.map .pulse ++
        if s.se.pos.toNat = 0 then [.pulse ⟨accOf 500, false⟩] else [])
      pe := PE.inSymbol (plen s.kind - 1)
      se := s.se.afterSymbol } := by
  induction n generalizing s with
  | zero =>
    have hge := three_le_plen s.kind
    have hlast : s.se.pos.toNat = plen s.kind - 1 := by omega
    have hne : s.se.pos.toNat ≠ 0 := by omega
    rw [emitSteps_succ hrun, h.coTransfer_of_run hrst htap hpo hrun, SE.advance_of_last (by omega),
      pattern_drop (by omega : s.se.pos.toNat < plen s.kind), List.drop_of_length_le (Nat.le_of_eq hn.symm),
      if_neg hne, List.append_nil, ← hlast]
    rfl
  | succ n ih =>
    have hlt : s.se.pos.toNat + 1 < plen s.kind := by omega
    have hmoved := h.coTransfer_of_run hrst htap hpo hrun
    rw [SE.advance_of_lt hlt] at hmoved
    have hkind : (s.chipMovedInTop s.se.nextPos).kind = s.kind :=
      kind_of_nextPos (h.inv.se.held (by simp [hrun])) rfl
    have hpos : (s.chipMovedInTop s.se.nextPos).se.pos.toNat = s.se.pos.toNat + 1 := SE.nextPos_toNat hlt
    have hnext : TopInv (s.chipMovedInTop s.se.nextPos) := hmoved ▸ h.coTransfer
    rw [emitSteps_succ hrun, hmoved, ih hnext hrst htap hpo hrun (by rw [hkind, hpos]; omega), hkind, hpos,
      pattern_drop (by omega : s.se.pos.toNat < plen s.kind), State.symbolFlush_of_next hlt]
    by_cases hzero : s.se.pos.toNat = 0 <;> simp [State.chipMovedInTop, hzero]

/-- Settles O20: the row is the EMIT steps of the whole symbol (`TopInv.emitSteps`). -/
theorem symbolAsPulsesInTop : Obligations.SymbolAsPulsesInTop := by
  intro s k h hrst htap hpo hrun hpos hk
  have hkind : s.kind = k := by rw [State.kind_of_held (h.inv.se.held (by simp [hrun])), hk]
  have hzero : s.se.pos.toNat = 0 := by rw [hpos]; rfl
  have hlen := plen_pos k
  obtain ⟨n, hn⟩ : ∃ n, plen k = n + 1 := ⟨plen k - 1, by omega⟩
  have hflush : s.symbolFlush = if s.pe.pv then some ⟨s.pe.acc, false⟩ else none := if_pos hzero
  rw [exec_symInstr, State.emitSymbol_of_kind hrun hkind, hzero, Nat.sub_zero, hn,
    h.emitSteps n hrst htap hpo hrun (by rw [hzero, hkind, hn]; omega), hkind, hflush, if_pos hzero, hzero, ← hn]
  have hpe : PE.inSymbol (plen k - 1) = ⟨.scan, BitVec.ofInt 32 (-500 * ((plen k : Int) - 1)), false, true, false⟩ := by
    cases k <;> rfl
  rw [hpe]
  cases s.pe.pv <;> rfl

end Sys2Proof.Machine
end

section
/-! The family of the Symbol Encoder, the ChipLog against `chipseq` of the latched words (R60, R112). -/

namespace Sys2Proof.Machine

/-! ### What SE's registers tell of the sequence in progress (R82) -/

/-- The chips of the sequence in progress that SE has sent. -/
def SE.chipsSent (se : SE) : List Bool :=
  match se.st with
  | .run => chipsBefore se.nf se.rep.toNat se.sym.toNat se.pos.toNat
  | .fin => chipseq se.nf
  | .idle | .reserved => []

/-- The word of the sequence in progress, if there is one. -/
def SE.wordInProgress (se : SE) : List NfWord := if se.st = .idle then [] else [se.nf]

theorem SE.chipsSent_of_run {se : SE} (h : se.st = .run) :
    se.chipsSent = chipsBefore se.nf se.rep.toNat se.sym.toNat se.pos.toNat := by simp only [SE.chipsSent, h]

theorem SE.chipsSent_of_fin {se : SE} (h : se.st = .fin) : se.chipsSent = chipseq se.nf := by
  simp only [SE.chipsSent, h]

theorem SE.chipsSent_of_idle {se : SE} (h : se.st = .idle) : se.chipsSent = [] := by simp only [SE.chipsSent, h]

theorem SE.wordInProgress_of_idle {se : SE} (h : se.st = .idle) : se.wordInProgress = [] := if_pos h

theorem SE.wordInProgress_of_busy {se : SE} (h : se.st ≠ .idle) : se.wordInProgress = [se.nf] := if_neg h

/-- EMIT leaves the word in progress as it is (R105). -/
theorem SE.wordInProgress_advance {se : SE} (hrun : se.st = .run) (k : Sym) :
    (se.advance k).wordInProgress = se.wordInProgress := by
  have hbusy : (se.advance k).st ≠ .idle := by
    obtain ⟨-, h⟩ | ⟨-, -, h⟩ | ⟨-, -, -, h⟩ | ⟨-, -, -, h⟩ := se.advance_cases k <;> simp [h, hrun]
  rw [SE.wordInProgress_of_busy hbusy, SE.wordInProgress_of_busy (by simp [hrun]), (se.advance_frame k).1]

/-- Each EMIT sends one chip more, in each of the four cases of R105; at the last one all of `chipseq` is sent. -/
theorem SE.chipsSent_advance {se : SE} {k : Sym} (hk : symKind se.sym se.nf = k) (hrun : se.st = .run)
    (hrep : se.rep.toNat < 12) (hsym : se.sym.toNat ≤ 36) (hpos : se.pos.toNat < plen k) :
    (se.advance k).chipsSent = se.chipsSent ++ [pchip k se.pos.toNat] := by
  have hle := plen_le k
  have hchip := chipsBefore_next_pos se.nf se.rep.toNat se.sym.toNat se.pos.toNat
  have hsymbol := chipsBefore_next_sym se.nf se.rep.toNat hsym
  have hframe := chipsBefore_next_rep se.nf se.rep.toNat
  rw [BitVec.ofNat_toNat, BitVec.setWidth_eq, hk] at hchip hsymbol
  rw [SE.chipsSent_of_run hrun, ← hchip hpos]
  obtain ⟨-, ha⟩ | ⟨hlast, hlt, ha⟩ | ⟨hlast, h36, hlt, ha⟩ | ⟨hlast, h36, h12, ha⟩ := se.advance_cases k
  · -- the next chip of the symbol
    rw [SE.chipsSent_of_run (by rw [ha]; exact hrun), ha, pos_succ_toNat (by omega)]
  · -- the next symbol of the frame
    have hlen : se.pos.toNat + 1 = plen k := by omega
    rw [SE.chipsSent_of_run (by rw [ha]; exact hrun), ha, sym_succ_toNat (by omega), hlen, ← hsymbol]
    rfl
  · -- the next frame
    have hlen : se.pos.toNat + 1 = plen k := by omega
    have hall : se.sym.toNat + 1 = 37 := by omega
    rw [SE.chipsSent_of_run (by rw [ha]; exact hrun), ha, pos_succ_toNat (by omega), hlen, ← hsymbol, hall, ← hframe]
    rfl
  · -- the end of the sequence
    have hlen : se.pos.toNat + 1 = plen k := by omega
    have hall : se.sym.toNat + 1 = 37 := by omega
    have hreps : se.rep.toNat + 1 = 12 := by omega
    rw [SE.chipsSent_of_fin (by rw [ha]), ha, hlen, ← hsymbol, hall, ← hframe, hreps, chipsBefore_all]

/-! ### The agreement of the lists, event by event (R60) -/

/-- The lists of ChipLog agree with the latched words: in each period that a reset has ended, and in the one in progress,
where SE's registers tell what is sent of the last word. -/
structure ChipsAgree (a : Artifacts Bool) (l : Latched) (se : SE) : Prop where
  past : List.Forall₂ (CompletedOf chipseq) a.past l.past
  part : a.part = se.chipsSent
  now : ∃ ws, l.now = ws ++ se.wordInProgress ∧ a.done = ws.map chipseq

/-- ChipInv says that the logs' lists agree, where SE drives the chip link. -/
theorem chipInv_iff (s : State) :
    ChipInv s ↔ s.wiring ≠ .peAlone ∧ Inv s ∧ ChipsAgree (chipArtifacts s.chipLog) (latched s.nfLog) s.se := by
  constructor
  · rintro ⟨hlinked, hinv, hpast, hidle, hrun, hfin, hwords⟩
    refine ⟨hlinked, hinv, hpast, ?_, ?_⟩
    · cases hst : s.se.st with
      | idle => rw [SE.chipsSent_of_idle hst, (hidle hst).1]
      | run => rw [SE.chipsSent_of_run hst, hrun hst]
      | fin => rw [SE.chipsSent_of_fin hst, hfin hst]
      | reserved => exact absurd hst hinv.se.legal
    · by_cases hst : s.se.st = .idle
      · exact ⟨_, by rw [SE.wordInProgress_of_idle hst, List.append_nil], (hidle hst).2⟩
      · rw [SE.wordInProgress_of_busy hst]
        exact hwords hst
  · rintro ⟨hlinked, hinv, hpast, hpart, ws, hnow, hdone⟩
    refine ⟨hlinked, hinv, hpast, fun hst => ⟨?_, ?_⟩, fun hst => ?_, fun hst => ?_, fun hst => ⟨ws, ?_, hdone⟩⟩
    · rw [hpart, SE.chipsSent_of_idle hst]
    · rw [hdone, hnow, SE.wordInProgress_of_idle hst, List.append_nil]
    · rw [hpart, SE.chipsSent_of_run hst]
    · rw [hpart, SE.chipsSent_of_fin hst]
    · rw [hnow, SE.wordInProgress_of_busy hst]

section Agree
variable {a : Artifacts Bool} {l : Latched} {se : SE}

/-- The lists completed since the last marker are `chipseq` of the first words latched since then. -/
theorem ChipsAgree.completedOf (h : ChipsAgree a l se) : CompletedOf chipseq a.done l.now := by
  obtain ⟨ws, hnow, hdone⟩ := h.now
  rw [CompletedOf, hdone, hnow, List.length_map, List.take_left]

/-- A marker ends the period and cuts the sequence in progress (R252). -/
theorem ChipsAgree.cut (h : ChipsAgree a l se) : ChipsAgree (a.chip .cut) (l.add .cut) SE.atReset where
  past := List.rel_append h.past (.cons h.completedOf .nil)
  part := rfl
  now := ⟨[], rfl, rfl⟩

/-- LOAD begins the sequence of the word it latches (R101). -/
theorem ChipsAgree.latch (h : ChipsAgree a l se) (hidle : se.st = .idle) (w : NfWord) :
    ChipsAgree a (l.add (.word w)) (SE.latch w) where
  past := h.past
  part := by rw [h.part, SE.chipsSent_of_idle hidle]; rfl
  now := by
    obtain ⟨ws, hnow, hdone⟩ := h.now
    rw [SE.wordInProgress_of_idle hidle, List.append_nil] at hnow
    exact ⟨ws, by rw [← hnow]; rfl, hdone⟩

/-- EMIT adds its chip to the list in progress (R105). -/
theorem ChipsAgree.emit {k : Sym} (h : ChipsAgree a l se) (hk : symKind se.sym se.nf = k) (hrun : se.st = .run)
    (hrep : se.rep.toNat < 12) (hsym : se.sym.toNat ≤ 36) (hpos : se.pos.toNat < plen k) :
    ChipsAgree (a.chip (.tok (.chip (pchip k se.pos.toNat)))) l (se.advance k) where
  past := h.past
  part := by rw [SE.chipsSent_advance hk hrun hrep hsym hpos, ← h.part]; rfl
  now := by
    rw [SE.wordInProgress_advance hrun]
    exact h.now

/-- ENDTOK completes the list of the word in progress (R106). -/
theorem ChipsAgree.endtok (h : ChipsAgree a l se) (hfin : se.st = .fin) (x : Bool) :
    ChipsAgree (a.chip (.tok (.fin x))) l { se with st := .idle } where
  past := h.past
  part := rfl
  now := by
    obtain ⟨ws, hnow, hdone⟩ := h.now
    rw [SE.wordInProgress_of_busy (by simp [hfin])] at hnow
    refine ⟨ws ++ [se.nf], by rw [hnow, SE.wordInProgress_of_idle rfl, List.append_nil], ?_⟩
    show a.done ++ [a.part] = _
    rw [hdone, h.part, SE.chipsSent_of_fin hfin, List.map_append, List.map_singleton]

end Agree

/-! ### ChipInv through reset, turns and moves -/

/-- ChipInv speaks of the composition, the two units' invariants, SE and two logs only. -/
theorem ChipInv.congr {s t : State} (h : ChipInv s) (hw : t.wiring = s.wiring) (hse : t.se = s.se)
    (hchip : t.chipLog = s.chipLog) (hnf : t.nfLog = s.nfLog) (hinv : Inv t) : ChipInv t := by
  rw [chipInv_iff] at h ⊢
  obtain ⟨hlinked, -, hagree⟩ := h
  rw [hw, hse, hchip, hnf]
  exact ⟨hlinked, hinv, hagree⟩

theorem ChipInv.takeReset {s : State} (h : ChipInv s) : ChipInv s.takeReset := by
  rw [chipInv_iff] at h ⊢
  obtain ⟨hlinked, -, hagree⟩ := h
  rw [State.takeReset_chipLog, State.takeReset_nfLog, chipArtifacts_snoc, latched_snoc]
  exact ⟨hlinked, .takeReset s, hagree.cut⟩

/-- The transfer of the token SE offers keeps ChipInv, to whichever consumer it goes. -/
theorem ChipInv.tokenMoved {s t : State} {tok : ChipTok} (h : ChipInv s) (ho : s.coOffer = some tok)
    (hw : t.wiring = s.wiring) (hse : t.se = s.seAfter) (hchip : t.chipLog = s.chipLog ++ [.tok tok])
    (hnf : t.nfLog = s.nfLog) (hinv : Inv t) : ChipInv t := by
  rw [chipInv_iff] at h ⊢
  obtain ⟨hlinked, ⟨hseInv, -⟩, hagree⟩ := h
  rw [hw, hchip, hnf, chipArtifacts_snoc, hse]
  refine ⟨hlinked, hinv, ?_⟩
  obtain ⟨-, ⟨hrun, hrange, rfl, ha⟩ | ⟨hfin, -, rfl, ha⟩⟩ := State.coOffer_cases ho <;> rw [ha]
  · obtain ⟨hrep, hsym, hpos⟩ := s.seqInRange_iff.mp hrange
    exact hagree.emit (State.kind_of_held (hseInv.held (by simp [hrun]))).symm hrun hrep hsym hpos
  · exact hagree.endtok hfin false

/-- Every move keeps ChipLog in agreement with `chipseq`. -/
theorem ChipInv.move {s t : State} (h : ChipInv s) (hm : Move s t) : ChipInv t := by
  have hinv : Inv t := h.inv.move hm
  cases hm with
  | driveNf w => exact h.congr rfl rfl rfl rfl hinv
  | load hr =>
    have hidle := State.idle_of_nfReady hr
    rw [chipInv_iff] at h ⊢
    obtain ⟨hlinked, -, hagree⟩ := h
    refine ⟨hlinked, hinv, ?_⟩
    simp only [State.setPorts_nfLog, State.logNf_nfLog, State.setSe_nfLog, latched_snoc]
    exact hagree.latch hidle _
  | toConsumer tok hw ho => exact h.tokenMoved ho rfl rfl rfl rfl hinv
  | toPe tok p out ho =>
    obtain ⟨-, ⟨htop, -, hco⟩ | ⟨hpe, -⟩⟩ := State.ciOffer_cases ho
    · exact h.tokenMoved hco (State.ciCommit_wiring ..) (by rw [State.ciCommit_se, if_pos htop])
        (State.ciCommit_chipLog ..) (State.ciCommit_nfLog ..) hinv
    · exact absurd hpe h.linked
  | driveCi tok hw => exact absurd hw h.linked
  | trail => exact h.congr rfl rfl rfl rfl hinv
  | overflow => exact h.congr rfl rfl rfl rfl hinv

/-- Settles O49: the turn's wires, RESET and every move keep ChipInv (`ChipInv.move`). -/
theorem stepKeepsChipLogEqualToChipseq : Obligations.StepKeepsChipLogEqualToChipseq := fun _ _ hchip hstep =>
  step_keeps (fun _ turn rest h => h.congr rfl rfl rfl rfl (h.inv.beginTurn turn rest)) (fun _ h => h.takeReset)
    (fun _ _ h hm => h.move hm) hchip hstep

end Sys2Proof.Machine
end

section
/-! The family of the Symbol Encoder, `chipseq` as a function: the length and the shape of every ChipSequence (R109,
R111). -/

namespace Sys2Proof.Machine

/-! ### The chips of a list of symbols (R72) -/

theorem chipsOf_cons (k : Sym) (ks : List Sym) :
    chipsOf (k :: ks) = true :: (List.replicate (plen k - 1) false ++ chipsOf ks) := by
  rw [chipsOf, List.flatMap_cons, pattern_eq, List.cons_append]
  rfl

theorem chipsOf_append (ks ks' : List Sym) : chipsOf (ks ++ ks') = chipsOf ks ++ chipsOf ks' := List.flatMap_append

theorem chipsOf_length (ks : List Sym) : (chipsOf ks).length = (ks.map plen).sum := List.length_flatMap

theorem chipsOf_head? {ks : List Sym} (h : ks ≠ []) : (chipsOf ks).head? = some true := by
  obtain ⟨k, ks, rfl⟩ := List.exists_cons_of_ne_nil h
  rw [chipsOf_cons, List.head?_cons]

/-- Every symbol ends with 0, and so does a list of them. -/
theorem chipsOf_getLast? {ks : List Sym} (h : ks ≠ []) : (chipsOf ks).getLast? = some false := by
  obtain ⟨ks, k, rfl⟩ := List.eq_nil_or_concat' ks |>.resolve_left h
  have hlast : (chipsOf [k]).getLast? = some false := by cases k <;> rfl
  rw [chipsOf_append, List.getLast?_append, hlast, Option.some_or]

/-- Every symbol has one chip of value 1 (R72). -/
theorem chipsOf_count_true (ks : List Sym) : (chipsOf ks).count true = ks.length := by
  induction ks with
  | nil => rfl
  | cons k ks ih =>
    rw [chipsOf_cons, List.count_cons_self, List.count_append, List.count_replicate, ih, List.length_cons]
    simp

/-! ### Runs of equal chips (R140) -/

theorem chipRuns_cons_of_run {c : Bool} {k : Nat} {cs : List Bool} {rs : List (Bool × Nat)}
    (h : chipRuns cs = (c, k) :: rs) : chipRuns (c :: cs) = (c, k + 1) :: rs := by
  simp [chipRuns, h]

theorem chipRuns_head (c : Bool) (cs : List Bool) : ∃ k rs, chipRuns (c :: cs) = (c, k) :: rs := by
  cases h : chipRuns cs with
  | nil => exact ⟨1, [], by simp [chipRuns, h]⟩
  | cons r rs =>
    obtain ⟨d, k⟩ := r
    by_cases hcd : c = d
    · exact ⟨k + 1, rs, by simp [chipRuns, h, hcd]⟩
    · exact ⟨1, (d, k) :: rs, by simp [chipRuns, h, hcd]⟩

/-- A chip before a list that does not begin with it is a run of its own. -/
theorem chipRuns_cons_of_head_ne {c : Bool} {cs : List Bool} (h : cs.head? ≠ some c) :
    chipRuns (c :: cs) = (c, 1) :: chipRuns cs := by
  cases cs with
  | nil => rfl
  | cons d ds =>
    obtain ⟨k, rs, hruns⟩ := chipRuns_head d ds
    have hne : c ≠ d := by rintro rfl; exact h rfl
    rw [chipRuns, hruns]
    simp [hne]

/-- Equal chips before a list that does not begin with them are one run. -/
theorem chipRuns_replicate_append (n : Nat) {c : Bool} {cs : List Bool} (h : cs.head? ≠ some c) :
    chipRuns (List.replicate (n + 1) c ++ cs) = (c, n + 1) :: chipRuns cs := by
  induction n with
  | zero => exact chipRuns_cons_of_head_ne h
  | succ n ih => exact chipRuns_cons_of_run ih

/-- The runs of a symbol: one high chip, then its low chips (R72). -/
def symbolRuns (k : Sym) : List (Bool × Nat) := [(true, 1), (false, plen k - 1)]

/-- Every symbol begins with a run of its own, since the one before ends low. -/
theorem chipRuns_chipsOf (ks : List Sym) : chipRuns (chipsOf ks) = ks.flatMap symbolRuns := by
  induction ks with
  | nil => rfl
  | cons k ks ih =>
    have hhead : (chipsOf ks).head? ≠ some false := by
      cases ks with
      | nil => simp [chipsOf]
      | cons k' ks => rw [chipsOf_cons]; simp
    obtain ⟨n, hn⟩ : ∃ n, plen k - 1 = n + 1 := ⟨plen k - 2, by have := three_le_plen k; omega⟩
    have hlow : (List.replicate (n + 1) false ++ chipsOf ks).head? ≠ some true := by simp [List.replicate_succ]
    rw [chipsOf_cons, hn, chipRuns_cons_of_head_ne hlow, chipRuns_replicate_append n hhead, ih, List.flatMap_cons,
      symbolRuns, hn]
    rfl

theorem symbolRuns_length (ks : List Sym) : (ks.flatMap symbolRuns).length = 2 * ks.length := by
  induction ks with
  | nil => rfl
  | cons k ks ih =>
    rw [List.flatMap_cons, List.length_append, ih, List.length_cons, symbolRuns, List.length_cons, List.length_singleton]
    omega

/-! ### Frames and ChipSequences (R80, R100) -/

/-- The symbols of a ChipSequence: those of its frame, `REPEAT` times. -/
def seqSymbols (w : NfWord) : List Sym := (List.replicate Config.repeatCount (symbols w)).flatten

theorem chipsOf_flatten (kss : List (List Sym)) : chipsOf kss.flatten = (kss.map chipsOf).flatten := by
  induction kss with
  | nil => rfl
  | cons ks kss ih => rw [List.flatten_cons, chipsOf_append, ih, List.map_cons, List.flatten_cons]

theorem chipseq_eq_chipsOf (w : NfWord) : chipseq w = chipsOf (seqSymbols w) := by
  rw [seqSymbols, chipsOf_flatten, List.map_replicate]
  rfl

theorem seqSymbols_length (w : NfWord) : (seqSymbols w).length = 444 := by
  simp [seqSymbols, symbols_length, Config.repeatCount]

theorem seqSymbols_ne_nil (w : NfWord) : seqSymbols w ≠ [] := by
  rw [← List.length_pos_iff, seqSymbols_length]
  decide

/-- Settles O56: a ChipSequence is the chips of 444 symbols, whose runs `chipRuns_chipsOf` gives. -/
theorem chipSequenceShape : Obligations.ChipSequenceShape := by
  intro w
  have hne := seqSymbols_ne_nil w
  rw [chipseq_eq_chipsOf, chipRuns_chipsOf]
  refine ⟨chipsOf_head? hne, chipsOf_getLast? hne, ?_, ?_, ?_⟩
  · intro r hr
    obtain ⟨k, -, hk⟩ := List.mem_flatMap.mp hr
    obtain rfl | rfl : r = (true, 1) ∨ r = (false, plen k - 1) := by simpa [symbolRuns] using hk
    · exact .inl rfl
    · cases k <;> decide
  · rw [chipsOf_count_true, seqSymbols_length]
  · rw [symbolRuns_length, seqSymbols_length]

/-! ### The lengths (R81, R109) -/

theorem plen_bitSym (b : Bool) : plen (bitSym b) = if b then 5 else 3 := by cases b <;> rfl

theorem frame_length_eq_sum (w : NfWord) :
    (frame w).length = 9 + ((frameBits w).map fun b => if b then 5 else 3).sum := by
  rw [frame, chipsOf_length, symbols, List.map_cons, List.sum_cons, plen_sync, List.map_map]
  simp only [Function.comp_def, plen_bitSym]

/-- A bit adds 3 chips, and 2 more where it is 1. -/
theorem sum_bit_lengths (bs : List Bool) :
    (bs.map fun b => if b then 5 else 3).sum = 3 * bs.length + 2 * bs.count true := by
  induction bs with
  | nil => rfl
  | cons b bs ih => cases b <;> simp [ih] <;> omega

theorem frame_length (w : NfWord) : (frame w).length = 117 + 2 * (frameBits w).count true := by
  rw [frame_length_eq_sum, sum_bit_lengths, frameBits_length]
  omega

theorem chipseq_length (w : NfWord) : (chipseq w).length = 12 * (frame w).length := by
  rw [chipseq, List.length_flatten, List.map_replicate, List.sum_replicate]
  rfl

theorem frameBits_count_le (w : NfWord) : (frameBits w).count true ≤ 36 :=
  frameBits_length w ▸ List.count_le_length

/-- Frame bits that are 1 at increasing places are counted. -/
theorem length_le_count_frameBits (w : NfWord) {places : List Nat} (hplaces : places.Sublist (List.range 36))
    (hone : ∀ b ∈ places, frameBit w b = true) : places.length ≤ (frameBits w).count true := by
  have hall : places.map (frameBit w) = List.replicate places.length true := List.map_eq_replicate_iff.mpr hone
  have hcount := (hplaces.map (frameBit w)).count_le true
  rwa [hall, List.count_replicate_self] at hcount

/-- A word the Field Encoder can produce has five 1 bits at least: four of nibble 6, one of nibble 2 (R109). -/
theorem five_le_count_frameBits {w : NfWord} (h6 : nibble w 6 = 15)
    (h2 : nibble w 2 = 8 ∨ nibble w 2 = 9 ∨ nibble w 2 = 10) : 5 ≤ (frameBits w).count true := by
  refine length_le_count_frameBits w (places := [8, 24, 25, 26, 27]) (by decide) fun b hb => ?_
  have htop : (nibble w 2).getLsbD 3 = true := by rcases h2 with h | h | h <;> rw [h] <;> rfl
  have hb36 : b < 36 := by
    revert b
    decide
  rw [frameBit_eq_nibble w hb36]
  fin_cases hb
  · exact htop
  all_goals
    show (nibble w 6).getLsbD _ = true
    rw [h6]
    rfl

/-- Settles O55: all of it follows from `frame_length` and bounds on the number of 1 bits. -/
theorem chipSequenceLength : Obligations.ChipSequenceLength := by
  have hlength (w : NfWord) : (chipseq w).length = 12 * (117 + 2 * (frameBits w).count true) := by
    rw [chipseq_length, frame_length]
  refine ⟨fun w => ⟨symbols_length w, frame_length w, ?_, hlength w, ?_, ?_, fun h6 h2 => ?_⟩, ?_, ?_⟩
  · rw [chipseq_length, frame_length_eq_sum]
  · have := hlength w
    omega
  · have := hlength w
    have := frameBits_count_le w
    omega
  · have := hlength w
    have := five_le_count_frameBits h6 h2
    omega
  · rw [hlength]
    decide
  · rw [hlength]
    decide

end Sys2Proof.Machine
end

section
/-! The family of the Pulse Encoder, the PulseLog against `rle` of the ChipSequences (R60, R158, R234). -/

namespace Sys2Proof.Machine

/-! ### What PE's registers tell of the scan in progress (R140, R158) -/

/-- The variables of the scan that PE's registers hold, `out` being the entries emitted so far. -/
def PE.scanned (p : PE) (out : List Int) : Scan := ⟨p.acc.toInt, p.pv, p.pol, out⟩

/-- Where the sum fits, SAME's addition is exact (R143, R155). -/
theorem PE.same_acc_toInt {p : PE} {c : Bool} (hfits : accFits (p.sum c) = true) : (p.same c).acc.toInt = p.sum c :=
  accOf_toInt hfits

/-- With no run in progress PE's registers are the scan's start (R32 item 4). -/
theorem PeInv.scanned_of_no_run {p : PE} (h : PeInv p) (hv : p.pv = false) : p.scanned [] = Scan.start := by
  obtain ⟨hacc, hpol⟩ := h.noRun hv
  simp [PE.scanned, Scan.start, hacc, hv, hpol]

/-- The lists read off PulseLog once the pulse of a PE operation, if it emits one, stands in it (R60). -/
def Artifacts.emit (a : Artifacts Int) (out : Option Pulse) : Artifacts Int :=
  (out.toList.map PulseEvent.pulse).foldl Artifacts.pulse a

theorem pulseArtifacts_append_emit (l : List PulseEvent) (out : Option Pulse) :
    pulseArtifacts (l ++ out.toList.map .pulse) = (pulseArtifacts l).emit out := by
  rw [pulseArtifacts, List.foldl_append]
  rfl

@[simp] theorem Artifacts.emit_none (a : Artifacts Int) : a.emit none = a := rfl

/-- A pulse with `last = 0` joins the list in progress (R60). -/
@[simp] theorem Artifacts.emit_open (a : Artifacts Int) (x : AccWord) :
    a.emit (some ⟨x, false⟩) = { a with part := a.part ++ [x.toInt] } := rfl

/-- A pulse with `last = 1` completes the list in progress (R60). -/
@[simp] theorem Artifacts.emit_last (a : Artifacts Int) (x : AccWord) :
    a.emit (some ⟨x, true⟩) = a.complete (a.part ++ [x.toInt]) := rfl

/-! ### The agreement of the lists, event by event (R60) -/

/-- The lists of PulseLog agree with `rle` of the lists of ChipLog: in each period that a reset has ended, and in the one
in progress, where PE's registers hold the scan of the chips so far, and in `P_TRAIL` the last list lacks its trailer. -/
structure PulsesAgree (a : Artifacts Int) (b : Artifacts Bool) (p : PE) : Prop where
  past : List.Forall₂ (CompletedOf rle) a.past b.past
  scan : p.st ≠ .trail → scanChips b.part = p.scanned a.part ∧ a.done = b.done.map rle
  trail : p.st = .trail → b.part = [] ∧ a.done ++ [a.part ++ [-Config.zeroLen]] = b.done.map rle

/-- PulseInv says that the logs' lists agree, where PE is on the chip link. -/
theorem pulseInv_iff (s : State) :
    PulseInv s ↔
      s.wiring ≠ .seAlone ∧ Inv s ∧ PulsesAgree (pulseArtifacts s.pulseLog) (chipArtifacts s.chipLog) s.pe :=
  ⟨fun ⟨hlinked, hinv, hpast, hscan, htrail⟩ => ⟨hlinked, hinv, hpast, hscan, htrail⟩,
    fun ⟨hlinked, hinv, hpast, hscan, htrail⟩ => ⟨hlinked, hinv, hpast, hscan, htrail⟩⟩

/-- Lists that begin the images of a period's lists are the images of its first ones. -/
theorem completedOf_of_prefix {α β : Type} {f : α → β} {done : List β} {xs : List α} (h : done <+: xs.map f) :
    CompletedOf f done xs := by
  rw [CompletedOf, List.map_take]
  exact List.prefix_iff_eq_take.mp h

section Agree
variable {a : Artifacts Int} {b : Artifacts Bool} {p q : PE}

/-- While PE does not wait to send the trailer, agreement is that of the scan. -/
theorem pulsesAgree_of_scan (hst : p.st ≠ .trail) (hpast : List.Forall₂ (CompletedOf rle) a.past b.past)
    (hscan : scanChips b.part = p.scanned a.part) (hdone : a.done = b.done.map rle) : PulsesAgree a b p :=
  ⟨hpast, fun _ => ⟨hscan, hdone⟩, fun h => absurd h hst⟩

/-- The PulseLists completed since the last marker are `rle` of the first ChipSequences completed since then. -/
theorem PulsesAgree.completedOf (h : PulsesAgree a b p) : CompletedOf rle a.done b.done := by
  apply completedOf_of_prefix
  by_cases hst : p.st = .trail
  · obtain ⟨-, hdone⟩ := h.trail hst
    exact ⟨_, hdone⟩
  · rw [(h.scan hst).2]

/-- A marker ends the period and cuts both lists in progress (R252). -/
theorem PulsesAgree.cut (h : PulsesAgree a b p) : PulsesAgree (a.pulse .cut) (b.chip .cut) PE.atReset :=
  pulsesAgree_of_scan (by simp [PE.atReset]) (List.rel_append h.past (.cons h.completedOf .nil)) rfl rfl

/-- FIRST, SAME and FLIP are one step of the scan (R142 to R144). -/
theorem PulsesAgree.take_chip {c : Bool} {out : Option Pulse} (h : PulsesAgree a b p) (hinv : PeInv p)
    (ht : p.take (.chip c) = some (q, out)) : PulsesAgree (a.emit out) (b.chip (.tok (.chip c))) q := by
  obtain ⟨hst, hcases⟩ := PE.take_cases ht
  obtain ⟨hscan, hdone⟩ := h.scan (by simp [hst])
  have hnext : scanChips (b.part ++ [c]) = (p.scanned a.part).chip c := by rw [scanChips_snoc, hscan]
  obtain ⟨d, hd, hv, rfl, rfl⟩ | ⟨d, hd, hv, hpol, hfits, rfl, rfl⟩ | ⟨d, hd, hv, hpol, rfl, rfl⟩ | ⟨x, hx, -⟩ |
    ⟨x, hx, -⟩ | ⟨x, hx, -⟩ := hcases
  · -- FIRST
    cases hd
    refine pulsesAgree_of_scan (by simp [PE.first, PE.setPolarity, hst]) h.past (hnext.trans ?_) hdone
    obtain ⟨hacc, -⟩ := hinv.noRun hv
    simp [Scan.chip, PE.scanned, PE.first, PE.setPolarity, hv, hacc]
  · -- SAME
    cases hd
    refine pulsesAgree_of_scan (by simp [PE.same, hst]) h.past (hnext.trans ?_) hdone
    rw [PE.scanned, PE.scanned, PE.same_acc_toInt hfits]
    simp [Scan.chip, PE.same, PE.sum, hv, hpol]
  · -- FLIP
    cases hd
    refine pulsesAgree_of_scan (by simp [PE.flip, hst]) h.past (hnext.trans ?_) hdone
    simp [Scan.chip, PE.scanned, PE.flip, hv, hpol]
  all_goals cases hx

/-- The three FINISH operations are the end of the scan, but for the trailer that FINISH_HIGH leaves pending (R145 to
R147). -/
theorem PulsesAgree.take_fin {x : Bool} {out : Option Pulse} (h : PulsesAgree a b p) (hinv : PeInv p)
    (ht : p.take (.fin x) = some (q, out)) : PulsesAgree (a.emit out) (b.chip (.tok (.fin x))) q := by
  obtain ⟨hst, hcases⟩ := PE.take_cases ht
  obtain ⟨hscan, hdone⟩ := h.scan (by simp [hst])
  have hrle : (b.done ++ [b.part]).map rle = a.done ++ [(p.scanned a.part).finish] := by
    rw [List.map_append, List.map_singleton, rle, hscan, hdone]
  obtain ⟨c, hc, -⟩ | ⟨c, hc, -⟩ | ⟨c, hc, -⟩ | ⟨y, -, hv, rfl, rfl⟩ | ⟨y, -, hv, hpol, rfl, rfl⟩ |
    ⟨y, -, hv, hpol, rfl, rfl⟩ := hcases
  · cases hc
  · cases hc
  · cases hc
  · -- FINISH_EMPTY
    refine pulsesAgree_of_scan (by simp [hst]) h.past (hinv.scanned_of_no_run hv).symm ?_
    exact .trans (by simp [Scan.finish, PE.scanned, hv]) hrle.symm
  · -- FINISH_LOW
    refine pulsesAgree_of_scan (by simp [PE.finishLow, PE.clearPolarity, hst]) h.past rfl ?_
    exact .trans (by simp [Scan.finish, PE.scanned, hpol]) hrle.symm
  · -- FINISH_HIGH
    refine ⟨h.past, fun hne => absurd rfl hne, fun _ => ⟨rfl, ?_⟩⟩
    exact .trans (by simp [Scan.finish, PE.scanned, hv, hpol]) hrle.symm

/-- Every token PE takes keeps the agreement. -/
theorem PulsesAgree.take {t : ChipTok} {out : Option Pulse} (h : PulsesAgree a b p) (hinv : PeInv p)
    (ht : p.take t = some (q, out)) : PulsesAgree (a.emit out) (b.chip (.tok t)) q := by
  cases t with
  | chip c => exact h.take_chip hinv ht
  | fin x => exact h.take_fin hinv ht

/-- PE.TRAIL completes the last list with its trailer (R148). -/
theorem PulsesAgree.leaveTrail (h : PulsesAgree a b p) (hinv : PeInv p) (hst : p.st = .trail) :
    PulsesAgree (a.pulse (.pulse trailer)) b p.leaveTrail := by
  obtain ⟨hpart, hdone⟩ := h.trail hst
  refine pulsesAgree_of_scan (by simp [PE.leaveTrail]) h.past ?_ hdone
  rw [hpart]
  exact (hinv.scanned_of_no_run (hinv.trail hst)).symm

/-- Taking the fault leaves the scan in progress as it is (R234). -/
theorem PulsesAgree.raiseAccOverflow (h : PulsesAgree a b p) (hst : p.st = .scan) :
    PulsesAgree a b { p with fault := true, st := .fault } := by
  obtain ⟨hscan, hdone⟩ := h.scan (by simp [hst])
  exact pulsesAgree_of_scan (by simp) h.past hscan hdone

end Agree

/-! ### PulseInv through reset, turns and moves -/

/-- PulseInv speaks of the composition, the two units' invariants, PE and two logs only. -/
theorem PulseInv.congr {s t : State} (h : PulseInv s) (hw : t.wiring = s.wiring) (hpe : t.pe = s.pe)
    (hchip : t.chipLog = s.chipLog) (hpulse : t.pulseLog = s.pulseLog) (hinv : Inv t) : PulseInv t := by
  rw [pulseInv_iff] at h ⊢
  obtain ⟨hlinked, -, hagree⟩ := h
  rw [hw, hpe, hchip, hpulse]
  exact ⟨hlinked, hinv, hagree⟩

theorem PulseInv.takeReset {s : State} (h : PulseInv s) : PulseInv s.takeReset := by
  rw [pulseInv_iff] at h ⊢
  obtain ⟨hlinked, -, hagree⟩ := h
  rw [State.takeReset_chipLog, State.takeReset_pulseLog, chipArtifacts_snoc, pulseArtifacts_snoc]
  exact ⟨hlinked, .takeReset s, hagree.cut⟩

/-- An overflow is pending only while PE scans (R149, R150). -/
theorem PE.scan_of_overflowPending {p : PE} {t : ChipTok} (h : p.overflowPending t = true) : p.st = .scan := by
  cases t with
  | chip c => exact (PE.overflowPending_chip h).1
  | fin x => cases h

/-- Every move keeps PulseLog in agreement with `rle`. -/
theorem PulseInv.move {s t : State} (h : PulseInv s) (hm : Move s t) : PulseInv t := by
  have hinv : Inv t := h.inv.move hm
  obtain ⟨hlinked, ⟨-, hpe⟩, hagree⟩ := (pulseInv_iff s).mp h
  cases hm with
  | driveNf w => exact h.congr rfl rfl rfl rfl hinv
  | load => exact h.congr rfl rfl rfl rfl hinv
  | toConsumer tok hw => exact absurd hw hlinked
  | toPe tok p out ho ht =>
    refine (pulseInv_iff _).mpr ⟨by rwa [State.ciCommit_wiring], hinv, ?_⟩
    rw [State.ciCommit_pulseLog, State.ciCommit_chipLog, State.ciCommit_pe, pulseArtifacts_append_emit,
      chipArtifacts_snoc]
    exact hagree.take hpe ht
  | driveCi tok => exact h.congr rfl rfl rfl rfl hinv
  | trail hst =>
    refine (pulseInv_iff _).mpr ⟨hlinked, hinv, ?_⟩
    rw [State.logPulses_pulseLog, State.setPe_pulseLog, pulseArtifacts_snoc]
    exact hagree.leaveTrail hpe hst
  | overflow tok ho hv =>
    exact (pulseInv_iff _).mpr ⟨hlinked, hinv, hagree.raiseAccOverflow (PE.scan_of_overflowPending hv)⟩

/-- Settles O50: the turn's wires, RESET and every move keep PulseInv (`PulseInv.move`). -/
theorem stepKeepsPulseLogEqualToRle : Obligations.StepKeepsPulseLogEqualToRle := fun _ _ hpulse hstep =>
  step_keeps (fun _ turn rest h => h.congr rfl rfl rfl rfl (h.inv.beginTurn turn rest)) (fun _ h => h.takeReset)
    (fun _ _ h hm => h.move hm) hpulse hstep

end Sys2Proof.Machine
end

section
/-! The family of the Pulse Encoder, its operations one by one (R141 to R149), its wires, and where nothing is enabled
(R150). -/

namespace Sys2Proof.Machine

/-! ### Durations (R141, R149) -/

/-- Settles O23. -/
theorem chipDurations : Obligations.ChipDurations := ⟨delta_true, delta_false⟩

/-- The sum that SAME stores, with the chip's duration written out (R141, R143). -/
theorem PE.sum_eq (p : PE) (c : Bool) : p.sum c = p.acc.toInt + (if c then 500 else -500) := rfl

/-- The integers outside the accumulator's range, spelled out (R7). -/
theorem accFits_eq_false_iff (x : Int) : accFits x = false ↔ x > 2147483647 ∨ x < -2147483648 := by
  rw [← Bool.not_eq_true, accFits_iff]
  omega

/-- Settles O6: 4294967 is the quotient of both bounds of the range by the duration of a chip. -/
theorem longestRunThatFits : Obligations.LongestRunThatFits := by
  intro k
  rw [accFits_iff, accFits_iff]
  omega

/-! ### The operations on a chip (R142 to R144, R149) -/

/-- Settles O24: FIRST's guard holds, and its transfer is `State.moved`. -/
theorem firstChipStartsARun : Obligations.FirstChipStartsARun := by
  intro s c x ho hs hv
  have hexec : exec (.peFirst c x) s = .next (s.ciCommit (.chip c) (s.pe.first c) none) := if_pos ⟨ho, hs, hv⟩
  refine ⟨State.selects_first ho hs hv, ?_⟩
  rw [hexec, State.ciCommit_moved]
  rfl

/-- Settles O25: where the sum fits, the accumulator that SAME stores has the sum as its value (`PE.same_acc_toInt`). -/
theorem sameChipExtendsTheRun : Obligations.SameChipExtendsTheRun := by
  intro s c ho hs hv hp hmin hmax
  have hfits : accFits (s.pe.sum c) = true := (accFits_iff _).mpr ⟨hmin, hmax⟩
  refine ⟨State.selects_same ho hs hv hp hfits, (s.pe.same c).acc, PE.same_acc_toInt hfits, ?_⟩
  rw [exec_same, if_pos ⟨ho, hs, hv, hp⟩, if_pos hfits, State.ciCommit_moved]
  rfl

/-- Settles O5: where the sum does not fit, OVF's condition holds, and SAME's row takes the fault in its place. -/
theorem overflowRecordsTheFault : Obligations.OverflowRecordsTheFault := by
  intro s c ho hs hv hp hout
  have hfits : accFits (s.pe.sum c) = false := (accFits_eq_false_iff _).mpr hout
  have hpending : s.pe.overflowPending (.chip c) = true := by
    rw [PE.overflowPending_of_same hs hv hp, hfits, Bool.not_false]
  refine ⟨State.selects_ovf ho hs hv hp hfits, ?_, ?_⟩
  · rw [exec_ovf, if_pos ⟨ho, hp, hpending⟩, State.raiseAccOverflow_eq]
    rfl
  · rw [exec_same, if_pos ⟨ho, hs, hv, hp⟩, hfits, State.raiseAccOverflow_eq]
    rfl

/-- FLIP waits for SINK (R144, R150). -/
theorem exec_flip_of_not_ready (c : Bool) {s : State} (hpo : s.ports.poReady = false) :
    exec (if c then .peFlipUp else .peFlipDown) s = .next s := by
  rw [exec_flip, if_neg]
  simp [hpo]

/-- Settles O26. -/
theorem flipFlushesThenRestarts : Obligations.FlipFlushesThenRestarts := by
  intro s c ho hs hv hp
  refine ⟨State.selects_flip ho hs hv hp, fun hpo => ?_, fun hpo => exec_flip_of_not_ready c hpo⟩
  rw [exec_flip, if_pos ⟨ho, hs, hv, hp, hpo⟩, State.ciCommit_moved]
  rfl

/-! ### The operations on END, and the trailer (R145 to R148) -/

/-- The end of a sequence waits for SINK (R145 to R147, R150). -/
theorem IsFinish.exec_of_not_ready {i : Instr} (hi : IsFinish i) {s : State} (hpo : s.ports.poReady = false) :
    exec i s = .next s := by
  obtain ⟨t, ht⟩ := exec_eq_next i s
  by_contra hne
  obtain ⟨b, ho⟩ := hi.fin_offered ht (by rintro rfl; exact hne ht)
  obtain ⟨x, y, rfl⟩ | ⟨x, rfl⟩ | ⟨x, rfl⟩ := hi
  · simp [exec_finishEmpty_of_fin ho, hpo] at hne
  · simp [exec_finishLow_of_fin ho, hpo] at hne
  · simp [exec_finishHigh_of_fin ho, hpo] at hne

/-- Settles O27; the accumulator is 0 by R32 item 4. -/
theorem emptySequenceEmitsZero : Obligations.EmptySequenceEmitsZero := by
  intro s b x y ho hs hv
  refine ⟨State.selects_finishEmpty ho hs hv, fun hpo => ?_, IsFinish.exec_of_not_ready (.inl ⟨x, y, rfl⟩),
    fun hinv => (hinv.noRun hv).1⟩
  rw [exec_finishEmpty_of_fin ho, if_pos ⟨hs, hv, hpo⟩, State.ciCommit_moved]
  rfl

/-- Settles O28. -/
theorem lowEndIsFlushedLast : Obligations.LowEndIsFlushedLast := by
  intro s b x ho hs hv hp
  refine ⟨State.selects_finishLow ho hs hv hp, fun hpo => ?_, IsFinish.exec_of_not_ready (.inr (.inl ⟨x, rfl⟩))⟩
  rw [exec_finishLow_of_fin ho, if_pos ⟨hs, hv, hp, hpo⟩, State.ciCommit_moved]
  rfl

/-- Settles O29. -/
theorem highEndLeavesTheTrailer : Obligations.HighEndLeavesTheTrailer := by
  intro s b x ho hs hv hp
  refine ⟨State.selects_finishHigh ho hs hv hp, fun hpo => ?_, IsFinish.exec_of_not_ready (.inr (.inr ⟨x, rfl⟩))⟩
  rw [exec_finishHigh_of_fin ho, if_pos ⟨hs, hv, hp, hpo⟩, State.ciCommit_moved]
  rfl

/-- PE.TRAIL's row sends the trailer, whatever its don't-care bits are (R148). -/
theorem exec_peTrail (w x y z : Bool) (s : State) : exec (.peTrail w x y z) s = .next s.sendTrailer := rfl

/-- The trailer waits for SINK (R148, R150). -/
theorem State.sendTrailer_of_not_ready {s : State} (hpo : s.ports.poReady = false) : s.sendTrailer = s := by
  rw [State.sendTrailer, if_neg]
  simp [hpo]

/-- PE accepts a token only while it scans (R150). -/
theorem State.ciReady_of_not_scan {s : State} (hs : s.pe.st ≠ .scan) : s.ciReady = false := by
  simp [State.ciReady, hs]

/-- Settles O30. -/
theorem trailerFollowsAHighEnd : Obligations.TrailerFollowsAHighEnd := by
  intro s w x y z hs hrst
  refine ⟨State.selects_trail hs, State.ciReady_of_not_scan (by simp [hs]), fun hpo => ?_, fun hpo => ?_⟩ <;>
    rw [exec_peTrail]
  · rw [State.sendTrailer_of_ready hs hrst hpo]
    rfl
  · rw [State.sendTrailer_of_not_ready hpo]

/-! ### PE's output wires (R150) -/

/-- Where `rst` is 0, `po_valid` is the trailer pending, END offered, or a chip offered that ends the run. -/
theorem State.poValid_iff {s : State} (hrst : s.ports.rst = false) :
    s.poValid = true ↔ s.pe.st = .trail ∨ (s.pe.st = .scan ∧ ((∃ x, s.ciOffer = some (.fin x)) ∨
      ∃ c, s.ciOffer = some (.chip c) ∧ s.pe.pv = true ∧ c ≠ s.pe.pol)) := by
  rw [State.poValid, hrst, State.needsPo]
  rcases ho : s.ciOffer with _ | c | x
  · simp
  · simp [eq_comm (a := s.pe.pol)]
  · simp

theorem State.poData_eq (s : State) : s.poData = if s.pe.st = .trail then accOf (-500) else s.pe.acc := by
  simp only [State.poData, beq_iff_eq]
  rfl

theorem State.poLast_iff (s : State) :
    s.poLast = true ↔ s.pe.st = .trail ∨
      (s.pe.st = .scan ∧ (∃ x, s.ciOffer = some (.fin x)) ∧ ¬(s.pe.pv = true ∧ s.pe.pol = true)) := by
  rw [State.poLast]
  rcases ho : s.ciOffer with _ | c | x <;> simp [imp_iff_not_or]

theorem State.ciReady_iff {s : State} (hrst : s.ports.rst = false) :
    s.ciReady = true ↔
      s.pe.st = .scan ∧ s.overflowPending = false ∧ (s.poValid = false ∨ s.ports.poReady = true) := by
  simp [State.ciReady, State.poValid, hrst]

/-- An overflow is pending where the chip offered continues the run and its sum leaves the range (R149). -/
theorem State.overflowPending_iff (s : State) :
    s.overflowPending = true ↔ ∃ c, s.ciOffer = some (.chip c) ∧ s.pe.st = .scan ∧ s.pe.pv = true ∧ s.pe.pol = c ∧
      (s.pe.sum c > 2147483647 ∨ s.pe.sum c < -2147483648) := by
  rw [State.overflowPending]
  constructor
  · intro h
    rcases ho : s.ciOffer with _ | c | x <;> rw [ho] at h
    · cases h
    · obtain ⟨hs, hv, hp, hfits⟩ := PE.overflowPending_chip h
      exact ⟨c, rfl, hs, hv, hp, (accFits_eq_false_iff _).mp hfits⟩
    · cases h
  · rintro ⟨c, ho, hs, hv, hp, hout⟩
    rw [ho]
    show s.pe.overflowPending (.chip c) = true
    rw [PE.overflowPending_of_same hs hv hp, (accFits_eq_false_iff _).mpr hout, Bool.not_false]

/-- Settles O31, wire by wire. -/
theorem peOutputWires : Obligations.PeOutputWires := fun s hrst =>
  ⟨State.poValid_iff hrst, s.poData_eq, s.poLast_iff, State.ciReady_iff hrst, s.overflowPending_iff⟩

/-! ### Where no operation is enabled (R150) -/

/-- The selector stands for one row only (R77). -/
theorem State.selects_unique {s : State} {i j : Instr} (hi : s.selects i) (hj : s.selects j) : i = j := by
  obtain ⟨c, hc, hdi⟩ := hi
  obtain ⟨d, hd, hdj⟩ := hj
  cases hc.symm.trans hd
  cases hdi.symm.trans hdj
  rfl

/-- While PE scans and no token is offered there is no selector (R77). -/
theorem State.not_selects_of_no_offer {s : State} {i : Instr} (hs : s.pe.st = .scan) (ho : s.ciOffer = none) :
    ¬s.selects i := by
  rintro ⟨c, hc, -⟩
  simp [State.pselCode, hs, ho] at hc

/-- In `P_FAULT` and in the reserved state the selector stands for a row that holds (R78, R150). -/
theorem State.exec_of_selects_held {s : State} {i : Instr} (hs : s.pe.st = .fault ∨ s.pe.st = .reserved)
    (hi : s.selects i) : exec i s = .next s := by
  obtain ⟨c, hc, hd⟩ := hi
  obtain ⟨b, w, x, y, z, o, rfl⟩ : ∃ b w x y z o, c = .psel (bits6 true b w x y z) o := by
    unfold State.pselCode at hc
    obtain hs | hs := hs <;> rw [hs] at hc <;> split at hc <;> cases hc <;> exact ⟨_, _, _, _, _, _, rfl⟩
  rw [decode, decodePsel_bits6] at hd
  cases b <;> cases hd <;> rfl

/-- Where the selected operation needs `po` and SINK does not accept, it waits (R150). -/
theorem State.exec_of_selects_not_ready {s : State} {i : Instr} (hneeds : s.needsPo = true)
    (hpo : s.ports.poReady = false) (hi : s.selects i) : exec i s = .next s := by
  cases hs : s.pe.st with
  | fault => exact State.exec_of_selects_held (.inl hs) hi
  | reserved => exact State.exec_of_selects_held (.inr hs) hi
  | trail =>
    obtain ⟨a, b, htrail⟩ := State.selects_trail hs
    rw [State.selects_unique hi htrail, exec_peTrail, State.sendTrailer_of_not_ready hpo]
  | scan =>
    rcases ho : s.ciOffer with _ | c | x
    · exact absurd hi (State.not_selects_of_no_offer hs ho)
    · obtain ⟨hv, hp⟩ : s.pe.pv = true ∧ s.pe.pol = !c := by
        simpa [State.needsPo, hs, ho, Bool.eq_not] using hneeds
      rw [State.selects_unique hi (State.selects_flip ho hs hv hp), exec_flip_of_not_ready c hpo]
    · refine IsFinish.exec_of_not_ready ?_ hpo
      cases hv : s.pe.pv with
      | false => exact .inl ⟨_, _, State.selects_unique hi (State.selects_finishEmpty ho hs hv)⟩
      | true =>
        cases hp : s.pe.pol with
        | false => exact .inr (.inl ⟨_, State.selects_unique hi (State.selects_finishLow ho hs hv hp)⟩)
        | true => exact .inr (.inr ⟨_, State.selects_unique hi (State.selects_finishHigh ho hs hv hp)⟩)

/-- Settles O32: a row of PE that changes something does what the selected row does (`onePeOperationPerSelector`), and in
each of these states no row is selected or the selected one waits. -/
theorem peHoldsWhenNothingIsEnabled : Obligations.PeHoldsWhenNothingIsEnabled := by
  intro i s hrow hheld
  obtain ⟨t, ht⟩ := exec_eq_next i s
  by_cases hts : t = s
  · rw [ht, hts]
  · obtain ⟨j, hj, hjt⟩ := onePeOperationPerSelector i s t hrow ht hts
    have hstay : exec j s = .next s := by
      obtain ⟨hs, ho⟩ | ⟨hneeds, hpo⟩ | hs | hs := hheld
      · exact absurd hj (State.not_selects_of_no_offer hs ho)
      · exact State.exec_of_selects_not_ready hneeds hpo hj
      · exact State.exec_of_selects_held (.inl hs) hj
      · exact State.exec_of_selects_held (.inr hs) hj
    rw [ht, ← hjt, hstay]

/-! ### TOP neither overflows nor trails (R149, R181, R187) -/

/-- In TOP PE takes the token it sees, so that no overflow is pending on it. -/
theorem TopInv.overflowPending_eq_false {s : State} {t : ChipTok} (h : TopInv s) (ho : s.ciOffer = some t) :
    s.pe.overflowPending t = false := by
  obtain ⟨-, ⟨-, -, hco⟩ | ⟨hpe, -⟩⟩ := State.ciOffer_cases ho
  · have htake := h.take_isSome hco
    rw [PE.take_isSome, Bool.and_eq_true, Bool.not_eq_true'] at htake
    exact htake.2
  · exact absurd (h.top.symm.trans hpe) (by simp)

/-- In TOP the rows of OVF change nothing. -/
theorem TopInv.exec_ovf {s : State} (h : TopInv s) (c : Bool) :
    exec (if c then .peOvf1 else .peOvf0) s = .next s := by
  rw [Machine.exec_ovf, if_neg]
  rintro ⟨ho, -, hpending⟩
  rw [h.overflowPending_eq_false ho] at hpending
  cases hpending

/-- Settles O48. -/
theorem topNeverOverflowsNorTrails : Obligations.TopNeverOverflowsNorTrails := by
  intro s h
  have htrail : s.pe.st ≠ .trail := by simp [h.scan]
  have hfault : s.pe.st ≠ .fault := by simp [h.scan]
  have hpending : s.overflowPending = false := by
    cases ho : s.ciOffer with
    | none => simp [State.overflowPending, ho]
    | some t => simpa [State.overflowPending, ho] using h.overflowPending_eq_false ho
  exact ⟨hpending, htrail, hfault, h.inv.pe.fault_eq_false hfault, h.exec_ovf false, h.exec_ovf true,
    fun w x y z => by rw [exec_peTrail, State.sendTrailer_of_not_trail htrail]⟩

end Sys2Proof.Machine
end

section
/-! The family of the Pulse Encoder, `rle` as a function: the list of runs (R140), the signs, the duration and the number
of the entries (R151 to R154, R157), and the closed form for a ChipSequence (R156). -/

namespace Sys2Proof.Machine

/-! ### The maximal runs of a chip list (R140) -/

/-- A further chip in front is a run of its own, or makes the first run longer by one. -/
theorem chipRuns_cons_cases (c : Bool) (cs : List Bool) :
    (cs.head? ≠ some c ∧ chipRuns (c :: cs) = (c, 1) :: chipRuns cs) ∨
      ∃ k rs, chipRuns cs = (c, k) :: rs ∧ chipRuns (c :: cs) = (c, k + 1) :: rs := by
  by_cases h : cs.head? = some c
  · obtain ⟨ds, rfl⟩ := List.head?_eq_some_iff.mp h
    obtain ⟨k, rs, hruns⟩ := chipRuns_head c ds
    exact .inr ⟨k, rs, hruns, chipRuns_cons_of_run hruns⟩
  · exact .inl ⟨h, chipRuns_cons_of_head_ne h⟩

/-- The chips of a list of runs. -/
def expandRuns (rs : List (Bool × Nat)) : List Bool := rs.flatMap fun r => List.replicate r.2 r.1

theorem expandRuns_cons (c : Bool) (k : Nat) (rs : List (Bool × Nat)) :
    expandRuns ((c, k) :: rs) = List.replicate k c ++ expandRuns rs := rfl

/-- The runs of a chip list, one after another, are the list. -/
theorem expandRuns_chipRuns (cs : List Bool) : expandRuns (chipRuns cs) = cs := by
  induction cs with
  | nil => rfl
  | cons c cs ih =>
    obtain ⟨-, h⟩ | ⟨k, rs, hcs, h⟩ := chipRuns_cons_cases c cs <;> rw [h, expandRuns_cons]
    · rw [ih]
      rfl
    · rw [hcs, expandRuns_cons] at ih
      rw [List.replicate_succ, List.cons_append, ih]

/-- No run is empty. -/
theorem chipRuns_pos {cs : List Bool} : ∀ r ∈ chipRuns cs, 1 ≤ r.2 := by
  induction cs with
  | nil => simp [chipRuns]
  | cons c cs ih =>
    obtain ⟨-, h⟩ | ⟨k, rs, hcs, h⟩ := chipRuns_cons_cases c cs <;> rw [h]
    · simpa using ih
    · rw [hcs] at ih
      simp_all

/-- Neighbouring runs differ in their chip: they are maximal. -/
theorem chipRuns_isChain (cs : List Bool) : (chipRuns cs).IsChain fun r r' => r.1 ≠ r'.1 := by
  induction cs with
  | nil => exact .nil
  | cons c cs ih =>
    obtain ⟨hne, h⟩ | ⟨k, rs, hcs, h⟩ := chipRuns_cons_cases c cs <;> rw [h]
    · cases cs with
      | nil => exact .singleton _
      | cons d ds =>
        obtain ⟨k, rs, hruns⟩ := chipRuns_head d ds
        rw [hruns] at ih ⊢
        refine .cons_cons ?_ ih
        rintro rfl
        exact hne rfl
    · rw [hcs, List.isChain_cons] at ih
      exact List.isChain_cons.mpr ih

theorem chipRuns_length_le (cs : List Bool) : (chipRuns cs).length ≤ cs.length := by
  induction cs with
  | nil => rfl
  | cons c cs ih =>
    obtain ⟨-, h⟩ | ⟨k, rs, hcs, h⟩ := chipRuns_cons_cases c cs <;> rw [h, List.length_cons, List.length_cons]
    · omega
    · rw [hcs, List.length_cons] at ih
      omega

/-- The last run is one of the last chip. -/
theorem chipRuns_concat (cs : List Bool) (c : Bool) : ∃ rs k, chipRuns (cs ++ [c]) = rs ++ [(c, k)] := by
  induction cs with
  | nil => exact ⟨[], 1, rfl⟩
  | cons d cs ih =>
    obtain ⟨rs, k, hruns⟩ := ih
    rw [List.cons_append]
    obtain ⟨-, h⟩ | ⟨m, rs', hcs, h⟩ := chipRuns_cons_cases d (cs ++ [c]) <;> rw [h]
    · exact ⟨(d, 1) :: rs, k, by rw [hruns, List.cons_append]⟩
    · rw [hruns] at hcs
      cases rs with
      | nil => cases hcs; exact ⟨[], k + 1, rfl⟩
      | cons r rs => cases hcs; exact ⟨(d, m + 1) :: rs, k, rfl⟩

/-- A low chip after a high one is a run of its own. -/
theorem chipRuns_append_low {cs : List Bool} (h : cs.getLast? = some true) :
    chipRuns (cs ++ [false]) = chipRuns cs ++ [(false, 1)] := by
  induction cs with
  | nil => cases h
  | cons c cs ih =>
    cases cs with
    | nil => cases h; rfl
    | cons d ds =>
      have hruns := ih (by rwa [List.getLast?_cons_cons] at h)
      rw [List.cons_append]
      obtain ⟨hne, hd⟩ | ⟨k, rs, hds, hd⟩ := chipRuns_cons_cases c (d :: ds) <;> rw [hd]
      · have hsplit := chipRuns_cons_of_head_ne (cs := d :: ds ++ [false]) hne
        rw [hsplit, hruns, List.cons_append]
      · rw [hds, List.cons_append] at hruns
        exact chipRuns_cons_of_run hruns

/-! ### The scan is the list of runs (R140) -/

/-- The entry that R140 adds after a high run. -/
def trailerEntry (chips : List Bool) : List Int := if chips.getLast? = some true then [-Config.zeroLen] else []

theorem rleByRuns_of_ne_nil {chips : List Bool} (h : chips ≠ []) :
    rleByRuns chips = (chipRuns chips).map runEntry ++ trailerEntry chips := by
  cases chips with
  | nil => exact absurd rfl h
  | cons c cs => rfl

theorem runEntry_true (k : Nat) : runEntry (true, k) = k * 500 := rfl

theorem runEntry_false (k : Nat) : runEntry (false, k) = -(k * 500) := rfl

theorem runEntry_true_nonneg (k : Nat) : 0 ≤ runEntry (true, k) := by
  rw [runEntry_true]
  omega

theorem runEntry_false_nonpos (k : Nat) : runEntry (false, k) ≤ 0 := by
  rw [runEntry_false]
  omega

theorem runEntry_true_pos {k : Nat} (h : 1 ≤ k) : 0 < runEntry (true, k) := by
  rw [runEntry_true]
  omega

theorem runEntry_false_neg {k : Nat} (h : 1 ≤ k) : runEntry (false, k) < 0 := by
  rw [runEntry_false]
  omega

theorem runEntry_zero (c : Bool) : runEntry (c, 0) = 0 := by cases c <;> rfl

theorem runEntry_one (c : Bool) : runEntry (c, 1) = delta c := by cases c <;> rfl

theorem runEntry_add (c : Bool) (j k : Nat) : runEntry (c, j + k) = runEntry (c, j) + runEntry (c, k) := by
  cases c
  · rw [runEntry_false, runEntry_false, runEntry_false]
    push_cast
    ring
  · rw [runEntry_true, runEntry_true, runEntry_true]
    push_cast
    ring

/-- One chip more in a run adds its duration (R140, R141). -/
theorem runEntry_succ (c : Bool) (k : Nat) : runEntry (c, k + 1) = runEntry (c, k) + delta c := by
  rw [runEntry_add, runEntry_one]

/-- The scan from inside a run, its chip `c` counted in `acc` already: the rest of the run joins `acc`, then come the
entries of the runs after it, and the trailer. -/
theorem foldl_chip_finish {c : Bool} {cs : List Bool} {k : Nat} {rs : List (Bool × Nat)} (acc : Int) (out : List Int)
    (h : chipRuns (c :: cs) = (c, k) :: rs) :
    (cs.foldl Scan.chip ⟨acc, true, c, out⟩).finish =
      out ++ (acc + (runEntry (c, k) - delta c)) :: (rs.map runEntry ++ trailerEntry (c :: cs)) := by
  induction cs generalizing c k rs acc out with
  | nil =>
    cases h
    rw [runEntry_one]
    cases c <;> simp [Scan.finish, trailerEntry]
  | cons d ds ih =>
    obtain ⟨m, rs', hruns⟩ := chipRuns_head d ds
    have htrailer : trailerEntry (c :: d :: ds) = trailerEntry (d :: ds) := rfl
    rw [htrailer, List.foldl_cons]
    by_cases hcd : d = c
    · -- the run goes on
      subst hcd
      cases (chipRuns_cons_of_run hruns).symm.trans h
      have hchip : Scan.chip ⟨acc, true, d, out⟩ d = ⟨acc + delta d, true, d, out⟩ := by simp [Scan.chip]
      have hacc : acc + delta d + (runEntry (d, m) - delta d) = acc + (runEntry (d, m + 1) - delta d) := by
        rw [runEntry_succ]
        ring
      rw [hchip, ih _ _ hruns, hacc]
    · -- the run ends, and that of `d` begins
      have hsplit : chipRuns (c :: d :: ds) = (c, 1) :: (d, m) :: rs' := by
        rw [chipRuns_cons_of_head_ne (by simpa using hcd), hruns]
      cases hsplit.symm.trans h
      have hchip : Scan.chip ⟨acc, true, c, out⟩ d = ⟨delta d, true, d, out ++ [acc]⟩ := by simp [Scan.chip, hcd]
      rw [hchip, ih _ _ hruns, runEntry_one]
      simp

/-- Settles O51: after the first chip the scan is inside the first run (`foldl_chip_finish`). -/
theorem rleIsTheListOfRuns : Obligations.RleIsTheListOfRuns := by
  intro chips
  cases chips with
  | nil => rfl
  | cons c cs =>
    obtain ⟨k, rs, hruns⟩ := chipRuns_head c cs
    have hstart : Scan.start.chip c = ⟨delta c, true, c, []⟩ := by simp [Scan.chip, Scan.start]
    rw [rle, scanChips, List.foldl_cons, hstart, foldl_chip_finish _ _ hruns, rleByRuns_of_ne_nil (by simp), hruns]
    simp

/-- `rle` of a list that is not empty, by its runs (R140). -/
theorem rle_of_ne_nil {chips : List Bool} (h : chips ≠ []) :
    rle chips = (chipRuns chips).map runEntry ++ trailerEntry chips := by
  rw [rleIsTheListOfRuns chips, rleByRuns_of_ne_nil h]

theorem rle_nil : rle [] = [0] := rfl

/-! ### The trailer is the entry of a low chip (R140, R148) -/

/-- A chip list with the low chip that the trailer stands for, where it ends high. -/
def withTrailer (chips : List Bool) : List Bool := chips ++ if chips.getLast? = some true then [false] else []

theorem withTrailer_of_high {chips : List Bool} (h : chips.getLast? = some true) :
    withTrailer chips = chips ++ [false] := by
  rw [withTrailer, if_pos h]

theorem withTrailer_of_not_high {chips : List Bool} (h : chips.getLast? ≠ some true) : withTrailer chips = chips := by
  rw [withTrailer, if_neg h, List.append_nil]

/-- The trailer's chip leaves the first chip as it is. -/
theorem withTrailer_cons (c : Bool) (cs : List Bool) : ∃ ds, withTrailer (c :: cs) = c :: ds := ⟨_, rfl⟩

/-- With the trailer's chip every list that is not empty ends low. -/
theorem withTrailer_ends_low {chips : List Bool} (h : chips ≠ []) : ∃ cs, withTrailer chips = cs ++ [false] := by
  by_cases hlast : chips.getLast? = some true
  · exact ⟨chips, withTrailer_of_high hlast⟩
  · obtain ⟨cs, c, rfl⟩ := List.eq_nil_or_concat' chips |>.resolve_left h
    rw [withTrailer_of_not_high hlast]
    cases c with
    | false => exact ⟨cs, rfl⟩
    | true => simp at hlast

/-- `rle` is the entries of the runs, the trailer's chip counted as one. -/
theorem rle_eq_map_runEntry {chips : List Bool} (h : chips ≠ []) :
    rle chips = (chipRuns (withTrailer chips)).map runEntry := by
  rw [rle_of_ne_nil h]
  by_cases hlast : chips.getLast? = some true
  · rw [withTrailer_of_high hlast, chipRuns_append_low hlast, List.map_append, trailerEntry, if_pos hlast]
    rfl
  · rw [withTrailer_of_not_high hlast, trailerEntry, if_neg hlast, List.append_nil]

/-! ### The signs (R151, R154) -/

/-- The sign of a chip's entries. -/
def HasSign (c : Bool) (v : Int) : Prop := if c then 0 < v else v < 0

theorem hasSign_runEntry : ∀ {r : Bool × Nat}, 1 ≤ r.2 → HasSign r.1 (runEntry r)
  | (true, _), h => runEntry_true_pos h
  | (false, _), h => runEntry_false_neg h

theorem HasSign.ne_zero {c : Bool} {v : Int} (h : HasSign c v) : v ≠ 0 := by
  cases c
  · exact ne_of_lt h
  · exact (ne_of_lt h).symm

theorem HasSign.opposite {c d : Bool} {v w : Int} (hv : HasSign c v) (hw : HasSign d w) (h : c ≠ d) :
    (0 < v ∧ w < 0) ∨ (v < 0 ∧ 0 < w) := by
  cases c <;> cases d
  · exact absurd rfl h
  · exact .inr ⟨hv, hw⟩
  · exact .inl ⟨hv, hw⟩
  · exact absurd rfl h

/-- The entries of the runs of a chip list alternate in sign. -/
theorem runEntry_isChain (cs : List Bool) :
    ((chipRuns cs).map runEntry).IsChain fun a b : Int => (0 < a ∧ b < 0) ∨ (a < 0 ∧ 0 < b) := by
  rw [List.isChain_map]
  refine (chipRuns_isChain cs).imp_of_mem_imp fun r r' hr hr' hne => ?_
  exact (hasSign_runEntry (chipRuns_pos r hr)).opposite (hasSign_runEntry (chipRuns_pos r' hr')) hne

/-- Settles O52: the entries are those of the runs of `withTrailer`, each of the sign of its run's chip. -/
theorem pulseSignsAlternate : Obligations.PulseSignsAlternate := by
  refine ⟨rle_nil, fun c cs => ?_⟩
  have hne : c :: cs ≠ [] := by simp
  have hsign : ∀ r ∈ chipRuns (withTrailer (c :: cs)), HasSign r.1 (runEntry r) :=
    fun r hr => hasSign_runEntry (chipRuns_pos r hr)
  rw [rle_eq_map_runEntry hne]
  refine ⟨fun v hv => ?_, runEntry_isChain _, ?_, ?_⟩
  · obtain ⟨r, hr, rfl⟩ := List.mem_map.mp hv
    exact (hsign r hr).ne_zero
  · obtain ⟨ds, hds⟩ := withTrailer_cons c cs
    obtain ⟨k, rs, hruns⟩ := chipRuns_head c ds
    rw [hds, hruns] at hsign ⊢
    exact ⟨_, _, rfl, hsign (c, k) List.mem_cons_self⟩
  · obtain ⟨ds, hds⟩ := withTrailer_ends_low hne
    obtain ⟨rs, k, hruns⟩ := chipRuns_concat ds false
    rw [hds, hruns] at hsign ⊢
    rw [List.map_append]
    exact ⟨_, _, rfl, hsign (false, k) (by simp)⟩

/-! ### The duration (R152) -/

/-- The entries of runs that `p` selects, where it selects those of chip `c`, are the duration of the chips `c`. -/
theorem sum_filter_runEntry {c : Bool} {p : Int → Bool} (hp : ∀ k, 1 ≤ k → p (runEntry (c, k)) = true)
    (hother : ∀ k, p (runEntry (!c, k)) = false) (rs : List (Bool × Nat)) :
    ((rs.map runEntry).filter p).sum = runEntry (c, (expandRuns rs).count c) := by
  induction rs with
  | nil => exact (runEntry_zero c).symm
  | cons r rs ih =>
    obtain ⟨d, k⟩ := r
    rw [List.map_cons, expandRuns_cons, List.count_append, runEntry_add, ← ih]
    by_cases hd : d = c
    · subst hd
      rw [List.count_replicate_self]
      obtain rfl | hk := Nat.eq_zero_or_pos k
      · rw [runEntry_zero, zero_add, List.filter_cons]
        split <;> simp
      · rw [List.filter_cons_of_pos (hp k hk), List.sum_cons]
    · obtain rfl : d = !c := Bool.eq_not_of_ne hd
      have hno : (List.replicate k (!c)).count c = 0 := by simp [List.count_replicate]
      rw [List.filter_cons_of_neg (by simp [hother k]), hno, runEntry_zero, zero_add]

/-- The positive entries of runs are the durations of their high chips. -/
theorem sum_pos_runEntry (rs : List (Bool × Nat)) :
    ((rs.map runEntry).filter (0 < ·)).sum = (expandRuns rs).count true * 500 :=
  sum_filter_runEntry (c := true) (fun _ hk => decide_eq_true (runEntry_true_pos hk))
    (fun k => decide_eq_false (not_lt.mpr (runEntry_false_nonpos k))) rs

/-- The negative entries of runs are the durations of their low chips. -/
theorem sum_neg_runEntry (rs : List (Bool × Nat)) :
    ((rs.map runEntry).filter (· < 0)).sum = -((expandRuns rs).count false * 500) :=
  sum_filter_runEntry (c := false) (fun _ hk => decide_eq_true (runEntry_false_neg hk))
    (fun k => decide_eq_false (not_lt.mpr (runEntry_true_nonneg k))) rs

/-- Settles O53: the chips of the entries are those of `withTrailer`, one low chip more where the list ends high. -/
theorem pulsesConserveDuration : Obligations.PulsesConserveDuration := by
  intro chips
  cases chips with
  | nil => exact ⟨rfl, rfl⟩
  | cons c cs =>
    rw [rle_eq_map_runEntry (by simp), sum_pos_runEntry, sum_neg_runEntry, expandRuns_chipRuns]
    by_cases hlast : (c :: cs).getLast? = some true
    · rw [withTrailer_of_high hlast, if_pos hlast, List.count_append, List.count_append]
      constructor
      · simp
      · simp
        ring
    · rw [withTrailer_of_not_high hlast, if_neg hlast, add_zero]
      exact ⟨rfl, rfl⟩

/-! ### The number of entries (R153, R157) -/

theorem trailerEntry_length (chips : List Bool) :
    (trailerEntry chips).length = if chips.getLast? = some true then 1 else 0 := by
  unfold trailerEntry
  split <;> rfl

/-- Settles O54. -/
theorem pulseListIsMinimal : Obligations.PulseListIsMinimal := by
  refine ⟨rle_nil, fun c cs => ?_⟩
  have hlength : (rle (c :: cs)).length =
      (chipRuns (c :: cs)).length + if (c :: cs).getLast? = some true then 1 else 0 := by
    rw [rle_of_ne_nil (by simp), List.length_append, List.length_map, trailerEntry_length]
  have hle := chipRuns_length_le (c :: cs)
  have hpos : 1 ≤ (chipRuns (c :: cs)).length := by
    obtain ⟨k, rs, hruns⟩ := chipRuns_head c cs
    simp [hruns]
  refine ⟨hlength, ?_, ?_⟩ <;> rw [hlength] <;> split <;> omega

/-! ### The closed form (R156) -/

/-- A symbol's entries: its high chip, then its low chips (R102 to R104). -/
def symbolEntries (k : Sym) : List Int := (symbolRuns k).map runEntry

theorem symbolEntries_bitSym (b : Bool) :
    symbolEntries (bitSym b) = if b then [500, -2000] else [500, -1000] := by cases b <;> rfl

/-- Symbols end low, so that there is no trailer. -/
theorem rle_chipsOf_eq_map_runEntry {ks : List Sym} (h : ks ≠ []) :
    rle (chipsOf ks) = (chipRuns (chipsOf ks)).map runEntry := by
  have hlast : (chipsOf ks).getLast? ≠ some true := by rw [chipsOf_getLast? h]; simp
  have hne : chipsOf ks ≠ [] := by
    intro hnil
    have hhead := chipsOf_head? h
    rw [hnil] at hhead
    cases hhead
  rw [rle_eq_map_runEntry hne, withTrailer_of_not_high hlast]

theorem rle_chipsOf {ks : List Sym} (h : ks ≠ []) : rle (chipsOf ks) = ks.flatMap symbolEntries := by
  rw [rle_chipsOf_eq_map_runEntry h, chipRuns_chipsOf, List.map_flatMap]
  rfl

theorem rle_chipsOf_length {ks : List Sym} (h : ks ≠ []) : (rle (chipsOf ks)).length = 2 * ks.length := by
  rw [rle_chipsOf_eq_map_runEntry h, List.length_map, chipRuns_chipsOf, symbolRuns_length]

theorem natAbs_runEntry (r : Bool × Nat) : (runEntry r).natAbs = 500 * r.2 := by
  obtain ⟨c, k⟩ := r
  cases c
  · rw [runEntry_false]
    omega
  · rw [runEntry_true]
    omega

/-- The entries of runs have the absolute values of 500 per chip. -/
theorem sum_natAbs_runEntry (rs : List (Bool × Nat)) :
    ((rs.map runEntry).map Int.natAbs).sum = 500 * (expandRuns rs).length := by
  induction rs with
  | nil => rfl
  | cons r rs ih =>
    obtain ⟨c, k⟩ := r
    rw [List.map_cons, List.map_cons, List.sum_cons, ih, natAbs_runEntry, expandRuns_cons, List.length_append,
      List.length_replicate]
    ring

theorem symbols_ne_nil (w : NfWord) : symbols w ≠ [] := by simp [symbols]

/-- The PulseList of a frame: the sync symbol's entries, then those of its bits. -/
theorem rle_frame (w : NfWord) : rle (frame w) =
    [500, -4000] ++ (frameBits w).flatMap fun b => if b then [500, -2000] else [500, -1000] := by
  rw [frame, rle_chipsOf (symbols_ne_nil w), symbols, List.flatMap_cons, List.flatMap_map]
  simp only [symbolEntries_bitSym]
  rfl

/-- The PulseList of a ChipSequence is that of its frame, `REPEAT` times: each frame ends low and begins high. -/
theorem rle_chipseq (w : NfWord) : rle (chipseq w) = (List.replicate 12 (rle (frame w))).flatten := by
  rw [chipseq_eq_chipsOf, rle_chipsOf (seqSymbols_ne_nil w), frame, rle_chipsOf (symbols_ne_nil w), seqSymbols,
    ← List.flatMap_id (L := List.replicate Config.repeatCount (symbols w)), List.flatMap_assoc, List.flatMap_replicate]
  rfl

/-- Settles O57: every symbol has its two entries (`rle_chipsOf`), and the entries weigh 500 per chip
(`sum_natAbs_runEntry`). -/
theorem pulseListClosedForm : Obligations.PulseListClosedForm := by
  intro w
  refine ⟨rle_frame w, rle_chipseq w, ?_, ?_, ?_⟩
  · rw [frame, rle_chipsOf_length (symbols_ne_nil w), symbols_length]
  · rw [chipseq_eq_chipsOf, rle_chipsOf_length (seqSymbols_ne_nil w), seqSymbols_length]
  · rw [chipseq_eq_chipsOf, rle_chipsOf_eq_map_runEntry (seqSymbols_ne_nil w), sum_natAbs_runEntry,
      expandRuns_chipRuns, ← chipseq_eq_chipsOf, chipseq_length, frame_length]
    ring

end Sys2Proof.Machine
end

section
/-! The family of TOP and the host: the wires of the fork, its transfer, the link where that transfer is not enabled, and
the operations of both units that are the same step (R181, R182). -/

namespace Sys2Proof.Machine

/-! ### The port and the wires (R181, R182) -/

/-- Settles O16. -/
theorem offerDrivesThePort : Obligations.OfferDrivesThePort := fun _ _ => rfl

/-- In TOP the fork shows PE the token SE offers while TAP accepts, and nothing else (R181). -/
theorem State.ciOffer_eq_of_top {s : State} (hw : s.wiring = .top) :
    s.ciOffer = if s.ports.tapReady then s.coOffer else none := by
  simp [State.ciOffer, hw]

/-- Settles O34: the two wires towards PE follow from the token it sees, the others are R181's formulas in TOP. -/
theorem forkWires : Obligations.ForkWires := by
  intro s hw
  have hci := State.ciOffer_eq_of_top hw
  refine ⟨?_, ?_, by simp [State.tapValid, hw], rfl, by simp [State.coReady, hw]⟩ <;>
    rw [State.ciValid, hci] <;> cases s.ports.tapReady <;> simp [State.coValid]

/-! ### The fork's transfer (R181) -/

/-- In TOP PE sees a token exactly where SE offers it and TAP accepts (R181). -/
theorem State.ciOffer_eq_some_iff {s : State} {t : ChipTok} (hw : s.wiring = .top) :
    s.ciOffer = some t ↔ s.coOffer = some t ∧ s.ports.tapReady = true := by
  rw [State.ciOffer_eq_of_top hw]
  cases s.ports.tapReady <;> simp

/-- SE, PE and TAP take part in a transfer of TOP's chip link (R181). -/
def State.LinkMoves (s : State) : Prop := s.coValid = true ∧ s.ciReady = true ∧ s.ports.tapReady = true

theorem State.coTransfer_of_stalled {s : State} (hw : s.wiring = .top) (hno : ¬s.LinkMoves) : s.coTransfer = s := by
  cases ho : s.coOffer with
  | none => exact State.coTransfer_of_no_offer ho
  | some t =>
    refine State.coTransfer_of_not_ready ?_
    rw [← Bool.not_eq_true]
    intro hr
    obtain ⟨hci, htap⟩ : s.ciReady = true ∧ s.ports.tapReady = true := by simpa [State.coReady, hw] using hr
    exact hno ⟨State.coValid_of_offer ho, hci, htap⟩

theorem exec_fork_of_not_top {s : State} (hw : s.wiring ≠ .top) : exec .fork s = .next s := if_neg fun h => hw h.1

/-- In TOP the row is the transfer of the token SE offers, whether that is enabled or not. -/
theorem exec_fork_of_top {s : State} (hw : s.wiring = .top) : exec .fork s = .next s.coTransfer := by
  by_cases hmoves : s.LinkMoves
  · exact if_pos ⟨hw, hmoves⟩
  · rw [State.coTransfer_of_stalled hw hmoves]
    exact if_neg fun h => hmoves h.2

/-- Settles O35: the row is the transfer to PE (`exec_fork_of_top`), which some operation takes
(`State.take_of_ciReady`). -/
theorem forkMovesOneTokenToBoth : Obligations.ForkMovesOneTokenToBoth := by
  intro s t hw ho htap hr
  have hci : s.ciOffer = some t := (State.ciOffer_eq_some_iff hw).mpr ⟨ho, htap⟩
  obtain ⟨p, out, htake⟩ := State.take_of_ciReady hci hr
  refine ⟨hci, State.coTok_of_offer ho, p, out, htake, ?_⟩
  rw [exec_fork_of_top hw, State.coTransfer_of_top hw, State.ciTransfer_of_ready hci hr htake, State.ciCommit_moved]

/-! ### The operation PE's selector stands for is the transfer to PE (R77, R150, R181) -/

/-- Where PE accepts the token it sees, the selected row is that token's transfer (R142 to R147). -/
theorem State.exec_of_selects_ready {s : State} {t : ChipTok} {i : Instr} (ho : s.ciOffer = some t)
    (hr : s.ciReady = true) (hi : s.selects i) : exec i s = .next s.ciTransfer := by
  obtain ⟨p, out, htake⟩ := State.take_of_ciReady ho hr
  have hsink := State.ciReady_of_take ho htake
  rw [State.ciTransfer_of_ready ho hr htake]
  rw [hr] at hsink
  obtain ⟨hs, ⟨c, rfl, hv, rfl, rfl⟩ | ⟨c, rfl, hv, hp, hfits, rfl, rfl⟩ | ⟨c, rfl, hv, hp, rfl, rfl⟩ |
    ⟨x, rfl, hv, rfl, rfl⟩ | ⟨x, rfl, hv, hp, rfl, rfl⟩ | ⟨x, rfl, hv, hp, rfl, rfl⟩⟩ := PE.take_cases htake
  · -- FIRST
    rw [State.selects_unique hi (State.selects_first ho hs hv)]
    exact if_pos ⟨ho, hs, hv⟩
  · -- SAME
    rw [State.selects_unique hi (State.selects_same ho hs hv hp hfits), exec_same, if_pos ⟨ho, hs, hv, hp⟩,
      if_pos hfits]
  · -- FLIP
    rw [State.selects_unique hi (State.selects_flip ho hs hv hp), exec_flip, if_pos ⟨ho, hs, hv, hp, hsink.symm⟩]
  · -- FINISH_EMPTY
    rw [State.selects_unique hi (State.selects_finishEmpty ho hs hv), exec_finishEmpty_of_fin ho,
      if_pos ⟨hs, hv, hsink.symm⟩]
  · -- FINISH_LOW
    rw [State.selects_unique hi (State.selects_finishLow ho hs hv hp), exec_finishLow_of_fin ho,
      if_pos ⟨hs, hv, hp, hsink.symm⟩]
  · -- FINISH_HIGH
    rw [State.selects_unique hi (State.selects_finishHigh ho hs hv hp), exec_finishHigh_of_fin ho,
      if_pos ⟨hs, hv, hp, hsink.symm⟩]

/-- Settles O37: each of the rows is the transfer of the token SE offers. -/
theorem forkIsTheStepOfBothUnits : Obligations.ForkIsTheStepOfBothUnits := by
  intro s hw hvalid hr htap
  obtain ⟨t, ho⟩ := Option.isSome_iff_exists.mp hvalid
  have hci : s.ciOffer = some t := (State.ciOffer_eq_some_iff hw).mpr ⟨ho, htap⟩
  have hsel := State.selects_of_offer hci
  rw [exec_fork_of_top hw]
  refine ⟨exec_seEmit_of_run, exec_seEndtok_of_fin, _, hsel, ?_⟩
  rw [State.exec_of_selects_ready hci hr hsel, State.coTransfer_of_top hw]

/-! ### The stalled link (R105, R110, R181) -/

/-- Where PE does not accept a token, the selected row sends the trailer, takes the fault, or waits (R148 to R150). -/
theorem State.exec_of_selects_stalled {s : State} {i : Instr} (hr : s.ciReady = false) (hi : s.selects i) :
    exec i s = .next s ∨ exec i s = .next s.sendTrailer ∨ exec i s = .next s.raiseAccOverflow := by
  cases hs : s.pe.st with
  | fault => exact .inl (State.exec_of_selects_held (.inl hs) hi)
  | reserved => exact .inl (State.exec_of_selects_held (.inr hs) hi)
  | trail =>
    obtain ⟨a, b, htrail⟩ := State.selects_trail hs
    rw [State.selects_unique hi htrail, exec_peTrail]
    exact .inr (.inl rfl)
  | scan =>
    cases ho : s.ciOffer with
    | none => exact absurd hi (State.not_selects_of_no_offer hs ho)
    | some t =>
      cases hpending : s.overflowPending with
      | true =>
        obtain ⟨c, hc, -, hv, hp, hout⟩ := s.overflowPending_iff.mp hpending
        have hfits := (accFits_eq_false_iff _).mpr hout
        have hovf : s.pe.overflowPending (.chip c) = true := by
          rw [PE.overflowPending_of_same hs hv hp, hfits, Bool.not_false]
        rw [State.selects_unique hi (State.selects_ovf hc hs hv hp hfits), exec_ovf, if_pos ⟨hc, hp, hovf⟩]
        exact .inr (.inr rfl)
      | false =>
        have hrst := (State.ciOffer_cases ho).1
        obtain ⟨hneeds, hpo⟩ : s.needsPo = true ∧ s.ports.poReady = false := by
          simpa [State.ciReady, hrst, hs, hpending] using hr
        exact .inl (State.exec_of_selects_not_ready hneeds hpo hi)

/-- ChipLog and SE are in `t` as they are in `s`. -/
structure LinkStill (s t : State) : Prop where
  chipLog : t.chipLog = s.chipLog
  se : t.se = s.se

theorem LinkStill.refl (s : State) : LinkStill s s := ⟨rfl, rfl⟩

theorem sendTrailer_linkStill (s : State) : LinkStill s s.sendTrailer := by
  unfold State.sendTrailer
  split <;> exact ⟨rfl, rfl⟩

/-- LOAD moves no chip token (R101). -/
theorem State.nfTransfer_chipLog (s : State) : s.nfTransfer.chipLog = s.chipLog := by
  unfold State.nfTransfer
  split <;> rfl

section Stalled
variable {s : State} (hw : s.wiring = .top) (hno : ¬s.LinkMoves)
include hw hno

theorem State.moveToken_of_stalled (t : ChipTok) : s.moveToken t = s := by
  rw [State.moveToken_of_se (by simp [hw]), State.coTransfer_of_stalled hw hno, ite_self]

theorem exec_seEmit_of_stalled : exec .seEmit s = .next s := by
  by_cases hst : s.se.st = .run
  · rw [exec_seEmit_of_run hst, State.coTransfer_of_stalled hw hno]
  · exact exec_seEmit_of_not_run hst

theorem exec_seEndtok_of_stalled : exec .seEndtok s = .next s := by
  by_cases hst : s.se.st = .fin
  · rw [exec_seEndtok_of_fin hst, State.coTransfer_of_stalled hw hno]
  · exact exec_seEndtok_of_not_fin hst

theorem exec_tokInstr_of_stalled (t : ChipTok) : exec (tokInstr t) s = .next s := by
  rw [exec_tokInstr, State.moveToken_of_stalled hw hno]

theorem exec_symInstr_of_stalled (k : Sym) : exec (symInstr k) s = .next s := by
  rw [exec_symInstr, State.emitSymbol_of_fixed k (State.coTransfer_of_stalled hw hno)]

theorem exec_fork_of_stalled : exec .fork s = .next s := by
  rw [exec_fork_of_top hw, State.coTransfer_of_stalled hw hno]

/-- A scanning PE with a selector sees a token, so that it is PE that does not accept. -/
theorem State.ciReady_of_selects_stalled {i : Instr} (hi : s.selects i) : s.ciReady = false := by
  by_cases hs : s.pe.st = .scan
  · rw [← Bool.not_eq_true]
    intro hr
    cases ho : s.ciOffer with
    | none => exact State.not_selects_of_no_offer hs ho hi
    | some t =>
      obtain ⟨hco, htap⟩ := (State.ciOffer_eq_some_iff hw).mp ho
      exact hno ⟨State.coValid_of_offer hco, hr, htap⟩
  · exact State.ciReady_of_not_scan hs

/-- No row of PE moves anything on the stalled link: it changes something only as the selected row. -/
theorem linkStill_of_peRow {i : Instr} {t : State} (hrow : ∃ w o, encode i = .psel w o) (h : exec i s = .next t) :
    LinkStill s t := by
  by_cases hts : t = s
  · exact hts ▸ .refl s
  · obtain ⟨j, hj, hjt⟩ := onePeOperationPerSelector i s t hrow h hts
    have hr := State.ciReady_of_selects_stalled hw hno hj
    obtain hstay | htrail | hovf := State.exec_of_selects_stalled hr hj
    · cases hstay.symm.trans hjt
      exact .refl s
    · cases htrail.symm.trans hjt
      exact sendTrailer_linkStill s
    · cases hovf.symm.trans hjt
      exact ⟨rfl, rfl⟩

theorem linkStill_of_pulse {last : Bool} {data : BitVec 32} {t : State} (h : exec (.pulse last data) s = .next t) :
    LinkStill s t := by
  have hci : s.ciTransfer = s := by rw [← State.coTransfer_of_top hw, State.coTransfer_of_stalled hw hno]
  simp only [exec, execPulse, hci] at h
  split at h
  · cases h
    split
    · exact sendTrailer_linkStill s
    · exact .refl s
  · cases h
    exact .refl s

/-- On the stalled link no instruction but RESET and the two that LOAD is part of moves a chip token or changes SE. -/
theorem linkStill_of_exec {i : Instr} {t : State} (hreset : i ≠ .reset) (hload : i ≠ .seLoad) (hnfw : ∀ w, i ≠ .nfw w)
    (h : exec i s = .next t) : LinkStill s t := by
  have hstay (hfixed : exec i s = .next s) : LinkStill s t := by
    cases hfixed.symm.trans h
    exact .refl s
  cases i with
  | reset => exact absurd rfl hreset
  | seLoad => exact absurd rfl hload
  | nfw w => exact absurd rfl (hnfw w)
  | offer w => cases h; exact ⟨rfl, rfl⟩
  | sync => exact hstay (exec_symInstr_of_stalled hw hno .sync)
  | bit0 => exact hstay (exec_symInstr_of_stalled hw hno .bit0)
  | bit1 => exact hstay (exec_symInstr_of_stalled hw hno .bit1)
  | chip0 => exact hstay (exec_tokInstr_of_stalled hw hno (.chip false))
  | chip1 => exact hstay (exec_tokInstr_of_stalled hw hno (.chip true))
  | endTok x => exact hstay (exec_tokInstr_of_stalled hw hno (.fin x))
  | seEmit => exact hstay (exec_seEmit_of_stalled hw hno)
  | seEndtok => exact hstay (exec_seEndtok_of_stalled hw hno)
  | fork => exact hstay (exec_fork_of_stalled hw hno)
  | seReserved => exact hstay rfl
  | pulse last data => exact linkStill_of_pulse hw hno h
  | peFirst | peSame0 | peSame1 | peFlipUp | peFlipDown | peFinishEmpty | peFinishLow | peFinishHigh | peTrail | peOvf0
  | peOvf1 | peHoldFault | peReserved => exact linkStill_of_peRow hw hno ⟨_, _, rfl⟩ h

theorem chipLog_of_exec_stalled {i : Instr} {t : State} (hreset : i ≠ .reset) (h : exec i s = .next t) :
    t.chipLog = s.chipLog := by
  by_cases hload : i = .seLoad
  · subst hload
    cases h
    exact s.nfTransfer_chipLog
  · by_cases hnfw : ∃ w, i = .nfw w
    · obtain ⟨w, rfl⟩ := hnfw
      cases h
      exact (s.driveNf w).nfTransfer_chipLog
    · exact (linkStill_of_exec hw hno hreset hload (not_exists.mp hnfw) h).chipLog

end Stalled

/-- Settles O36: the rows that move SE's token find its transfer disabled (`State.coTransfer_of_stalled`), and the others
do not touch the link (`linkStill_of_exec`). -/
theorem stalledForkChangesNothing : Obligations.StalledForkChangesNothing := by
  refine ⟨fun s hw => exec_fork_of_not_top hw, fun s hw hno => ?_⟩
  exact ⟨exec_fork_of_stalled hw hno, exec_seEmit_of_stalled hw hno, exec_seEndtok_of_stalled hw hno,
    exec_tokInstr_of_stalled hw hno (.chip false), exec_tokInstr_of_stalled hw hno (.chip true),
    fun x => exec_tokInstr_of_stalled hw hno (.fin x), exec_symInstr_of_stalled hw hno,
    fun _ _ hreset h => ⟨chipLog_of_exec_stalled hw hno hreset h,
      fun hload hnfw => (linkStill_of_exec hw hno hreset hload hnfw h).se⟩⟩

end Sys2Proof.Machine
end

section
/-! The family of TOP and the host, continued: the end of a run (R185), and a whole run from the word on `nf` to the last
pulse (R187). -/

namespace Sys2Proof.Machine

/-! ### The end of a run (R106, R146, R185) -/

/-- With no run in progress and no fault PE at the end of a run is PE after reset (R185). -/
theorem PE.finishLow_eq_atReset {p : PE} (hst : p.st = .scan) (hfault : p.fault = false) :
    p.finishLow = PE.atReset := by
  simp [PE.finishLow, PE.clearPolarity, PE.atReset, hst, hfault]

/-- TAP and SINK accept, and `rst` is 0. -/
structure State.BothAccept (s : State) : Prop where
  rst : s.ports.rst = false
  tap : s.ports.tapReady = true
  po : s.ports.poReady = true

/-- `s` after END has moved in TOP: PE is as after reset, and SE is idle with its word kept. -/
def State.endMovedInTop (s : State) : State :=
  { s with
    chipLog := s.chipLog ++ [.tok (.fin false)]
    pulseLog := s.pulseLog ++ [.pulse ⟨s.pe.acc, true⟩]
    pe := PE.atReset
    se := { s.se with st := .idle } }

/-- In TOP, with both consumers accepting, ENDTOK. -/
theorem TopInv.coTransfer_of_fin {s : State} (h : TopInv s) (hacc : s.BothAccept) (hfin : s.se.st = .fin) :
    s.coTransfer = s.endMovedInTop := by
  obtain ⟨hrep, hsym, hpos⟩ := h.inv.se.quiet (by simp [hfin])
  have hoffer := State.coOffer_of_fin hacc.rst hfin (State.seqInRange_of_rest hrep hsym hpos)
  have hfault : s.pe.fault = false := h.inv.pe.fault_eq_false (by simp [h.scan])
  rw [State.coTransfer_of_take h.top hacc.tap hoffer (h.take_fin hfin false) hacc.po, State.ciCommit_eq,
    State.seAfter_of_fin hfin, PE.finishLow_eq_atReset h.scan hfault]
  simp [State.endMovedInTop, h.top]

theorem TopInv.endMovedInTop_runEnded {s : State} (h : TopInv s) (hfin : s.se.st = .fin) : RunEnded s.endMovedInTop := by
  obtain ⟨hrep, hsym, hpos⟩ := h.inv.se.quiet (by simp [hfin])
  exact ⟨rfl, hrep, hsym, hpos, rfl, rfl, rfl, rfl⟩

/-- Settles O43, by the transfer of END (`TopInv.coTransfer_of_fin`). -/
theorem endOfARunInTop : Obligations.EndOfARunInTop := by
  intro s h hfin hrst htap hpo
  refine ⟨s.endMovedInTop, ?_, h.endMovedInTop_runEnded hfin, rfl, rfl, rfl⟩
  rw [exec_seEndtok_of_fin hfin, h.coTransfer_of_fin ⟨hrst, htap, hpo⟩ hfin]

/-! ### The chips before a sequencer position are fewer than the sequence's (R82, R109) -/

theorem chipsOf_length_le_of_prefix {ks ks' : List Sym} (h : ks <+: ks') :
    (chipsOf ks).length ≤ (chipsOf ks').length := by
  obtain ⟨rest, rfl⟩ := h
  rw [chipsOf_append, List.length_append]
  omega

/-- The symbols up to `sym`, that one included, are no longer than the frame. -/
theorem chipsOf_take_add_plen_le (w : NfWord) {sym : Nat} (hsym : sym ≤ 36) :
    (chipsOf ((symbols w).take sym)).length + plen (symKind (BitVec.ofNat 6 sym) w) ≤ (frame w).length := by
  have hle := chipsOf_length_le_of_prefix (List.take_prefix (sym + 1) (symbols w))
  have hlast (k : Sym) : (chipsOf [k]).length = plen k := by simp [chipsOf, plen]
  rw [List.take_add_one, symbols_getElem? w hsym, Option.toList_some, chipsOf_append, List.length_append, hlast] at hle
  exact hle

theorem chipsBefore_length_lt (w : NfWord) {rep sym pos : Nat} (hrep : rep < 12) (hsym : sym ≤ 36)
    (hpos : pos < plen (symKind (BitVec.ofNat 6 sym) w)) :
    (chipsBefore w rep sym pos).length < (chipseq w).length := by
  have hframe := chipsOf_take_add_plen_le w hsym
  have hreps : rep * (frame w).length ≤ 11 * (frame w).length := Nat.mul_le_mul_right _ (by omega)
  rw [chipseq_length, chipsBefore, List.length_append, List.length_append, List.length_flatten, List.map_replicate,
    List.sum_replicate, smul_eq_mul, List.length_take]
  omega

/-- While a sequence is in progress SE has chips of it still to send. -/
theorem SeInv.chipsSent_length_lt {s : State} (h : SeInv s) (hrun : s.se.st = .run) :
    s.se.chipsSent.length < (chipseq s.se.nf).length := by
  obtain ⟨hrep, hsym, hpos⟩ := s.seqInRange_iff.mp (h.range hrun)
  rw [State.kind_of_held (h.held (by simp [hrun]))] at hpos
  rw [SE.chipsSent_of_run hrun]
  refine chipsBefore_length_lt s.se.nf hrep hsym ?_
  rwa [BitVec.ofNat_toNat, BitVec.setWidth_eq]

/-! ### The entries of a PulseList that is not complete yet (R60, R140) -/

/-- The entries that PE has emitted of the list in progress, none of them the last. -/
def openPulses (vs : List Int) : List PulseEvent := vs.map fun v => .pulse ⟨accOf v, false⟩

theorem openPulses_append (vs vs' : List Int) : openPulses (vs ++ vs') = openPulses vs ++ openPulses vs' :=
  List.map_append

theorem accOf_of_toInt (x : AccWord) : accOf x.toInt = x := BitVec.ofInt_toInt

theorem openPulses_singleton (x : AccWord) : openPulses [x.toInt] = [.pulse ⟨x, false⟩] := by
  rw [openPulses, List.map_singleton, accOf_of_toInt]

/-- The entries of a complete list are open but for the last. -/
theorem pulseEvents_concat (vs : List Int) (v : Int) :
    pulseEvents (vs ++ [v]) = openPulses vs ++ [.pulse ⟨accOf v, true⟩] := by
  induction vs with
  | nil => rfl
  | cons x vs ih =>
    cases vs with
    | nil => rfl
    | cons y vs => exact congrArg (PulseEvent.pulse ⟨accOf x, false⟩ :: ·) ih

/-- On a chip PE emits no last entry (R142 to R144). -/
theorem PE.take_chip_out {p q : PE} {c : Bool} {out : Option Pulse} (h : p.take (.chip c) = some (q, out)) :
    out = none ∨ out = some ⟨p.acc, false⟩ := by
  obtain ⟨-, ⟨d, -, -, -, rfl⟩ | ⟨d, -, -, -, -, -, rfl⟩ | ⟨d, -, -, -, -, rfl⟩ | ⟨x, hx, -⟩ | ⟨x, hx, -⟩ |
    ⟨x, hx, -⟩⟩ := PE.take_cases h
  · exact .inl rfl
  · exact .inl rfl
  · exact .inr rfl
  all_goals cases hx

/-- The pulse that a chip's operation emits makes the open list longer, and completes none. -/
theorem emit_of_take_chip {p q : PE} {c : Bool} {out : Option Pulse} (h : p.take (.chip c) = some (q, out))
    (vs : List Int) :
    ∃ vs', (⟨[], [], vs⟩ : Artifacts Int).emit out = ⟨[], [], vs'⟩ ∧
      openPulses vs' = openPulses vs ++ out.toList.map .pulse := by
  obtain rfl | rfl := PE.take_chip_out h
  · exact ⟨vs, rfl, (List.append_nil _).symm⟩
  · exact ⟨vs ++ [p.acc.toInt], rfl, by rw [openPulses_append, openPulses_singleton]; rfl⟩

/-! ### A run in progress (R187) -/

/-- In TOP, with both consumers accepting, the word `w` is being sent: since `s` the logs have grown by the chips SE has
sent and by the entries `vs` of the scan of these chips, the rest of which PE's registers hold. -/
structure Sending (s : State) (w : NfWord) (vs : List Int) (u : State) : Prop where
  inv : TopInv u
  accept : u.BothAccept
  busy : u.se.st ≠ .idle
  word : u.se.nf = w
  chips : u.chipLog = s.chipLog ++ u.se.chipsSent.map fun c => .tok (.chip c)
  scan : PulsesAgree ⟨[], [], vs⟩ ⟨[], [], u.se.chipsSent⟩ u.pe
  pulses : u.pulseLog = s.pulseLog ++ openPulses vs

/-- What a whole run of the word `w` makes of `s` (R185, R187). -/
structure RunDone (s : State) (w : NfWord) (t : State) : Prop where
  ended : RunEnded t
  word : t.se.nf = w
  chips : t.chipLog = s.chipLog ++ ((chipseq w).map (fun c => .tok (.chip c)) ++ [.tok (.fin false)])
  pulses : t.pulseLog = s.pulseLog ++ pulseEvents (rle (chipseq w))

theorem SE.advance_busy {se : SE} (hrun : se.st = .run) (k : Sym) : (se.advance k).st ≠ .idle := by
  obtain ⟨-, h⟩ | ⟨-, -, h⟩ | ⟨-, -, -, h⟩ | ⟨-, -, -, h⟩ := se.advance_cases k <;> simp [h, hrun]

section Run
variable {s u : State} {w : NfWord} {vs : List Int}

/-- Handing the word over begins the run, nothing of it sent yet (R101). -/
theorem sending_of_nfw (h : TopInv s) (hacc : s.BothAccept) (hidle : s.se.st = .idle) :
    ∃ u, exec (.nfw w) s = .next u ∧ Sending s w [] u ∧ u.se.chipsSent = [] := by
  obtain ⟨hrep, hsym, hpos⟩ := h.inv.se.quiet (by simp [hidle])
  have hnext := (nfwIsLatchedOrWaits s w hacc.rst).1 hidle (State.seqInRange_of_rest hrep hsym hpos)
  have hinv := exec_rel (R := fun _ u => TopInv u) (by simp) hnext h fun _ _ hu hm => hu.move hm
  refine ⟨_, hnext, ⟨hinv, ⟨hacc.rst, hacc.tap, hacc.po⟩, by simp, rfl, ?_, ?_, ?_⟩, rfl⟩
  · exact (List.append_nil _).symm
  · exact pulsesAgree_of_scan (by simp [h.scan]) .nil (h.inv.pe.scanned_of_no_run (h.idle hidle)).symm rfl
  · exact (List.append_nil _).symm

/-- One EMIT sends one chip more, and the scan of the chips sent takes one step more. -/
theorem Sending.emit (h : Sending s w vs u) (hrun : u.se.st = .run) :
    ∃ vs', Sending s w vs' u.coTransfer ∧ u.coTransfer.se.chipsSent.length = u.se.chipsSent.length + 1 := by
  obtain ⟨hinv, hacc, hbusy, hword, hchips, hscan, hpulses⟩ := h
  obtain ⟨hrep, hsym, hpos⟩ := u.seqInRange_iff.mp (hinv.inv.se.range hrun)
  have hkind := State.kind_of_held (hinv.inv.se.held hbusy)
  have hsent := SE.chipsSent_advance hkind.symm hrun hrep hsym hpos
  have htake := hinv.take_chip hrun
  obtain ⟨vs', hemit, hopen⟩ := emit_of_take_chip htake vs
  have hnext := hinv.coTransfer
  have hagree := hscan.take_chip hinv.inv.pe htake
  rw [hemit] at hagree
  rw [hinv.coTransfer_of_run hacc.rst hacc.tap hacc.po hrun] at hnext ⊢
  refine ⟨vs', ⟨hnext, ⟨hacc.rst, hacc.tap, hacc.po⟩, SE.advance_busy hrun _, ?_, ?_, ?_, ?_⟩, ?_⟩
  · exact (u.se.advance_frame _).1.trans hword
  · simp [State.chipMovedInTop, hsent, hchips]
  · simp only [State.chipMovedInTop, hsent]
    exact hagree
  · simp [State.chipMovedInTop, hopen, hpulses]
  · simp [State.chipMovedInTop, hsent]

/-- ENDTOK ends the run: all chips are sent, PE's last run is low, and it is the last entry of `rle` (R106, R146). -/
theorem Sending.endtok (h : Sending s w vs u) (hfin : u.se.st = .fin) : RunDone s w u.coTransfer := by
  obtain ⟨hinv, hacc, -, hword, hchips, hscan, hpulses⟩ := h
  have hall : u.se.chipsSent = chipseq w := by rw [SE.chipsSent_of_fin hfin, hword]
  rw [hall] at hchips hscan
  have hrle : rle (chipseq w) = vs ++ [u.pe.acc.toInt] := by
    obtain ⟨hscanned, -⟩ := hscan.scan (by simp [hinv.scan])
    rw [rle, hscanned]
    simp [Scan.finish, PE.scanned, (hinv.fin hfin).2]
  rw [hinv.coTransfer_of_fin hacc hfin]
  refine ⟨hinv.endMovedInTop_runEnded hfin, hword, ?_, ?_⟩
  · simp [State.endMovedInTop, hchips]
  · rw [hrle, pulseEvents_concat, accOf_of_toInt]
    simp [State.endMovedInTop, hpulses]

theorem forks_succ_of_top (n : Nat) (hw : u.wiring = .top) : forks (n + 1) u = forks n u.coTransfer := by
  rw [forks, exec_fork_of_top hw]

/-- A busy SE with the invariants sends a chip or END. -/
theorem SeInv.run_or_fin (h : SeInv u) (hbusy : u.se.st ≠ .idle) : u.se.st = .run ∨ u.se.st = .fin := by
  cases hst : u.se.st with
  | idle => exact absurd hst hbusy
  | run => exact .inl rfl
  | fin => exact .inr rfl
  | reserved => exact absurd hst h.legal

/-- The `n` chips still to come and END, one transfer each, complete the run. -/
theorem Sending.forks (n : Nat) (h : Sending s w vs u) (hn : u.se.chipsSent.length + n = (chipseq w).length) :
    ∃ t, forks (n + 1) u = .next t ∧ RunDone s w t := by
  induction n generalizing u vs with
  | zero =>
    have hfin : u.se.st = .fin := by
      refine (h.inv.inv.se.run_or_fin h.busy).resolve_left fun hrun => ?_
      have hlt := h.inv.inv.se.chipsSent_length_lt hrun
      rw [h.word] at hlt
      omega
    exact ⟨_, forks_succ_of_top 0 h.inv.top, h.endtok hfin⟩
  | succ n ih =>
    have hrun : u.se.st = .run := by
      refine (h.inv.inv.se.run_or_fin h.busy).resolve_right fun hfin => ?_
      rw [SE.chipsSent_of_fin hfin, h.word] at hn
      omega
    obtain ⟨vs', hnext, hlength⟩ := h.emit hrun
    rw [forks_succ_of_top _ h.inv.top]
    exact ih hnext (by omega)

end Run

/-- Settles O44: the word handed over begins the run (`sending_of_nfw`), and its chips and END complete it
(`Sending.forks`). -/
theorem runOfTop : Obligations.RunOfTop := by
  intro s w h hidle hrst htap hpo
  obtain ⟨s', hnfw, hsending, hnone⟩ := sending_of_nfw (w := w) h ⟨hrst, htap, hpo⟩ hidle
  obtain ⟨t, hforks, hdone⟩ := hsending.forks (chipseq w).length (by rw [hnone, List.length_nil, Nat.zero_add])
  exact ⟨s', t, hnfw, hforks, hdone.ended, hdone.word, hdone.chips, hdone.pulses⟩

end Sys2Proof.Machine
end

section
/-! The family of the exceptions: `rst` overrides every turn (R233, R250), and the fault, which nothing but RESET leaves
(R234, R235). -/

namespace Sys2Proof.Machine

/-! ### `rst` selects RESET for every agent (R183, R233 item 1) -/

/-- The turn's own `rst` is the wire its agent's selector is read under. -/
@[simp] theorem State.beginTurn_rst (s : State) (turn : Turn) (rest : List Turn) :
    (s.beginTurn turn rest).ports.rst = turn.rst := rfl

theorem State.fetch_of_rst {s : State} (hrst : s.ports.rst = true) (m : Mover) : s.fetch m = some (.rst 1#1) :=
  if_pos hrst

theorem decode_rst_one : decode (.rst 1#1) = .ok .reset := rfl

/-- Settles O3. -/
theorem resetOverridesEveryTurn : Obligations.ResetOverridesEveryTurn := by
  intro s turn rest hturns hrst
  have hfetch := State.fetch_of_rst ((s.beginTurn_rst turn rest).trans hrst) turn.mover
  rw [step_of_turns hturns, State.runTurn_of_decode hfetch decode_rst_one]

/-! ### PE in the fault (R150, R234, R235) -/

/-- PE and its streams are in `t` as they are in `s`. ChipLog is a stream of PE's only where PE is on the chip link, and
the composition stays, so that this can be said of one move after another. -/
structure PeStill (s t : State) : Prop where
  pe : t.pe = s.pe
  pulseLog : t.pulseLog = s.pulseLog
  wiring : t.wiring = s.wiring
  chipLog : s.wiring ≠ .seAlone → t.chipLog = s.chipLog

theorem PeStill.refl (s : State) : PeStill s s := ⟨rfl, rfl, rfl, fun _ => rfl⟩

theorem PeStill.trans {s t u : State} (h : PeStill s t) (h' : PeStill t u) : PeStill s u where
  pe := h'.pe.trans h.pe
  pulseLog := h'.pulseLog.trans h.pulseLog
  wiring := h'.wiring.trans h.wiring
  chipLog hw := (h'.chipLog (by rwa [h.wiring])).trans (h.chipLog hw)

/-- In `P_FAULT` the three moves of PE are not enabled: a transfer and the overflow want PE scanning, the trailer wants
`P_TRAIL`. Of the others only the transfer to the consumer of SE alone appends to a log named here. -/
theorem Move.peStill {s t : State} (hfault : s.pe.st = .fault) (h : Move s t) : PeStill s t := by
  have hscan : s.pe.st ≠ .scan := by simp [hfault]
  cases h with
  | driveNf | load | driveCi => exact ⟨rfl, rfl, rfl, fun _ => rfl⟩
  | toConsumer _ hw => exact ⟨rfl, rfl, rfl, fun hne => absurd hw hne⟩
  | toPe _ _ _ _ ht => exact absurd (PE.take_cases ht).1 hscan
  | trail hs => exact absurd (hs.symm.trans hfault) (by decide)
  | overflow _ _ hv => exact absurd (PE.scan_of_overflowPending hv) hscan

theorem exec_peStill {i : Instr} {s t : State} (hfault : s.pe.st = .fault) (hi : i ≠ .reset) (h : exec i s = .next t) :
    PeStill s t :=
  exec_rel hi h (.refl s) fun _ _ hstill hmove => hstill.trans (hmove.peStill (by rw [hstill.pe, hfault]))

/-- Settles O4: an instruction but RESET is a chain of moves, and in `P_FAULT` each keeps PE and its streams
(`Move.peStill`), so that the next one finds PE in `P_FAULT` too. -/
theorem onlyResetLeavesTheFault : Obligations.OnlyResetLeavesTheFault := by
  intro i s t hfault hi h
  obtain ⟨hpe, hpulse, -, hchip⟩ := exec_peStill hfault hi h
  exact ⟨hpe, hpulse, hchip⟩

end Sys2Proof.Machine
end

section
/-! The family of the reset: while `rst` is 1 no unit offers or accepts, and the units and the logs stand still but for
RESET (R233, R250). -/

namespace Sys2Proof.Machine

/-! ### The wires during reset (R250) -/

/-- PE sees no token while `rst` is 1 (R250). -/
theorem State.ciOffer_of_rst {s : State} (h : s.ports.rst = true) : s.ciOffer = none := by
  rw [Option.eq_none_iff_forall_ne_some]
  intro t ho
  exact absurd (h.symm.trans (State.ciOffer_cases ho).1) (by decide)

theorem State.coValid_of_rst {s : State} (h : s.ports.rst = true) : s.coValid = false :=
  State.coValid_of_no_offer (State.coOffer_of_rst h)

/-- TAP sees no token where SE offers none (R181). -/
theorem State.tapValid_of_rst {s : State} (h : s.ports.rst = true) : s.tapValid = false := by
  simp [State.tapValid, State.coValid_of_rst h]

theorem State.poValid_of_rst {s : State} (h : s.ports.rst = true) : s.poValid = false := by
  simp [State.poValid, h]

/-! ### What moves during reset (R233 item 1, R250) -/

/-- SE, PE and the three logs are in `t` as they are in `s`, and so is the wire `rst`, so that this can be said of one
move after another. -/
structure UnitsStill (s t : State) : Prop where
  se : t.se = s.se
  pe : t.pe = s.pe
  chipLog : t.chipLog = s.chipLog
  pulseLog : t.pulseLog = s.pulseLog
  nfLog : t.nfLog = s.nfLog
  rst : t.ports.rst = s.ports.rst

theorem UnitsStill.refl (s : State) : UnitsStill s s := ⟨rfl, rfl, rfl, rfl, rfl, rfl⟩

theorem UnitsStill.trans {s t u : State} (h : UnitsStill s t) (h' : UnitsStill t u) : UnitsStill s u where
  se := h'.se.trans h.se
  pe := h'.pe.trans h.pe
  chipLog := h'.chipLog.trans h.chipLog
  pulseLog := h'.pulseLog.trans h.pulseLog
  nfLog := h'.nfLog.trans h.nfLog
  rst := h'.rst.trans h.rst

/-- During reset only the environment moves, driving a port: LOAD wants `nf_ready`, a transfer and the overflow want a
token offered, and the trailer wants `rst` at 0. -/
theorem Move.unitsStill {s t : State} (hrst : s.ports.rst = true) (h : Move s t) : UnitsStill s t := by
  cases h with
  | driveNf | driveCi => exact ⟨rfl, rfl, rfl, rfl, rfl, rfl⟩
  | load hready => exact absurd hready (by simp [State.nfReady_of_rst hrst])
  | toConsumer _ _ ho => exact absurd ho (by simp [State.coOffer_of_rst hrst])
  | toPe _ _ _ ho | overflow _ ho => exact absurd ho (by simp [State.ciOffer_of_rst hrst])
  | trail _ hlow => exact absurd (hrst.symm.trans hlow) (by decide)

theorem exec_unitsStill {i : Instr} {s t : State} (hrst : s.ports.rst = true) (hi : i ≠ .reset)
    (h : exec i s = .next t) : UnitsStill s t :=
  exec_rel hi h (.refl s) fun _ _ hstill hmove => hstill.trans (hmove.unitsStill (hstill.rst.trans hrst))

/-- Settles O9: each wire has `rst` in its equation, and an instruction but RESET is a chain of moves, each of which keeps
the units, the logs and `rst` (`Move.unitsStill`). -/
theorem unitsHoldDuringReset : Obligations.UnitsHoldDuringReset := by
  intro s hrst
  refine ⟨State.nfReady_of_rst hrst, State.coValid_of_rst hrst, State.tapValid_of_rst hrst, State.poValid_of_rst hrst, ?_⟩
  intro i t hi h
  obtain ⟨hse, hpe, hchip, hpulse, hnf, -⟩ := exec_unitsStill hrst hi h
  exact ⟨hse, hpe, hchip, hpulse, hnf⟩

end Sys2Proof.Machine
end
